-- ==== Sys2Proof/Word.lean ====
section
/-! DEFINITION. The widths of the unit's values (00_scope.md R6): 32-bit command and response words, 16-bit
immediates and response values, bytes, and the numbers of the eight polynomial registers. -/
namespace Sys2Proof

/-- A command word or a response word: 32 bits, bit 31 the most significant (R6, R70). -/
abbrev Word := BitVec 32

/-- A 16-bit immediate of a command, the value field of a response, or a status register (R72, R76, R32). -/
abbrev Half := BitVec 16

/-- A field element, coefficient, data byte, check byte or table entry (R6). -/
abbrev Byte := BitVec 8

/-- The number of a polynomial register P0 to P7; every 3-bit value names one (R24, R73). -/
abbrev Reg := Fin 8

end Sys2Proof
end

