-- ==== Sys2Proof/Syntax.lean ====
section
/-! DEFINITION. The twenty-seven commands (30_encoding.md R74), one constructor per row of spec/opcode_table.json, in
the table's order. Operands are in the order of R74's first column. -/
namespace Sys2Proof

/-- A command of the unit, the unit's instruction (R12, R74). -/
inductive Instr where
  /-- SRD n: read status register n (R216). -/
  | srd (n : Half)
  /-- FINIT poly: construct the field (R106). -/
  | finit (poly : Half)
  /-- FADD x, y: field addition (R107). -/
  | fadd (x y : Byte)
  /-- FMUL x, y: field multiplication (R108). -/
  | fmul (x y : Byte)
  /-- FINV x: multiplicative inverse (R109). -/
  | finv (x : Byte)
  /-- FEXP e: the power 2^e, `e` the 16 bits of a signed exponent (R73, R110). -/
  | fexp (e : Half)
  /-- FLOG x: discrete logarithm (R111). -/
  | flog (x : Byte)
  /-- PCLR rd: set a register to the zero polynomial (R135). -/
  | pclr (rd : Reg)
  /-- PPUSH rd, b: append one coefficient (R136). -/
  | ppush (rd : Reg) (b : Byte)
  /-- PRDL rs: read a register's length (R137). -/
  | prdl (rs : Reg)
  /-- PRDC rs, i: read one coefficient (R138). -/
  | prdc (rs : Reg) (i : Half)
  /-- PMOV rd, ra: copy a register (R139). -/
  | pmov (rd ra : Reg)
  /-- PNORM rd, ra: normalize (R140). -/
  | pnorm (rd ra : Reg)
  /-- PADD rd, ra, rb: add, equally subtract (R141). -/
  | padd (rd ra rb : Reg)
  /-- PMUL rd, ra, rb: multiply (R143). -/
  | pmul (rd ra rb : Reg)
  /-- PDIV rq, rr, ra, rb: divide P[ra] by P[rb], quotient to rq, remainder to rr (R144). -/
  | pdiv (rq rr ra rb : Reg)
  /-- PMONO rd, c, n: the monomial c * x^n (R142). -/
  | pmono (rd : Reg) (c : Byte) (n : Half)
  /-- GEN rd, e: the generator polynomial of degree e (R173). -/
  | gen (rd : Reg) (e : Half)
  /-- RCHK c: reference check bytes of the data buffer (R174). -/
  | rchk (c : Half)
  /-- ECON c: construct the encoder for check count c (R192). -/
  | econ (c : Half)
  /-- ENC n: encode the data buffer into the check buffer (R193). -/
  | enc (n : Half)
  /-- DCLR: empty the data buffer (R210). -/
  | dclr
  /-- DPUSH b: append one data byte (R211). -/
  | dpush (b : Byte)
  /-- DRDL: read the data length (R212). -/
  | drdl
  /-- DRD i: read one data byte (R213). -/
  | drd (i : Half)
  /-- CRDL: read the check length (R214). -/
  | crdl
  /-- CRD i: read one check byte (R215). -/
  | crd (i : Half)
  deriving DecidableEq, Repr

end Sys2Proof
end

