-- ==== Sys2Proof/WellFormed.lean ====
section
/-! DEFINITION. Which terms of `Instr` are commands. The operand types already hold exactly the values the fields can
carry (30_encoding.md R73, R80: no immediate is illegal at decode), so R79 is the one check. -/
namespace Sys2Proof

/-- The check as a computation. R79: a PDIV sends quotient and remainder to different registers; every other
coincidence of register operands is legal (R84), and every immediate is (R80). -/
def wellFormed : Instr → Bool
  | .pdiv rq rr _ _ => rq != rr
  | .srd _ | .finit _ | .fadd _ _ | .fmul _ _ | .finv _ | .fexp _ | .flog _ => true
  | .pclr _ | .ppush _ _ | .prdl _ | .prdc _ _ | .pmov _ _ => true
  | .pnorm _ _ | .padd _ _ _ | .pmul _ _ _ | .pmono _ _ _ => true
  | .gen _ _ | .rchk _ | .econ _ | .enc _ => true
  | .dclr | .dpush _ | .drdl | .drd _ | .crdl | .crd _ => true

/-- `i` is a command of the unit. -/
abbrev WellFormed (i : Instr) : Prop := wellFormed i = true

end Sys2Proof
end

