-- ==== Sys2Proof/Decode.lean ====
section
/-! DEFINITION. Decoding a command word (30_encoding.md R71 to R80) and encoding a command (the *Encoding* clause of
each command's rule). Both are total. -/
namespace Sys2Proof

/-! ## Fields of a word -/

/-- `w[hi:lo]`, the unsigned value of bits hi down to lo (R6). -/
def bits (w : Word) (hi lo : Nat) : Nat := w.toNat / 2 ^ lo % 2 ^ (hi + 1 - lo)

/-- The register number whose lowest bit is bit `lo` of the word; every 3-bit value is one (R73). -/
def regField (w : Word) (lo : Nat) : Reg := Fin.ofNat 8 (bits w (lo + 2) lo)

/-- `r1 = w[23:21]` (R72). -/
def r1 (w : Word) : Reg := regField w 21
/-- `r2 = w[20:18]` (R72). -/
def r2 (w : Word) : Reg := regField w 18
/-- `r3 = w[17:15]` (R72). -/
def r3 (w : Word) : Reg := regField w 15
/-- `r4 = w[14:12]` (R72). -/
def r4 (w : Word) : Reg := regField w 12
/-- `imm16 = w[15:0]` (R72); a count, index, exponent, polynomial or register number (R73). -/
def imm16 (w : Word) : Half := BitVec.ofNat 16 (bits w 15 0)
/-- `b1 = w[15:8]` (R72). -/
def b1 (w : Word) : Byte := BitVec.ofNat 8 (bits w 15 8)
/-- `b0 = w[7:0]` (R72). -/
def b0 (w : Word) : Byte := BitVec.ofNat 8 (bits w 7 0)

/-! ## Formats -/

/-- A word whose must-be-zero bits `w[hi:lo]` are zero is the command given; any other is illegal (R72, R77). -/
def ifZero (w : Word) (hi lo : Nat) (i : Instr) : Option Instr := if bits w hi lo = 0 then some i else none

/-- Format Z: no operand. -/
def fmtZ (w : Word) (i : Instr) : Option Instr := ifZero w 23 0 i
/-- Format B: one byte. -/
def fmtB (w : Word) (f : Byte → Instr) : Option Instr := ifZero w 23 8 (f (b0 w))
/-- Format BB: two bytes. -/
def fmtBB (w : Word) (f : Byte → Byte → Instr) : Option Instr := ifZero w 23 16 (f (b1 w) (b0 w))
/-- Format I: a 16-bit immediate. -/
def fmtI (w : Word) (f : Half → Instr) : Option Instr := ifZero w 23 16 (f (imm16 w))
/-- Format R: one register. -/
def fmtR (w : Word) (f : Reg → Instr) : Option Instr := ifZero w 20 0 (f (r1 w))
/-- Format RB: a register and a byte. -/
def fmtRB (w : Word) (f : Reg → Byte → Instr) : Option Instr := ifZero w 20 8 (f (r1 w) (b0 w))
/-- Format RI: a register and a 16-bit immediate. -/
def fmtRI (w : Word) (f : Reg → Half → Instr) : Option Instr := ifZero w 20 16 (f (r1 w) (imm16 w))
/-- Format RR: two registers. -/
def fmtRR (w : Word) (f : Reg → Reg → Instr) : Option Instr := ifZero w 17 0 (f (r1 w) (r2 w))
/-- Format RRR: three registers. -/
def fmtRRR (w : Word) (f : Reg → Reg → Reg → Instr) : Option Instr := ifZero w 14 0 (f (r1 w) (r2 w) (r3 w))
/-- Format RRRR: four registers, of which the first two differ (R79). -/
def fmtRRRR (w : Word) (f : Reg → Reg → Reg → Reg → Instr) : Option Instr :=
  if r1 w = r2 w then none else ifZero w 11 0 (f (r1 w) (r2 w) (r3 w) (r4 w))
/-- Format M: the opcode is the five bits w[31:27]; every other bit carries an operand (R71, R72). -/
def fmtM (w : Word) (f : Reg → Byte → Half → Instr) : Option Instr :=
  some (f (regField w 24) (BitVec.ofNat 8 (bits w 23 16)) (imm16 w))

/-! ## The decoder -/

/-- The command a word of opcode `op` is, in the format of its row (R74), for every row but PMONO's; none for an
unassigned opcode (R78). -/
def decodeOp (op : Nat) (w : Word) : Option Instr :=
  match op with
  | 0x01 => fmtI w .srd
  | 0x10 => fmtI w .finit
  | 0x11 => fmtBB w .fadd
  | 0x12 => fmtBB w .fmul
  | 0x13 => fmtB w .finv
  | 0x14 => fmtI w .fexp
  | 0x15 => fmtB w .flog
  | 0x20 => fmtR w .pclr
  | 0x21 => fmtRB w .ppush
  | 0x22 => fmtR w .prdl
  | 0x23 => fmtRI w .prdc
  | 0x24 => fmtRR w .pmov
  | 0x25 => fmtRR w .pnorm
  | 0x26 => fmtRRR w .padd
  | 0x27 => fmtRRR w .pmul
  | 0x28 => fmtRRRR w .pdiv
  | 0x40 => fmtRI w .gen
  | 0x41 => fmtI w .rchk
  | 0x48 => fmtI w .econ
  | 0x49 => fmtI w .enc
  | 0x50 => fmtZ w .dclr
  | 0x51 => fmtB w .dpush
  | 0x52 => fmtZ w .drdl
  | 0x53 => fmtI w .drd
  | 0x54 => fmtZ w .crdl
  | 0x55 => fmtI w .crd
  | _ => none

/-- The command a word is; none for an illegal word (R75, R77 to R79). PMONO's opcode is w[31:27] = 0b00110, every
other command's is w[31:24] (R71). Decoding depends on the word alone. -/
def decode (w : Word) : Option Instr :=
  if bits w 31 27 = 0b00110 then fmtM w .pmono else decodeOp (bits w 31 24) w

/-- The decoder's answer for an opcode-table word of `nbits` bits, the bits above them zero. A command is one 32-bit
word presented in parallel (R52, R71), so there is no byte order to lay out. -/
def decodeTableWord (nbits w : Nat) : Option Instr := decode (BitVec.ofNat 32 (w % 2 ^ nbits))

/-! ## The encoder -/

/-- The number of the word a command is, as its rule's *Encoding* clause adds it up (files 40 to 44). -/
def encodeNat : Instr → Nat
  | .srd n => 0x01000000 + n.toNat
  | .finit poly => 0x10000000 + poly.toNat
  | .fadd x y => 0x11000000 + 256 * x.toNat + y.toNat
  | .fmul x y => 0x12000000 + 256 * x.toNat + y.toNat
  | .finv x => 0x13000000 + x.toNat
  | .fexp e => 0x14000000 + e.toNat
  | .flog x => 0x15000000 + x.toNat
  | .pclr rd => 0x20000000 + rd.val * 2 ^ 21
  | .ppush rd b => 0x21000000 + rd.val * 2 ^ 21 + b.toNat
  | .prdl rs => 0x22000000 + rs.val * 2 ^ 21
  | .prdc rs i => 0x23000000 + rs.val * 2 ^ 21 + i.toNat
  | .pmov rd ra => 0x24000000 + rd.val * 2 ^ 21 + ra.val * 2 ^ 18
  | .pnorm rd ra => 0x25000000 + rd.val * 2 ^ 21 + ra.val * 2 ^ 18
  | .padd rd ra rb => 0x26000000 + rd.val * 2 ^ 21 + ra.val * 2 ^ 18 + rb.val * 2 ^ 15
  | .pmul rd ra rb => 0x27000000 + rd.val * 2 ^ 21 + ra.val * 2 ^ 18 + rb.val * 2 ^ 15
  | .pdiv rq rr ra rb => 0x28000000 + rq.val * 2 ^ 21 + rr.val * 2 ^ 18 + ra.val * 2 ^ 15 + rb.val * 2 ^ 12
  | .pmono rd c n => 0x30000000 + rd.val * 2 ^ 24 + c.toNat * 2 ^ 16 + n.toNat
  | .gen rd e => 0x40000000 + rd.val * 2 ^ 21 + e.toNat
  | .rchk c => 0x41000000 + c.toNat
  | .econ c => 0x48000000 + c.toNat
  | .enc n => 0x49000000 + n.toNat
  | .dclr => 0x50000000
  | .dpush b => 0x51000000 + b.toNat
  | .drdl => 0x52000000
  | .drd i => 0x53000000 + i.toNat
  | .crdl => 0x54000000
  | .crd i => 0x55000000 + i.toNat

/-- The one command word of a command (R71, R74). -/
def encode (i : Instr) : Word := BitVec.ofNat 32 (encodeNat i)

end Sys2Proof
end

