-- ==== Sys2Proof/Config.lean ====
section
/-! DEFINITION. What one instance of the unit fixes (00_scope.md R5), and the one free value of the model. -/
namespace Sys2Proof

/-- The capacities of one unit (R5). `SCAP` and `GCAP` are derived from them (Machine/Ops.lean). -/
structure Params where
  /-- Coefficients one polynomial register can hold. -/
  pcap : Nat
  /-- Bytes the data buffer can hold. -/
  dcap : Nat
  /-- Bytes the check buffer can hold; also the largest check count. -/
  ccap : Nat
  deriving DecidableEq, Repr

/-- The constraint column of R5. -/
abbrev Params.wf (p : Params) : Prop :=
  1 ≤ p.pcap ∧ p.pcap ≤ 65535 ∧ p.dcap + p.ccap ≤ 65535 ∧ p.ccap ≤ 65534

/-- The default column of R5. -/
def Params.default : Params := { pcap := 512, dcap := 256, ccap := 255 }

/-- FREE VALUE (log 6): what reading index `i` of a byte store gives where the store holds nothing. The spec calls
those bytes unspecified and has no rule that reads one (R23, R24, R36); no state that meets the model's invariant
reads one either. -/
opaque Config.unspecifiedByte : Nat → Byte

end Sys2Proof
end

