-- ==== Sys2Proof/Machine/State.lean ====
section
/-! DEFINITION. The unit's state (10_state.md), as plain data, the reasons a step can stop, and the state after reset.

A byte store (EXP, LOG, COEF, DBUF, CBUF, GLOG, SCR) is the list of the bytes it has been given, from index 0 up: every
rule writes a store from index 0 upward or appends to what it holds, so what is held is always a prefix of the store.
A byte that nothing has written since reset is not listed; the spec calls it unspecified (R36) and never reads it
(log 4). Lengths, counts and indices are numbers (R8). -/
namespace Sys2Proof.Machine

/-- The field tables (R21): `exp` is EXP[0..509]; `log` is LOG[1..255], entry `x - 1` being LOG[x], because LOG[0] is
never written and never read (R23; U2 lets a model leave it out; log 5). -/
structure Tables where
  exp : List Byte
  log : List Byte
  deriving DecidableEq, Repr

/-- A length register with its byte store: P[k].LEN with P[k].COEF (R24), DLEN with DBUF (R27), CLEN with CBUF (R28).
The bytes at indices at or beyond `len` are no part of the value and are never read. -/
structure Buffer where
  len : Nat
  bytes : List Byte
  deriving DecidableEq, Repr

/-- What the host does at the unit's ports (R70): it offers a command word that the unit accepts, or asserts `rst`. -/
inductive HostEvent where
  /-- A command word, accepted (`cmd_valid`, `cmd_word`; R70). -/
  | command (w : Word)
  /-- `rst` is asserted (R70, R260). -/
  | rst
  deriving DecidableEq, Repr

/-- The failures of a command (60_exceptions.md R230, R231). None of them stops the unit: the command answers with the
code and the unit takes the next one (R233), so they are not the `Fault` below. -/
inductive CmdFault where
  /-- Code 1, raised by FINIT. -/
  | invalidFieldPolynomial
  /-- Code 2, raised by FINIT. -/
  | reduciblePolynomial
  /-- Code 3, raised by PDIV. -/
  | divideByZeroPolynomial
  /-- Code 4, raised by ENC. -/
  | mismatchedCheckLength
  /-- Code 5, raised by ECON. -/
  | internalConsistency
  /-- Code 8, raised by an illegal word. -/
  | illegalCommand
  /-- Code 9, raised by the fourteen commands that need the field. -/
  | fieldNotReady
  /-- Code 10, raised by ENC. -/
  | encoderNotReady
  /-- Code 11, raised by PPUSH, DPUSH, PMONO, PMUL, GEN, RCHK, ECON. -/
  | capacityExceeded
  /-- Code 12, raised by PRDC, DRD, CRD, SRD. -/
  | indexOutOfRange
  deriving DecidableEq, Repr

/-- The state of the unit and, in the last two fields, the host's side of its two channels. -/
structure State where
  /-- PCAP, DCAP, CCAP: constants of this unit, which no step writes (R5, R32, R35; log 1). -/
  params : Params
  /-- FVALID (R21, R34). -/
  fvalid : Bool
  /-- EXP and LOG (R21). -/
  tbl : Tables
  /-- P0 to P7 (R24). -/
  p : Vector Buffer 8
  /-- DLEN and DBUF (R27). -/
  dbuf : Buffer
  /-- CLEN and CBUF (R28). -/
  cbuf : Buffer
  /-- EVALID (R29, R34). -/
  evalid : Bool
  /-- CHECKCOUNT (R29, R32). -/
  checkCount : Nat
  /-- GLOG (R29). -/
  glog : List Byte
  /-- SCR (R31). -/
  scr : List Byte
  /-- SCRHWM (R31, R32). -/
  scrHwm : Nat
  /-- FAULTS (R32, R233). -/
  faults : BitVec 16
  /-- What the host will do at the ports, the next first (R70; the stream is the host's, R35; log 2). -/
  inbox : List HostEvent
  /-- The responses given so far, the first first (R70, R268; log 2). -/
  rsps : List Word
  deriving DecidableEq, Repr

/-- Why the machine stops with a fault: never. Every command word in every state has one response and one next state
(R233; 93_implementation_defined.md, part 1), so no reason exists and the type is empty (safe: nothing is excused). -/
inductive Fault where
  deriving DecidableEq, Repr

/-- Why the model gives an instruction no meaning. -/
inductive Refusal where
  /-- The instruction has no meaning in the model yet. Raised by an arm of `exec` only; no arm raises it now. Safe. -/
  | notModelled (mnemonic : String)
  deriving DecidableEq, Repr

/-- Length 0 and no byte written. -/
def Buffer.empty : Buffer := { len := 0, bytes := [] }

/-- The state after reset (R36), with the default capacities (R5) and nothing at the ports. -/
def State.reset : State where
  params := Params.default
  fvalid := false
  tbl := { exp := [], log := [] }
  p := Vector.replicate 8 Buffer.empty
  dbuf := Buffer.empty
  cbuf := Buffer.empty
  evalid := false
  checkCount := 0
  glog := []
  scr := []
  scrHwm := 0
  faults := 0
  inbox := []
  rsps := []

end Sys2Proof.Machine
end

