-- ==== Sys2Proof/Machine/Flags.lean ====
section
/-! DEFINITION. The codes of the failures, the FAULTS record and the STATUS register. The unit has no arithmetic
condition codes (10_state.md R34): FVALID and EVALID are its only flags. -/
namespace Sys2Proof.Machine

/-- The fault code of a failure (60_exceptions.md R230, R231). -/
def CmdFault.code : CmdFault → Nat
  | .invalidFieldPolynomial => 1
  | .reduciblePolynomial => 2
  | .divideByZeroPolynomial => 3
  | .mismatchedCheckLength => 4
  | .internalConsistency => 5
  | .illegalCommand => 8
  | .fieldNotReady => 9
  | .encoderNotReady => 10
  | .capacityExceeded => 11
  | .indexOutOfRange => 12

/-- `1 << k`, the FAULTS bit of a failure with code k (R32, R233). -/
def CmdFault.bit (f : CmdFault) : BitVec 16 := BitVec.ofNat 16 (2 ^ f.code)

/-- SR0: bit 0 is FVALID, bit 1 is EVALID, bits 15:2 read 0 (R32, R216). -/
def State.status (s : State) : Half := BitVec.ofNat 16 (s.fvalid.toNat + 2 * s.evalid.toNat)

end Sys2Proof.Machine
end

