-- ==== Sys2Proof/Machine/Operands.lean ====
section
/-! DEFINITION. How operands of a command become values and how values become the 16-bit value of a response
(30_encoding.md R73, R76; 00_scope.md R6). Every immediate but FEXP's is read as an unsigned number (`toNat`); register
numbers select P0 to P7 and every one is valid. -/
namespace Sys2Proof.Machine

/-- `sext_16`, the one signed operand: FEXP's exponent in [-32768, 32767] (R6, R73). -/
def sext16 (v : Half) : Int := if v.toNat < 32768 then (v.toNat : Int) else (v.toNat : Int) - 65536

/-- A length, count or status value as the 16-bit value of a response (R76). -/
def valueOfNat (n : Nat) : Half := BitVec.ofNat 16 n

/-- A byte as the value of a response: it occupies r[7:0], and r[15:8] is 0 (R76). -/
def valueOfByte (b : Byte) : Half := BitVec.ofNat 16 b.toNat

/-- A signed result as the value of a response, modulo 65536: -1 is 0xFFFF (R6, R76, R111). -/
def valueOfInt (v : Int) : Half := BitVec.ofInt 16 v

/-- The whole sequence a buffer holds: its bytes at indices below its length (R9, R24, R27, R28). -/
def Buffer.value (b : Buffer) : List Byte := b.bytes.take b.len

/-- `P[k]`, the polynomial register k read as a whole sequence, ascending degree (R9, R24). -/
def State.poly (s : State) (k : Reg) : List Byte := s.p[k].value

end Sys2Proof.Machine
end

