-- ==== Sys2Proof/Machine/Ops.lean ====
section
/-! DEFINITION. The operations every command is made of: reading and writing the byte stores and the buffers, ending a
command with a response, and raising a failure. -/
namespace Sys2Proof

/-- `SCAP`, the size of the encoder scratch (R5). -/
def Params.scap (q : Params) : Nat := q.dcap + q.ccap

/-- `GCAP`, the entries of the log-domain generator (R5). -/
def Params.gcap (q : Params) : Nat := q.ccap + 1

end Sys2Proof

namespace Sys2Proof.Machine

/-! ## Byte stores -/

/-- The byte at index `i` of a store; the free value where the store holds nothing (log 6). -/
def byteAt (store : List Byte) (i : Nat) : Byte := (store[i]?).getD (Config.unspecifiedByte i)

/-- Writing the bytes `new` at indices 0 up: the bytes at or beyond `new.length` stay (R24, R193). -/
def overwrite (store new : List Byte) : List Byte := new ++ store.drop new.length

/-- Writing a whole sequence: the length becomes the sequence's, and its bytes are stored from index 0 (R24). -/
def Buffer.write (b : Buffer) (seq : List Byte) : Buffer := { len := seq.length, bytes := overwrite b.bytes seq }

/-- Appending one byte at index `len` (R136, R211). -/
def Buffer.push (b : Buffer) (v : Byte) : Buffer := b.write (b.value ++ [v])

/-- Length 0; no byte of the store is cleared (R210). -/
def Buffer.clear (b : Buffer) : Buffer := { b with len := 0 }

/-- `P[k] <- seq` (R9, R24). -/
def State.setPoly (s : State) (k : Reg) (seq : List Byte) : State := { s with p := s.p.set k (s.p[k].write seq) }

/-- The internal spaces of bytes (20_memory.md R50). -/
inductive Space where
  | exp
  | log
  | coef (k : Reg)
  | dbuf
  | cbuf
  | glog
  | scr
  deriving DecidableEq, Repr

/-- `MemRead(S, i, 1)` (R9): the byte at index `i` of a space; none where nothing has been written since reset, and for
`LOG[0]`, which is never written (R23). No command uses it: it is how statements speak of one byte of memory. -/
def State.memRead (s : State) (sp : Space) (i : Nat) : Option Byte :=
  match sp with
  | .exp => s.tbl.exp[i]?
  | .log => if i = 0 then none else s.tbl.log[i - 1]?
  | .coef k => s.p[k].bytes[i]?
  | .dbuf => s.dbuf.bytes[i]?
  | .cbuf => s.cbuf.bytes[i]?
  | .glog => s.glog[i]?
  | .scr => s.scr[i]?

/-- A buffer's store holds at least its value and no more than its capacity (R24, R27, R28). -/
abbrev Buffer.wf (cap : Nat) (b : Buffer) : Prop := b.len ≤ b.bytes.length ∧ b.bytes.length ≤ cap

/-- The form of the byte stores: every store holds no more than its size (R50), and every length register is covered by
bytes that have been written. A store has one representation for its content (log 4), so equal stores are equal data. -/
abbrev Memory.wf (s : State) : Prop :=
  s.tbl.exp.length ≤ 510 ∧ s.tbl.log.length ≤ 255 ∧ (∀ k : Reg, Buffer.wf s.params.pcap s.p[k]) ∧
  Buffer.wf s.params.dcap s.dbuf ∧ Buffer.wf s.params.ccap s.cbuf ∧
  s.glog.length ≤ s.params.gcap ∧ s.scr.length ≤ s.params.scap ∧ s.scrHwm ≤ s.params.scap

/-! ## The end of a command -/

/-- What a command answers: always a next state (R233). -/
abbrev Result := Host.Outcome State Fault Refusal

/-- The response word: r[31:24] the status, r[23:16] zero, r[15:0] the value (30_encoding.md R76). -/
def rspWord (status : Nat) (value : Half) : Word := BitVec.ofNat 32 (status * 2 ^ 24 + value.toNat)

/-- The response leaves the unit (R70). -/
def State.emit (s : State) (r : Word) : State := { s with rsps := s.rsps ++ [r] }

/-- The command completes without a fault and answers value `v` (R11, R76). -/
def respond (v : Half) (s : State) : Result := .next (s.emit (rspWord 0 v))

/-- The command completes without a fault and has no `respond`: value 0 (R11). -/
def done (s : State) : Result := respond 0 s

/-- The state after a failure (R233): FAULTS gets the bit of the code, the response is the code with value 0, and no
other state element changes. -/
def State.fail (s : State) (f : CmdFault) : State :=
  { s with faults := s.faults ||| f.bit }.emit (rspWord f.code 0)

/-- RAISING A FAILURE (60_exceptions.md R233), the one operation every failing command ends in. There is no handler and
no saved state, so there is no return from it either (R235): the next command starts afresh. -/
def raise (f : CmdFault) (s : State) : Result := .next (s.fail f)

/-- The rest of a command that needs the field: `field-not-ready` while FVALID = 0 (R234, second test). -/
def needField (s : State) (k : Result) : Result := if s.fvalid then k else raise .fieldNotReady s

/-- `rst` is asserted (70_reset_and_hazards.md R260): every state element takes its reset value. The capacities are
constants of the unit (R35); the two channels are the host's (log 3). -/
def State.hostReset (s : State) : State :=
  { State.reset with params := s.params, inbox := s.inbox, rsps := s.rsps }

end Sys2Proof.Machine
end

