-- ==== Sys2Proof/Machine/Buffers.lean ====
section
/-! DEFINITION. The data buffer, the check buffer and the status registers (44_buffers_system.md R210 to R216). None of
these commands needs the field. -/
namespace Sys2Proof.Machine

/-- DCLR (R210): the bytes of the store are not cleared. -/
def execDclr (s : State) : Result := done { s with dbuf := s.dbuf.clear }

/-- DPUSH b (R211). -/
def execDpush (b : Byte) (s : State) : Result :=
  if s.dbuf.len = s.params.dcap then raise .capacityExceeded s else done { s with dbuf := s.dbuf.push b }

/-- DRDL (R212). -/
def execDrdl (s : State) : Result := respond (valueOfNat s.dbuf.len) s

/-- DRD i (R213). -/
def execDrd (i : Half) (s : State) : Result :=
  if i.toNat ≥ s.dbuf.len then raise .indexOutOfRange s
  else respond (valueOfByte (byteAt s.dbuf.bytes i.toNat)) s

/-- CRDL (R214). -/
def execCrdl (s : State) : Result := respond (valueOfNat s.cbuf.len) s

/-- CRD i (R215). -/
def execCrd (i : Half) (s : State) : Result :=
  if i.toNat ≥ s.cbuf.len then raise .indexOutOfRange s
  else respond (valueOfByte (byteAt s.cbuf.bytes i.toNat)) s

/-- Status register n, for n <= 6 (R32, R216); none for the others, which do not exist. -/
def State.statusRegister (s : State) (n : Nat) : Option Half :=
  match n with
  | 0 => some s.status
  | 1 => some s.faults
  | 2 => some (valueOfNat s.checkCount)
  | 3 => some (valueOfNat s.scrHwm)
  | 4 => some (valueOfNat s.params.pcap)
  | 5 => some (valueOfNat s.params.dcap)
  | 6 => some (valueOfNat s.params.ccap)
  | _ => none

/-- SRD n (R216). -/
def execSrd (n : Half) (s : State) : Result :=
  match s.statusRegister n.toNat with
  | none => raise .indexOutOfRange s
  | some v => respond v s

end Sys2Proof.Machine
end

