-- ==== Sys2Proof/Machine/Field.lean ====
section
/-! DEFINITION. The Field block (40_field.md): its functions R100 to R105 and its six commands R106 to R111. -/
namespace Sys2Proof.Machine

/-! ## Loops -/

/-- `for i in 0 .. n - 1: r <- body r i` of the spec's pseudocode. -/
def forUpto {α : Type} (n : Nat) (r : α) (body : α → Nat → α) : α := (List.range n).foldl body r

/-! ## Functions -/

/-- Multiplication by the generator 2 (10_state.md R22): `2 * v`, reduced by the polynomial when it overflows 8 bits. -/
def xtime (poly v : Nat) : Nat := if 2 * v < 256 then 2 * v else (2 * v) ^^^ poly

/-- The variables of the loop of R100: x and the two tables under construction, all 510 and 256 entries of them. -/
structure Build where
  x : Nat
  exp : List Byte
  log : List Byte
  deriving DecidableEq, Repr

/-- The passes i, i + 1, ... of the loop of R100, `left` of them. `none` is the failure inside the loop. -/
def buildLoop (poly : Nat) : (left i : Nat) → Build → Option Build
  | 0, _, b => some b
  | left + 1, i, b =>
    if i ≠ 0 ∧ b.x = 1 then none
    else
      let e := BitVec.ofNat 8 b.x
      buildLoop poly left (i + 1)
        { x := xtime poly b.x, exp := (b.exp.set i e).set (i + 255) e, log := b.log.set b.x (BitVec.ofNat 8 i) }

/-- `build_tables(poly)` (R100): 255 passes from x = 1, then the final test x = 1 (90_conflicts.md C2). The entries of
the tables before they are written are zeros that no successful build leaves (log 8). LOG[0] is dropped (R23). -/
def buildTables (poly : Nat) : Option Tables :=
  match buildLoop poly 255 0 { x := 1, exp := List.replicate 510 0, log := List.replicate 256 0 } with
  | none => none
  | some b => if b.x ≠ 1 then none else some { exp := b.exp, log := b.log.drop 1 }

/-- `EXP[i]` (R21). -/
def Tables.expAt (t : Tables) (i : Nat) : Byte := byteAt t.exp i

/-- `LOG[x]` as the byte stored, for a nonzero x (R21, R23). -/
def Tables.logByte (t : Tables) (x : Byte) : Byte := byteAt t.log (x.toNat - 1)

/-- `LOG[x]` as a number, for a nonzero x (R21). -/
def Tables.logAt (t : Tables) (x : Byte) : Nat := (t.logByte x).toNat

/-- `gf_add(x, y)` (R101). -/
def gfAdd (x y : Byte) : Byte := x ^^^ y

/-- `gf_mul(x, y)` (R102). -/
def gfMul (t : Tables) (x y : Byte) : Byte :=
  if x = 0 ∨ y = 0 then 0 else t.expAt (t.logAt x + t.logAt y)

/-- `gf_inv(x)` (R103). -/
def gfInv (t : Tables) (x : Byte) : Byte := if x = 0 then 0 else t.expAt (255 - t.logAt x)

/-- `gf_exp(e)` (R104). -/
def gfExp (t : Tables) (e : Int) : Byte := if e < 0 then 0 else t.expAt (e.toNat % 255)

/-- `gf_log(x)` (R105). -/
def gfLog (t : Tables) (x : Byte) : Int := if x = 0 then -1 else (t.logAt x : Int)

/-! ## Commands -/

/-- FINIT poly (R106): the range test, the build, then all writes together. -/
def execFinit (poly : Half) (s : State) : Result :=
  if poly.toNat < 256 ∨ poly.toNat ≥ 512 then raise .invalidFieldPolynomial s
  else
    match buildTables poly.toNat with
    | none => raise .reduciblePolynomial s
    | some t => done { s with tbl := t, fvalid := true, evalid := false, checkCount := 0 }

/-- FADD x, y (R107). -/
def execFadd (x y : Byte) (s : State) : Result := needField s (respond (valueOfByte (gfAdd x y)) s)

/-- FMUL x, y (R108). -/
def execFmul (x y : Byte) (s : State) : Result := needField s (respond (valueOfByte (gfMul s.tbl x y)) s)

/-- FINV x (R109). -/
def execFinv (x : Byte) (s : State) : Result := needField s (respond (valueOfByte (gfInv s.tbl x)) s)

/-- FEXP e (R110), the exponent read as a signed number (R73). -/
def execFexp (e : Half) (s : State) : Result := needField s (respond (valueOfByte (gfExp s.tbl (sext16 e))) s)

/-- FLOG x (R111). -/
def execFlog (x : Byte) (s : State) : Result := needField s (respond (valueOfInt (gfLog s.tbl x)) s)

end Sys2Proof.Machine
end

