-- ==== Sys2Proof/Machine/Polynomial.lean ====
section
/-! DEFINITION. The polynomial block (41_polynomial.md): its functions R130 to R134 and its ten commands R135 to R144.
A polynomial is a byte sequence in ascending degree (00_scope.md R7). -/
namespace Sys2Proof.Machine

/-! ## Functions -/

/-- `coef(p, i)`: `p[i]` when i < len(p) and 0 otherwise (R7). -/
def coef (p : List Byte) (i : Nat) : Byte := p.getD i 0

/-- `zeros(n)` (R7). -/
def zeros (n : Nat) : List Byte := List.replicate n 0

/-- `p_norm(p)`: strip trailing zero high-degree coefficients (R130). -/
def pNorm (p : List Byte) : List Byte := (p.reverse.dropWhile (· == 0)).reverse

/-- `p_add(x, y)` (R131). -/
def pAdd (x y : List Byte) : List Byte :=
  pNorm ((List.range (max x.length y.length)).map fun i => coef x i ^^^ coef y i)

/-- `p_mono(c, d)`: d zeros and then c, for every c (R132). -/
def pMono (c : Byte) (d : Nat) : List Byte := zeros d ++ [c]

/-- `for j in 0 .. len(row) - 1: r[i + j] <- r[i + j] ^ row[j]`, the inner loop of R133 and of R191. Each index is
touched once, so the loop is one walk along `r`. -/
def xorRow : (r : List Byte) → (i : Nat) → (row : List Byte) → List Byte
  | [], _, _ => []
  | v :: r, i + 1, row => v :: xorRow r i row
  | v :: r, 0, [] => v :: r
  | v :: r, 0, w :: row => (v ^^^ w) :: xorRow r 0 row

/-- `p_mul(x, y)`: full convolution, not normalized (R133). -/
def pMul (t : Tables) (x y : List Byte) : List Byte :=
  if x.length = 0 ∨ y.length = 0 then []
  else
    forUpto x.length (zeros (x.length + y.length - 1)) fun r i => xorRow r i (y.map (gfMul t (coef x i)))

/-- One pass of the loop of R134 on the quotient and the remainder so far, for the normalized divisor d. -/
def divPass (t : Tables) (d : List Byte) (qr : List Byte × List Byte) : List Byte × List Byte :=
  let (q, r) := qr
  let k := r.length - d.length
  let c := gfMul t (coef r (r.length - 1)) (gfInv t (coef d (d.length - 1)))
  let m := pMono c k
  (pAdd q m, pAdd r (pMul t m d))

/-- The loop of R134, for at most `fuel` passes: while the remainder is at least as long as the divisor. -/
def divLoop (t : Tables) (d : List Byte) : (fuel : Nat) → List Byte × List Byte → List Byte × List Byte
  | 0, qr => qr
  | fuel + 1, qr => if qr.2.length ≥ d.length then divLoop t d fuel (divPass t d qr) else qr

/-- The part of `p_div(x, y)` after its failing test, for the normalized divisor d: quotient `[]` and remainder
`p_norm(x)`, then the loop (R134). With valid tables each pass shortens the remainder, so `len(p_norm(x))` passes are
enough (R146; log 7). -/
def divBy (t : Tables) (x d : List Byte) : List Byte × List Byte := divLoop t d (pNorm x).length ([], pNorm x)

/-- `p_div(x, y)`: quotient and remainder, or none for `divide-by-zero-polynomial` (R134). -/
def pDiv (t : Tables) (x y : List Byte) : Option (List Byte × List Byte) :=
  if (pNorm y).length = 0 then none else some (divBy t x (pNorm y))

/-! ## Commands that load, copy and read registers -/

/-- PCLR rd (R135). -/
def execPclr (rd : Reg) (s : State) : Result := done (s.setPoly rd [])

/-- PPUSH rd, b (R136). -/
def execPpush (rd : Reg) (b : Byte) (s : State) : Result :=
  if s.p[rd].len = s.params.pcap then raise .capacityExceeded s else done (s.setPoly rd (s.poly rd ++ [b]))

/-- PRDL rs (R137). -/
def execPrdl (rs : Reg) (s : State) : Result := respond (valueOfNat s.p[rs].len) s

/-- PRDC rs, i (R138). -/
def execPrdc (rs : Reg) (i : Half) (s : State) : Result :=
  if i.toNat ≥ s.p[rs].len then raise .indexOutOfRange s
  else respond (valueOfByte (byteAt s.p[rs].bytes i.toNat)) s

/-- PMOV rd, ra (R139): length and coefficients, without normalizing. -/
def execPmov (rd ra : Reg) (s : State) : Result := done (s.setPoly rd (s.poly ra))

/-! ## Commands of the polynomial algebra -/

/-- PNORM rd, ra (R140). -/
def execPnorm (rd ra : Reg) (s : State) : Result := needField s (done (s.setPoly rd (pNorm (s.poly ra))))

/-- PADD rd, ra, rb (R141). -/
def execPadd (rd ra rb : Reg) (s : State) : Result := needField s (done (s.setPoly rd (pAdd (s.poly ra) (s.poly rb))))

/-- PMONO rd, c, n (R142). -/
def execPmono (rd : Reg) (c : Byte) (n : Half) (s : State) : Result :=
  needField s <|
    if n.toNat + 1 > s.params.pcap then raise .capacityExceeded s else done (s.setPoly rd (pMono c n.toNat))

/-- PMUL rd, ra, rb (R143). -/
def execPmul (rd ra rb : Reg) (s : State) : Result :=
  needField s <|
    let x := s.poly ra
    let y := s.poly rb
    if x.length > 0 ∧ y.length > 0 ∧ x.length + y.length - 1 > s.params.pcap then raise .capacityExceeded s
    else done (s.setPoly rd (pMul s.tbl x y))

/-- PDIV rq, rr, ra, rb (R144). The decoder already refuses a word with rq = rr (R79); the test stands here too, first
as R144 lists it, so that no term of `Instr` has another meaning (log 9). -/
def execPdiv (rq rr ra rb : Reg) (s : State) : Result :=
  if rq = rr then raise .illegalCommand s
  else
    needField s <|
      match pDiv s.tbl (s.poly ra) (s.poly rb) with
      | none => raise .divideByZeroPolynomial s
      | some (q, r) => done ((s.setPoly rq q).setPoly rr r)

end Sys2Proof.Machine
end

