-- ==== Sys2Proof/Machine/Generator.lean ====
section
/-! DEFINITION. Generator synthesis and the reference check bytes (42_generator_reference.md): the functions R170 and
R172, the commands R173 and R174. -/
namespace Sys2Proof.Machine

/-- `gen(e)`: the product of the factors x + 2^i for i = 0 .. e - 1, multiplied up from the identity (R170). -/
def gen (t : Tables) : (e : Nat) → List Byte
  | 0 => [1]
  | e + 1 => pMul t (gen t e) [gfExp t (e : Int), 1]

/-- `ref_check(data, c)`, for c >= 1 (R172). The generator is monic, so `p_div` by it never fails (R171) and the part
of it after the failing test is what runs (log 10). -/
def refCheck (t : Tables) (data : List Byte) (c : Nat) : List Byte :=
  let p := pNorm data.reverse
  let s := pMul t p (pMono 1 c)
  let r := (divBy t s (pNorm (gen t c))).2
  (List.range c).map fun j => coef r (c - 1 - j)

/-- GEN rd, e (R173). -/
def execGen (rd : Reg) (e : Half) (s : State) : Result :=
  needField s <|
    if e.toNat + 1 > s.params.pcap then raise .capacityExceeded s else done (s.setPoly rd (gen s.tbl e.toNat))

/-- RCHK c (R174): c = 0 sets CLEN to 0 and writes no check byte. -/
def execRchk (c : Half) (s : State) : Result :=
  needField s <|
    if c.toNat > s.params.ccap then raise .capacityExceeded s
    else if c.toNat = 0 then done { s with cbuf := s.cbuf.clear }
    else done { s with cbuf := s.cbuf.write (refCheck s.tbl s.dbuf.value c.toNat) }

end Sys2Proof.Machine
end

