-- ==== Sys2Proof/Machine/Encoder.lean ====
section
/-! DEFINITION. The Reed-Solomon encoder (43_encoder.md): the functions R190 and R191, the commands R192 and R193. -/
namespace Sys2Proof.Machine

/-- A polynomial of degree c in descending degree: entry j is `g[c - j]` (R190; 90_conflicts.md C1). -/
def descending (g : List Byte) (c : Nat) : List Byte := (List.range (c + 1)).map fun j => coef g (c - j)

/-- `enc_construct(c)`: the logs of the generator's coefficients in descending degree, or none for
`internal-consistency` when a coefficient is zero (R190). -/
def encConstruct (t : Tables) (c : Nat) : Option (List Byte) :=
  let g := descending (gen t c) c
  if g.any (· == 0) then none else some (g.map t.logByte)

/-- Pass i of the loop of R191 on the scratch, for the c + 1 logs `glog`: a zero byte is skipped; otherwise its multiple
of the generator is XORed in. The byte is read once, before the inner loop. -/
def encPass (t : Tables) (glog : List Byte) (s : List Byte) (i : Nat) : List Byte :=
  let v := coef s i
  if v = 0 then s
  else
    let linv := 255 - (byteAt glog 0).toNat
    let lm := (t.logAt v + linv) % 255
    xorRow s i (glog.map fun g => t.expAt (lm + g.toNat))

/-- `enc_encode(glog, c, data)`: the final scratch, whose last c bytes are the check bytes (R191). -/
def encEncode (t : Tables) (glog : List Byte) (c : Nat) (data : List Byte) : List Byte :=
  forUpto data.length (data ++ zeros c) (encPass t glog)

/-- ECON c (R192): nothing is written before both tests have passed. -/
def execEcon (c : Half) (s : State) : Result :=
  needField s <|
    if c.toNat > s.params.ccap then raise .capacityExceeded s
    else
      match encConstruct s.tbl c.toNat with
      | none => raise .internalConsistency s
      | some g => done { s with glog := overwrite s.glog g, checkCount := c.toNat, evalid := true }

/-- ENC n (R193). The scratch result holds m + c bytes; the bytes of SCR at or beyond m + c stay. -/
def execEnc (n : Half) (s : State) : Result :=
  needField s <|
    if s.evalid = false then raise .encoderNotReady s
    else if n.toNat ≠ s.checkCount then raise .mismatchedCheckLength s
    else if s.checkCount = 0 then done { s with cbuf := s.cbuf.clear }
    else
      let c := s.checkCount
      let data := s.dbuf.value
      let m := data.length
      let scratch := encEncode s.tbl (s.glog.take (c + 1)) c data
      done
        { s with
          scr := overwrite s.scr scratch
          scrHwm := max s.scrHwm (m + c)
          cbuf := s.cbuf.write (scratch.drop m) }

end Sys2Proof.Machine
end

