-- ==== Sys2Proof/Machine/Dispatch.lean ====
section
/-! DEFINITION. One arm per command, each a direct call of its meaning. -/
namespace Sys2Proof.Machine

def exec (i : Instr) (s : State) : Host.Outcome State Fault Refusal :=
  match i with
  | .srd n => Sys2Proof.Machine.execSrd n s
  | .finit poly => Sys2Proof.Machine.execFinit poly s
  | .fadd x y => Sys2Proof.Machine.execFadd x y s
  | .fmul x y => Sys2Proof.Machine.execFmul x y s
  | .finv x => Sys2Proof.Machine.execFinv x s
  | .fexp e => Sys2Proof.Machine.execFexp e s
  | .flog x => Sys2Proof.Machine.execFlog x s
  | .pclr rd => Sys2Proof.Machine.execPclr rd s
  | .ppush rd b => Sys2Proof.Machine.execPpush rd b s
  | .prdl rs => Sys2Proof.Machine.execPrdl rs s
  | .prdc rs j => Sys2Proof.Machine.execPrdc rs j s
  | .pmov rd ra => Sys2Proof.Machine.execPmov rd ra s
  | .pnorm rd ra => Sys2Proof.Machine.execPnorm rd ra s
  | .padd rd ra rb => Sys2Proof.Machine.execPadd rd ra rb s
  | .pmul rd ra rb => Sys2Proof.Machine.execPmul rd ra rb s
  | .pdiv rq rr ra rb => Sys2Proof.Machine.execPdiv rq rr ra rb s
  | .pmono rd c n => Sys2Proof.Machine.execPmono rd c n s
  | .gen rd e => Sys2Proof.Machine.execGen rd e s
  | .rchk c => Sys2Proof.Machine.execRchk c s
  | .econ c => Sys2Proof.Machine.execEcon c s
  | .enc n => Sys2Proof.Machine.execEnc n s
  | .dclr => Sys2Proof.Machine.execDclr s
  | .dpush b => Sys2Proof.Machine.execDpush b s
  | .drdl => Sys2Proof.Machine.execDrdl s
  | .drd j => Sys2Proof.Machine.execDrd j s
  | .crdl => Sys2Proof.Machine.execCrdl s
  | .crd j => Sys2Proof.Machine.execCrd j s

end Sys2Proof.Machine
end

