-- ==== Sys2Proof/Machine/Step.lean ====
section
/-! DEFINITION. One step: what the unit does with the next thing that happens at its ports (10_state.md R20;
20_memory.md R58). -/
namespace Sys2Proof.Machine

/-- With nothing at the ports the unit is idle and its state unchanged (60_exceptions.md R243). `rst` puts every state
element at its reset value (70_reset_and_hazards.md R260). A command word is accepted and runs to completion; an
illegal word raises `illegal-command` in every state (30_encoding.md R75). -/
def step (s : State) : Host.Outcome State Fault Refusal :=
  match s.inbox with
  | [] => .next s
  | .rst :: rest => .next ({ s with inbox := rest }.hostReset)
  | .command w :: rest =>
    match decode w with
    | none => raise .illegalCommand { s with inbox := rest }
    | some i => exec i { s with inbox := rest }

/-- The state with the word `w` of `nbits` bits offered next at the command port, ahead of what the host offers already
(log 2). -/
def State.withFetchWord (s : State) (nbits w : Nat) : State :=
  { s with inbox := .command (BitVec.ofNat 32 (w % 2 ^ nbits)) :: s.inbox }

end Sys2Proof.Machine
end

