-- ==== Sys2Proof/Machine/Assembler.lean ====
section
/-! DEFINITION. The assembler syntax of a command (30_encoding.md R82) and the pseudo-commands (R83). The unit sees
neither: they are how the spec and a host write lists of command words. -/
namespace Sys2Proof.Machine

/-! ## Syntax -/

/-- The mnemonic of a command (R74). -/
def mnemonic : Instr → String
  | .srd _ => "SRD" | .finit _ => "FINIT" | .fadd _ _ => "FADD" | .fmul _ _ => "FMUL" | .finv _ => "FINV"
  | .fexp _ => "FEXP" | .flog _ => "FLOG" | .pclr _ => "PCLR" | .ppush _ _ => "PPUSH" | .prdl _ => "PRDL"
  | .prdc _ _ => "PRDC" | .pmov _ _ => "PMOV" | .pnorm _ _ => "PNORM" | .padd _ _ _ => "PADD"
  | .pmul _ _ _ => "PMUL" | .pdiv _ _ _ _ => "PDIV" | .pmono _ _ _ => "PMONO" | .gen _ _ => "GEN"
  | .rchk _ => "RCHK" | .econ _ => "ECON" | .enc _ => "ENC" | .dclr => "DCLR" | .dpush _ => "DPUSH"
  | .drdl => "DRDL" | .drd _ => "DRD" | .crdl => "CRDL" | .crd _ => "CRD"

/-- A polynomial register, `P0` to `P7` (R82). -/
def regName (k : Reg) : String := "P" ++ toString k.val

/-- The operands of a command as the spec writes them, in the order of R74's first column; numbers in decimal, the
operand of FEXP with its sign (R82). -/
def operandTexts : Instr → List String
  | .srd n | .drd n | .crd n | .finit n | .rchk n | .econ n | .enc n => [toString n.toNat]
  | .fadd x y | .fmul x y => [toString x.toNat, toString y.toNat]
  | .finv x | .flog x | .dpush x => [toString x.toNat]
  | .fexp e => [toString (sext16 e)]
  | .pclr r | .prdl r => [regName r]
  | .ppush rd b => [regName rd, toString b.toNat]
  | .prdc r n | .gen r n => [regName r, toString n.toNat]
  | .pmov rd ra | .pnorm rd ra => [regName rd, regName ra]
  | .padd rd ra rb | .pmul rd ra rb => [regName rd, regName ra, regName rb]
  | .pdiv rq rr ra rb => [regName rq, regName rr, regName ra, regName rb]
  | .pmono rd c n => [regName rd, toString c.toNat, toString n.toNat]
  | .dclr | .drdl | .crdl => []

/-- One line of assembler text: the mnemonic, then the operands separated by commas (R82). -/
def assembly (i : Instr) : String :=
  match operandTexts i with
  | [] => mnemonic i
  | ops => mnemonic i ++ " " ++ String.intercalate ", " ops

/-! ## Pseudo-commands (R83) -/

/-- `PLOAD Pd, [c0, ...]`: ascending degree, c0 the constant term. -/
def pload (rd : Reg) (cs : List Byte) : List Instr := .pclr rd :: cs.map (.ppush rd)

/-- `DLOAD [d0, ...]`: descending degree, d0 the first data byte. -/
def dload (ds : List Byte) : List Instr := .dclr :: ds.map .dpush

/-- `PREAD Ps`, for a register whose length turned out to be n. -/
def pread (rs : Reg) (n : Nat) : List Instr := .prdl rs :: (List.range n).map fun i => .prdc rs (BitVec.ofNat 16 i)

/-- `CREAD`, for a check buffer whose length turned out to be n. -/
def cread (n : Nat) : List Instr := .crdl :: (List.range n).map fun i => .crd (BitVec.ofNat 16 i)

/-- `DREAD`, for a data buffer whose length turned out to be n. -/
def dread (n : Nat) : List Instr := .drdl :: (List.range n).map fun i => .drd (BitVec.ofNat 16 i)

end Sys2Proof.Machine
end

