-- ==== Sys2Proof/Safety.lean ====
section
/-! DEFINITION. What a good state is, the compact view of 10_state.md R37, and the words the statements use: what a
command that completes or fails leaves, the opcode map of R74 as data, and reference notions of polynomial arithmetic
that do not use the machine's tables. -/
namespace Sys2Proof.Machine

/-! ## The invariant -/

/-- FVALID = 1 means the tables are those a successful build made from some polynomial in range (R21, R100, R106). -/
def FieldOk (s : State) : Prop :=
  s.fvalid = true → ∃ poly, 256 ≤ poly ∧ poly < 512 ∧ buildTables poly = some s.tbl

/-- EVALID = 1 means FVALID = 1 and GLOG[0 .. CHECKCOUNT] is what the current tables give for CHECKCOUNT (R30);
CHECKCOUNT is 0 while EVALID = 0 (R32). -/
def EncoderOk (s : State) : Prop :=
  (s.evalid = true → s.fvalid = true ∧ s.checkCount ≤ s.params.ccap ∧
    encConstruct s.tbl s.checkCount = some (s.glog.take (s.checkCount + 1))) ∧
  (s.evalid = false → s.checkCount = 0)

/-- The bits of FAULTS that no fault has read 0: bits 0, 6, 7, 13, 14, 15 (R32). -/
def FaultsOk (s : State) : Prop := s.faults &&& 0xE0C1#16 = 0#16

/-- A good state: what reset leaves and every step keeps. -/
structure State.Inv (s : State) : Prop where
  params : s.params.wf
  memory : Memory.wf s
  field : FieldOk s
  encoder : EncoderOk s
  faults : FaultsOk s

/-! ## The compact view -/

/-- The abstract state of R37, with the parameters of the unit. -/
structure View where
  params : Params
  field : Option Tables
  p : Vector (List Byte) 8
  dbuf : List Byte
  cbuf : List Byte
  enc : Option (Nat × List Byte)
  scrHwm : Nat
  faults : BitVec 16
  deriving DecidableEq, Repr

/-- What R37 says all observable behaviour is a function of. -/
def State.view (s : State) : View where
  params := s.params
  field := if s.fvalid then some s.tbl else none
  p := s.p.map Buffer.value
  dbuf := s.dbuf.value
  cbuf := s.cbuf.value
  enc := if s.evalid then some (s.checkCount, s.glog.take (s.checkCount + 1)) else none
  scrHwm := s.scrHwm
  faults := s.faults

/-! ## How a command ends, in the statements' own words -/

/-- Nothing but one more response, of status 0 and value v (R76). -/
def State.answered (s : State) (v : Nat) : State := { s with rsps := s.rsps ++ [BitVec.ofNat 32 v] }

/-- What a failure of code k leaves (R233). -/
def State.failed (s : State) (k : Nat) : State :=
  { s with faults := s.faults ||| BitVec.ofNat 16 (2 ^ k), rsps := s.rsps ++ [BitVec.ofNat 32 (k * 2 ^ 24)] }

/-- The response a step from s to t adds is r, and no other. -/
def Responded (s t : State) (r : Word) : Prop := t.rsps = s.rsps ++ [r]

/-- The host is about to offer the words of the commands `cs`, and nothing after them. -/
def State.offering (s : State) (cs : List Instr) : State :=
  { s with inbox := cs.map fun i => HostEvent.command (encode i) }

/-! ## Classes of commands -/

/-- The fourteen commands that need the field (R234, second test). -/
def needsField : Instr → Bool
  | .fadd _ _ | .fmul _ _ | .finv _ | .fexp _ | .flog _ => true
  | .pnorm _ _ | .padd _ _ _ | .pmono _ _ _ | .pmul _ _ _ | .pdiv _ _ _ _ => true
  | .gen _ _ | .rchk _ | .econ _ | .enc _ => true
  | .srd _ | .finit _ | .pclr _ | .ppush _ _ | .prdl _ | .prdc _ _ | .pmov _ _ => false
  | .dclr | .dpush _ | .drdl | .drd _ | .crdl | .crd _ => false

/-- The reading commands and the pure field commands (R55). -/
def readsOnly : Instr → Bool
  | .prdl _ | .prdc _ _ | .drdl | .drd _ | .crdl | .crd _ | .srd _ => true
  | .fadd _ _ | .fmul _ _ | .finv _ | .fexp _ | .flog _ => true
  | .finit _ | .pclr _ | .ppush _ _ | .pmov _ _ | .pnorm _ _ | .padd _ _ _ | .pmono _ _ _ | .pmul _ _ _ => false
  | .pdiv _ _ _ _ | .gen _ _ | .rchk _ | .econ _ | .enc _ | .dclr | .dpush _ => false

/-- The fault codes a command can raise, its row of R232 without `illegal-command`. -/
def faultCodes : Instr → List Nat
  | .srd _ => [12]
  | .finit _ => [1, 2]
  | .fadd _ _ | .fmul _ _ | .finv _ | .fexp _ | .flog _ => [9]
  | .pclr _ | .prdl _ | .pmov _ _ => []
  | .ppush _ _ => [11]
  | .prdc _ _ => [12]
  | .pnorm _ _ | .padd _ _ _ => [9]
  | .pmono _ _ _ | .pmul _ _ _ => [9, 11]
  | .pdiv _ _ _ _ => [3, 9]
  | .gen _ _ => [9, 11]
  | .rchk _ => [9, 11]
  | .econ _ => [5, 9, 11]
  | .enc _ => [4, 9, 10]
  | .dclr | .drdl | .crdl => []
  | .dpush _ => [11]
  | .drd _ | .crd _ => [12]

/-- The polynomial registers a command writes, the writes column of R26. -/
def polyDests : Instr → List Reg
  | .pclr rd | .ppush rd _ | .pmov rd _ | .pnorm rd _ | .padd rd _ _ | .pmono rd _ _ | .pmul rd _ _ | .gen rd _ => [rd]
  | .pdiv rq rr _ _ => [rq, rr]
  | .srd _ | .finit _ | .fadd _ _ | .fmul _ _ | .finv _ | .fexp _ | .flog _ | .prdl _ | .prdc _ _ => []
  | .rchk _ | .econ _ | .enc _ | .dclr | .dpush _ | .drdl | .drd _ | .crdl | .crd _ => []

/-- The bytes a command stores when it completes in state s: how many bytes from index 0 of each space (R26, R50), or
for the two appending commands the one byte at the length register. Every other byte of memory stays. -/
def storesTo (i : Instr) (s : State) (sp : Space) (a : Nat) : Bool :=
  match i, sp with
  | .finit _, .exp => decide (a < 510)
  | .finit _, .log => decide (1 ≤ a ∧ a < 256)
  | .ppush rd _, .coef k => decide (k = rd ∧ a = s.p[rd].len)
  | .pmov rd ra, .coef k => decide (k = rd ∧ a < (s.poly ra).length)
  | .pnorm rd ra, .coef k => decide (k = rd ∧ a < (pNorm (s.poly ra)).length)
  | .padd rd ra rb, .coef k => decide (k = rd ∧ a < (pAdd (s.poly ra) (s.poly rb)).length)
  | .pmono rd _ n, .coef k => decide (k = rd ∧ a < n.toNat + 1)
  | .pmul rd ra rb, .coef k => decide (k = rd ∧ a < (pMul s.tbl (s.poly ra) (s.poly rb)).length)
  | .pdiv rq rr ra rb, .coef k =>
    match pDiv s.tbl (s.poly ra) (s.poly rb) with
    | none => false
    | some (q, r) => decide (k = rq ∧ a < q.length ∨ k = rr ∧ a < r.length)
  | .gen rd e, .coef k => decide (k = rd ∧ a < e.toNat + 1)
  | .rchk c, .cbuf => decide (a < c.toNat)
  | .econ c, .glog => decide (a < c.toNat + 1)
  | .enc n, .cbuf => decide (a < n.toNat)
  | .enc n, .scr => decide (n.toNat ≠ 0 ∧ a < s.dbuf.value.length + n.toNat)
  | .dpush _, .dbuf => decide (a = s.dbuf.len)
  | _, _ => false

/-! ## The opcode map of R74 as data -/

/-- A row of R74: mnemonic, match and mask. -/
structure OpcodeRow where
  mnemonic : String
  matchWord : Word
  mask : Word
  deriving DecidableEq, Repr

/-- The twenty-seven rows of R74, first part. -/
def opcodeRowsA : List OpcodeRow :=
  [⟨"SRD", 0x01000000, 0xFFFF0000⟩, ⟨"FINIT", 0x10000000, 0xFFFF0000⟩, ⟨"FADD", 0x11000000, 0xFFFF0000⟩,
   ⟨"FMUL", 0x12000000, 0xFFFF0000⟩, ⟨"FINV", 0x13000000, 0xFFFFFF00⟩, ⟨"FEXP", 0x14000000, 0xFFFF0000⟩,
   ⟨"FLOG", 0x15000000, 0xFFFFFF00⟩, ⟨"PCLR", 0x20000000, 0xFF1FFFFF⟩, ⟨"PPUSH", 0x21000000, 0xFF1FFF00⟩,
   ⟨"PRDL", 0x22000000, 0xFF1FFFFF⟩, ⟨"PRDC", 0x23000000, 0xFF1F0000⟩, ⟨"PMOV", 0x24000000, 0xFF03FFFF⟩,
   ⟨"PNORM", 0x25000000, 0xFF03FFFF⟩, ⟨"PADD", 0x26000000, 0xFF007FFF⟩]

/-- The twenty-seven rows of R74, second part. -/
def opcodeRowsB : List OpcodeRow :=
  [⟨"PMUL", 0x27000000, 0xFF007FFF⟩, ⟨"PDIV", 0x28000000, 0xFF000FFF⟩, ⟨"PMONO", 0x30000000, 0xF8000000⟩,
   ⟨"GEN", 0x40000000, 0xFF1F0000⟩, ⟨"RCHK", 0x41000000, 0xFFFF0000⟩, ⟨"ECON", 0x48000000, 0xFFFF0000⟩,
   ⟨"ENC", 0x49000000, 0xFFFF0000⟩, ⟨"DCLR", 0x50000000, 0xFFFFFFFF⟩, ⟨"DPUSH", 0x51000000, 0xFFFFFF00⟩,
   ⟨"DRDL", 0x52000000, 0xFFFFFFFF⟩, ⟨"DRD", 0x53000000, 0xFFFF0000⟩, ⟨"CRDL", 0x54000000, 0xFFFFFFFF⟩,
   ⟨"CRD", 0x55000000, 0xFFFF0000⟩]

/-- All rows of R74, in its order. -/
def opcodeRows : List OpcodeRow := opcodeRowsA ++ opcodeRowsB

/-! ## Reference notions -/

/-- No trailing zero coefficient (R25). -/
def Normalized (p : List Byte) : Prop := p.getLast? ≠ some 0

/-- The coefficient of x^k of a product, from the coefficients of its factors: the sum over i + j = k. -/
def convolution (t : Tables) (x y : List Byte) (k : Nat) : Byte :=
  ((List.range (k + 1)).map fun i => gfMul t (coef x i) (coef y (k - i))).foldl (· ^^^ ·) 0

/-- The value at the point `a` of a polynomial in ascending degree. -/
def evalAt (t : Tables) (p : List Byte) (a : Byte) : Byte := p.foldr (fun c acc => c ^^^ gfMul t a acc) 0

/-- The product of two polynomials over GF(2), bit i of a number being the coefficient of x^i, for a factor x of at
most eight bits. -/
def gf2Product (x y : Nat) : Nat :=
  (List.range 8).foldl (fun acc i => if x.testBit i then acc ^^^ (y * 2 ^ i) else acc) 0

/-- The remainder of a polynomial over GF(2) of at most fifteen bits modulo one of degree 8: bits 14 down to 8 are
cleared in turn. -/
def gf2Reduce (poly v : Nat) : Nat :=
  (List.range 7).foldl (fun acc i => if acc.testBit (14 - i) then acc ^^^ (poly * 2 ^ (6 - i)) else acc) v

/-- The sixteen polynomials of R116. -/
def primitivePolynomials : List Nat :=
  [0x11D, 0x12B, 0x12D, 0x14D, 0x15F, 0x163, 0x165, 0x169, 0x171, 0x187, 0x18D, 0x1A9, 0x1C3, 0x1CF, 0x1E7, 0x1F5]

end Sys2Proof.Machine
end

