-- ==== Sys2Proof/Certificates/Slice0/Obligations.lean ====
section
/-! DEFINITION. The statements for the provers. `s.answered v` is s with one more response, of status 0 and value v;
`s.failed k` is what a failure of code k leaves (Sys2Proof/Safety.lean). An equation `exec i s = .next t` says the
result and the frame at once: every field that t does not name is that of s. -/

open Sys2Proof Sys2Proof.Machine

/-! ## Words and commands -/

/-- Words written out from the encodings of R72 and R74, at least one of each of the eleven formats, decode to their
commands; three illegal words decode to none. -/
def Obligations.SampleWordsDecodeToTheirCommands : Prop :=
  decode 0x01000002 = some (.srd 2) ∧ decode 0x1000011D = some (.finit 0x11D) ∧
  decode 0x110053CA = some (.fadd 0x53 0xCA) ∧ decode 0x1400FFFF = some (.fexp 0xFFFF) ∧
  decode 0x13000002 = some (.finv 2) ∧ decode 0x20E00000 = some (.pclr 7) ∧
  decode 0x24200000 = some (.pmov 1 0) ∧ decode 0x26408000 = some (.padd 2 0 1) ∧
  decode 0x212000AB = some (.ppush 1 0xAB) ∧ decode 0x284C1000 = some (.pdiv 2 3 0 1) ∧
  decode 0x341D0003 = some (.pmono 4 0x1D 3) ∧ decode 0x40A00008 = some (.gen 5 8) ∧
  decode 0x4900000A = some (.enc 10) ∧ decode 0x50000000 = some .dclr ∧
  decode 0x28241000 = none ∧ decode 0x13000100 = none ∧ decode 0x00000000 = none

/-- Decoding the word of a command gives the command back, with every operand. -/
def Obligations.DecodeOfEncodeIsTheCommand : Prop :=
  ∀ i : Instr, WellFormed i → decode (encode i) = some i

/-- A word that decodes is the word of what it decodes to, which is a command: no two words are one command, and every
bit of the word is an operand bit, an opcode bit, or a must-be-zero bit that was tested. -/
def Obligations.EncodeOfDecodeIsTheWord : Prop :=
  ∀ (w : Word) (i : Instr), decode w = some i → WellFormed i ∧ encode i = w

/-- R74, R75, R79: a word is the command of a row exactly when it matches the row and, for PDIV, names two
destinations. -/
def Obligations.DecodeFollowsTheOpcodeMap : Prop :=
  ∀ (w : Word) (m : String), (decode w).map mnemonic = some m ↔
    ∃ row ∈ opcodeRows, row.mnemonic = m ∧ w &&& row.mask = row.matchWord ∧ (m = "PDIV" → r1 w ≠ r2 w)

/-- R78: every word of an unassigned opcode is illegal, whatever the other bits, the all-zero word and the all-ones word
among them. -/
def Obligations.UnassignedOpcodesAreIllegal : Prop :=
  (∀ w : Word,
    bits w 31 24 ∉ [0x01, 0x10, 0x11, 0x12, 0x13, 0x14, 0x15, 0x20, 0x21, 0x22, 0x23, 0x24, 0x25, 0x26, 0x27, 0x28,
      0x30, 0x31, 0x32, 0x33, 0x34, 0x35, 0x36, 0x37, 0x40, 0x41, 0x48, 0x49, 0x50, 0x51, 0x52, 0x53, 0x54, 0x55] →
    decode w = none) ∧
  decode 0x00000000 = none ∧ decode 0xFFFFFFFF = none

/-- R79: a PDIV word that sends quotient and remainder to one register is illegal, although it matches the row's mask;
every other coincidence of register operands is legal. -/
def Obligations.PdivToOneRegisterIsIllegal : Prop :=
  (∀ w : Word, w &&& 0xFF000FFF = 0x28000000 → r1 w = r2 w → decode w = none) ∧
  (∀ rq rr ra rb : Reg, rq ≠ rr → decode (encode (.pdiv rq rr ra rb)) = some (.pdiv rq rr ra rb)) ∧
  (∀ rd ra rb : Reg, decode (encode (.padd rd ra rb)) = some (.padd rd ra rb) ∧
    decode (encode (.pmul rd ra rb)) = some (.pmul rd ra rb) ∧
    decode (encode (.pmov rd ra)) = some (.pmov rd ra) ∧ decode (encode (.pnorm rd ra)) = some (.pnorm rd ra))

/-! ## Steps -/

/-- A step with a command word at the port whose bits decode to i is the execution of i, the word taken. That the port
is a list of events in the state is the model's choice (log 2). -/
def Obligations.StepRunsTheDecodedCommand : Prop :=
  ∀ (s : State) (w : Word) (rest : List HostEvent) (i : Instr),
    s.inbox = .command w :: rest → decode w = some i → step s = exec i { s with inbox := rest }

/-- R75: a word that is no command raises `illegal-command`, code 8, and changes no state but FAULTS, in every state. The
port as a list is the model's choice (log 2). -/
def Obligations.IllegalWordRaisesIllegalCommand : Prop :=
  ∀ (s : State) (w : Word) (rest : List HostEvent),
    s.inbox = .command w :: rest → decode w = none → step s = .next ({ s with inbox := rest }.failed 8)

/-- R243: with nothing at the ports the unit is idle and its state unchanged. That a step with nothing at the ports
exists is the model's choice (log 2). -/
def Obligations.IdleUnitKeepsItsState : Prop :=
  ∀ s : State, s.inbox = [] → step s = .next s

/-- R260, R36: `rst` puts every state element at its reset value, answers nothing, and keeps the capacities. That `rst`
is an event of its own in the host's stream is the model's choice (log 3). -/
def Obligations.RstPutsEveryElementAtItsResetValue : Prop :=
  ∀ (s : State) (rest : List HostEvent), s.inbox = .rst :: rest →
    ∃ t, step s = .next t ∧ t.fvalid = false ∧ t.evalid = false ∧ t.checkCount = 0 ∧
      (∀ k : Reg, t.p[k].len = 0) ∧ t.dbuf.len = 0 ∧ t.cbuf.len = 0 ∧ t.scrHwm = 0 ∧ t.faults = 0 ∧
      t.params = s.params ∧ t.inbox = rest ∧ t.rsps = s.rsps

/-- R36: the values after reset. -/
def Obligations.ResetLeavesTheValuesOfTheTable : Prop :=
  State.reset.fvalid = false ∧ (∀ k : Reg, State.reset.p[k].len = 0 ∧ State.reset.poly k = []) ∧
  State.reset.dbuf.len = 0 ∧ State.reset.cbuf.len = 0 ∧ State.reset.evalid = false ∧
  State.reset.checkCount = 0 ∧ State.reset.scrHwm = 0 ∧ State.reset.faults = 0x0000

/-- The state after reset is a good state. -/
def Obligations.ResetStateIsGood : Prop := State.reset.Inv

/-- Every step from a good state leaves a good state: the stores keep their form, FVALID = 1 implies valid tables, EVALID
= 1 implies an encoder of the current field, and the reserved bits of FAULTS read 0. -/
def Obligations.EveryStepKeepsTheInvariant : Prop :=
  ∀ s t : State, s.Inv → step s = .next t → t.Inv

/-- 93_implementation_defined.md part 1, R20: every command word in every state has a next state; nothing stops the
unit. That a state with nothing at the ports has a next state is the model's choice (log 2), and so is `rst` as an event
that a step takes (log 3). -/
def Obligations.NothingStopsTheUnit : Prop := ∀ s : State, ∃ t, step s = .next t

/-- R70, R76: exactly one response follows each accepted command; its bits 23 to 16 are zero and its status is 0 or a
fault code of R230 or R231. The port as a list is the model's choice (log 2). -/
def Obligations.EveryCommandGetsOneResponse : Prop :=
  ∀ (s : State) (w : Word) (rest : List HostEvent), s.inbox = .command w :: rest →
    ∃ t r, step s = .next t ∧ t.inbox = rest ∧ Responded s t r ∧ bits r 23 16 = 0 ∧
      bits r 31 24 ∈ [0, 1, 2, 3, 4, 5, 8, 9, 10, 11, 12]

/-- R233: a command whose response has the nonzero status k leaves k << 24 as the response, sets bit k of FAULTS, and
changes nothing else; the unit goes on. -/
def Obligations.FailingCommandChangesOnlyFaults : Prop :=
  ∀ (s t : State) (w : Word) (rest : List HostEvent) (r : Word), s.inbox = .command w :: rest →
    step s = .next t → Responded s t r → bits r 31 24 ≠ 0 → t = { s with inbox := rest }.failed (bits r 31 24)

/-! ## The Field block -/

/-- R106: FINIT tests the range, then builds, and writes only when both tests have passed. -/
def Obligations.FinitFollowsItsRule : Prop :=
  ∀ (s : State) (poly : Half),
    (encode (.finit poly)).toNat = 0x10000000 + poly.toNat ∧
    (poly.toNat < 256 ∨ 512 ≤ poly.toNat → exec (.finit poly) s = .next (s.failed 1)) ∧
    (256 ≤ poly.toNat → poly.toNat < 512 → buildTables poly.toNat = none →
      exec (.finit poly) s = .next (s.failed 2)) ∧
    (∀ t, 256 ≤ poly.toNat → poly.toNat < 512 → buildTables poly.toNat = some t →
      exec (.finit poly) s =
        .next ({ s with tbl := t, fvalid := true, evalid := false, checkCount := 0 }.answered 0))

/-- R116: FINIT completes for exactly sixteen polynomials and answers `reducible-polynomial` for the other 240 in range,
of which the odd ones fail inside the loop and the even ones at the final test. -/
def Obligations.FinitAcceptsExactlySixteenPolynomials : Prop :=
  (∀ (s : State) (poly : Half), poly.toNat ∈ primitivePolynomials →
    ∃ t, exec (.finit poly) s =
      .next ({ s with tbl := t, fvalid := true, evalid := false, checkCount := 0 }.answered 0)) ∧
  (∀ (s : State) (poly : Half), 256 ≤ poly.toNat → poly.toNat < 512 → poly.toNat ∉ primitivePolynomials →
    exec (.finit poly) s = .next (s.failed 2) ∧
    (buildLoop poly.toNat 255 0 { x := 1, exp := List.replicate 510 0, log := List.replicate 256 0 } = none ↔
      poly.toNat % 2 = 1)) ∧
  primitivePolynomials.length = 16 ∧ primitivePolynomials.Nodup ∧
  ((List.range' 256 256).filter fun p => p % 2 = 1 ∧ p ∉ primitivePolynomials).length = 112 ∧
  ((List.range' 256 256).filter fun p => p % 2 = 0 ∧ p ∉ primitivePolynomials).length = 128

/-- R22: while FVALID = 1 the tables are the powers of 2 of one polynomial, twice over, and LOG is the inverse. -/
def Obligations.TablesHoldThePowersOfTwo : Prop :=
  ∀ s : State, s.Inv → s.fvalid = true → ∃ poly, 256 ≤ poly ∧ poly < 512 ∧
    s.tbl.expAt 0 = 1 ∧
    (∀ i, i < 254 → (s.tbl.expAt (i + 1)).toNat = xtime poly (s.tbl.expAt i).toNat) ∧
    (∀ i, i < 255 → s.tbl.expAt (i + 255) = s.tbl.expAt i) ∧
    (∀ i, i < 255 → s.tbl.logAt (s.tbl.expAt i) = i) ∧
    (∀ i, i < 510 → s.tbl.expAt i ≠ 0) ∧
    (∀ x : Byte, x ≠ 0 → s.tbl.logAt x ≤ 254 ∧ s.tbl.expAt (s.tbl.logAt x) = x)

/-- R113: the field algebra, in every good state with FVALID = 1. -/
def Obligations.FieldAlgebraHolds : Prop :=
  ∀ s : State, s.Inv → s.fvalid = true → ∀ x y z : Byte,
    gfAdd x y = gfAdd y x ∧ gfAdd x 0 = x ∧ gfAdd x x = 0 ∧
    (x ≠ 0 → gfMul s.tbl x (gfInv s.tbl x) = 1) ∧
    (x ≠ 0 → gfExp s.tbl (gfLog s.tbl x) = x) ∧
    (∀ e : Int, 0 ≤ e → e < 255 → gfLog s.tbl (gfExp s.tbl e) = e) ∧
    gfMul s.tbl x (gfAdd y z) = gfAdd (gfMul s.tbl x y) (gfMul s.tbl x z)

/-- R114: the product of two bytes is their product as polynomials over GF(2), reduced modulo the field polynomial, and
what follows from it. -/
def Obligations.FieldProductIsTheReducedProduct : Prop :=
  ∀ s : State, s.Inv → s.fvalid = true → ∃ poly, 256 ≤ poly ∧ poly < 512 ∧ buildTables poly = some s.tbl ∧
    ∀ x y z : Byte,
      (gfMul s.tbl x y).toNat = gf2Reduce poly (gf2Product x.toNat y.toNat) ∧
      gfMul s.tbl x y = gfMul s.tbl y x ∧
      gfMul s.tbl (gfMul s.tbl x y) z = gfMul s.tbl x (gfMul s.tbl y z) ∧
      gfMul s.tbl 1 x = x ∧ gfMul s.tbl x 1 = x ∧
      (gfMul s.tbl x y = 0 → x = 0 ∨ y = 0) ∧
      (gfMul s.tbl 2 x).toNat = xtime poly x.toNat ∧
      (∀ e : Int, 0 ≤ e → gfExp s.tbl e = gfExp s.tbl (e + 255)) ∧
      gfInv s.tbl (gfInv s.tbl x) = x ∧
      (x ≠ 0 → y ≠ 0 → gfExp s.tbl ((s.tbl.logAt x : Int) + (s.tbl.logAt y : Int)) = gfMul s.tbl x y)

/-- R107 to R111: the five scalar commands answer their function's value and write nothing; without a field they answer
`field-not-ready`. -/
def Obligations.FieldCommandsFollowTheirRules : Prop :=
  ∀ (s : State) (x y : Byte) (e : Half),
    ((encode (.fadd x y)).toNat = 0x11000000 + 256 * x.toNat + y.toNat ∧
     (encode (.fmul x y)).toNat = 0x12000000 + 256 * x.toNat + y.toNat ∧
     (encode (.finv x)).toNat = 0x13000000 + x.toNat ∧
     (encode (.fexp e)).toNat = 0x14000000 + e.toNat ∧
     (encode (.flog x)).toNat = 0x15000000 + x.toNat) ∧
    (s.fvalid = false →
      exec (.fadd x y) s = .next (s.failed 9) ∧ exec (.fmul x y) s = .next (s.failed 9) ∧
      exec (.finv x) s = .next (s.failed 9) ∧ exec (.fexp e) s = .next (s.failed 9) ∧
      exec (.flog x) s = .next (s.failed 9)) ∧
    (s.fvalid = true →
      exec (.fadd x y) s = .next (s.answered (x ^^^ y).toNat) ∧
      exec (.fmul x y) s = .next (s.answered
        (if x = 0 ∨ y = 0 then 0 else (s.tbl.expAt (s.tbl.logAt x + s.tbl.logAt y)).toNat)) ∧
      exec (.finv x) s = .next (s.answered (if x = 0 then 0 else (s.tbl.expAt (255 - s.tbl.logAt x)).toNat)) ∧
      exec (.fexp e) s = .next (s.answered (if e.toInt < 0 then 0 else (s.tbl.expAt (e.toNat % 255)).toNat)) ∧
      exec (.flog x) s = .next (s.answered (if x = 0 then 0xFFFF else s.tbl.logAt x)))

/-! ## The polynomial block -/

/-- R135 to R139: the commands that load, copy and read the polynomial registers, with or without a field. That the
bytes of COEF at or beyond a new length stay, which `setPoly` says, is the model's choice (log 4). -/
def Obligations.LoadCommandsFollowTheirRules : Prop :=
  ∀ (s : State) (rd ra : Reg) (b : Byte) (i : Half), s.Inv →
    ((encode (.pclr rd)).toNat = 0x20000000 + rd.val * 2 ^ 21 ∧
     (encode (.ppush rd b)).toNat = 0x21000000 + rd.val * 2 ^ 21 + b.toNat ∧
     (encode (.prdl ra)).toNat = 0x22000000 + ra.val * 2 ^ 21 ∧
     (encode (.prdc ra i)).toNat = 0x23000000 + ra.val * 2 ^ 21 + i.toNat ∧
     (encode (.pmov rd ra)).toNat = 0x24000000 + rd.val * 2 ^ 21 + ra.val * 2 ^ 18) ∧
    exec (.pclr rd) s = .next ((s.setPoly rd []).answered 0) ∧
    ((s.poly rd).length = s.params.pcap → exec (.ppush rd b) s = .next (s.failed 11)) ∧
    ((s.poly rd).length < s.params.pcap →
      exec (.ppush rd b) s = .next ((s.setPoly rd (s.poly rd ++ [b])).answered 0)) ∧
    exec (.prdl ra) s = .next (s.answered (s.poly ra).length) ∧
    ((s.poly ra).length ≤ i.toNat → exec (.prdc ra i) s = .next (s.failed 12)) ∧
    (∀ c, (s.poly ra)[i.toNat]? = some c → exec (.prdc ra i) s = .next (s.answered c.toNat)) ∧
    exec (.pmov rd ra) s = .next ((s.setPoly rd (s.poly ra)).answered 0)

/-- R140 to R143: normalize, add, build a monomial, multiply. That the bytes of COEF at or beyond a new length stay,
which `setPoly` says, is the model's choice (log 4). -/
def Obligations.AlgebraCommandsFollowTheirRules : Prop :=
  ∀ (s : State) (rd ra rb : Reg) (c : Byte) (n : Half),
    ((encode (.pnorm rd ra)).toNat = 0x25000000 + rd.val * 2 ^ 21 + ra.val * 2 ^ 18 ∧
     (encode (.padd rd ra rb)).toNat = 0x26000000 + rd.val * 2 ^ 21 + ra.val * 2 ^ 18 + rb.val * 2 ^ 15 ∧
     (encode (.pmono rd c n)).toNat = 0x30000000 + rd.val * 2 ^ 24 + c.toNat * 2 ^ 16 + n.toNat ∧
     (encode (.pmul rd ra rb)).toNat = 0x27000000 + rd.val * 2 ^ 21 + ra.val * 2 ^ 18 + rb.val * 2 ^ 15) ∧
    (s.fvalid = false →
      exec (.pnorm rd ra) s = .next (s.failed 9) ∧ exec (.padd rd ra rb) s = .next (s.failed 9) ∧
      exec (.pmono rd c n) s = .next (s.failed 9) ∧ exec (.pmul rd ra rb) s = .next (s.failed 9)) ∧
    (s.fvalid = true →
      exec (.pnorm rd ra) s = .next ((s.setPoly rd (pNorm (s.poly ra))).answered 0) ∧
      exec (.padd rd ra rb) s = .next ((s.setPoly rd (pAdd (s.poly ra) (s.poly rb))).answered 0) ∧
      (s.params.pcap < n.toNat + 1 → exec (.pmono rd c n) s = .next (s.failed 11)) ∧
      (n.toNat + 1 ≤ s.params.pcap → exec (.pmono rd c n) s = .next ((s.setPoly rd (zeros n.toNat ++ [c])).answered 0)) ∧
      (s.poly ra ≠ [] → s.poly rb ≠ [] → s.params.pcap < (s.poly ra).length + (s.poly rb).length - 1 →
        exec (.pmul rd ra rb) s = .next (s.failed 11)) ∧
      (s.poly ra = [] ∨ s.poly rb = [] ∨ (s.poly ra).length + (s.poly rb).length - 1 ≤ s.params.pcap →
        exec (.pmul rd ra rb) s = .next ((s.setPoly rd (pMul s.tbl (s.poly ra) (s.poly rb))).answered 0)))

/-- R144: division with remainder. The first test is the decoder's in R144 and R79; that it stands in the execution too is
the model's choice (log 9); that the bytes of COEF at or beyond a new length stay, which `setPoly` says, is log 4. -/
def Obligations.PdivFollowsItsRule : Prop :=
  ∀ (s : State) (rq rr ra rb : Reg),
    (encode (.pdiv rq rr ra rb)).toNat =
      0x28000000 + rq.val * 2 ^ 21 + rr.val * 2 ^ 18 + ra.val * 2 ^ 15 + rb.val * 2 ^ 12 ∧
    (rq = rr → exec (.pdiv rq rr ra rb) s = .next (s.failed 8)) ∧
    (rq ≠ rr → s.fvalid = false → exec (.pdiv rq rr ra rb) s = .next (s.failed 9)) ∧
    (rq ≠ rr → s.fvalid = true → pNorm (s.poly rb) = [] → exec (.pdiv rq rr ra rb) s = .next (s.failed 3)) ∧
    (rq ≠ rr → s.fvalid = true → pNorm (s.poly rb) ≠ [] →
      ∃ q r, pDiv s.tbl (s.poly ra) (s.poly rb) = some (q, r) ∧
        exec (.pdiv rq rr ra rb) s = .next (((s.setPoly rq q).setPoly rr r).answered 0))

/-- R130: `p_norm` strips the trailing zeros, keeps every coefficient, and is idempotent. -/
def Obligations.NormalizeStripsTrailingZeros : Prop :=
  ∀ p : List Byte, Normalized (pNorm p) ∧ (∃ n, pNorm p = p.take n) ∧ (∀ i, coef (pNorm p) i = coef p i) ∧
    pNorm (pNorm p) = pNorm p ∧ (pNorm p = [] ↔ ∀ b ∈ p, b = 0)

/-- R131: `p_add` is the XOR of the coefficients, normalized; it commutes, and x + x is the zero polynomial. -/
def Obligations.AddIsTheXorOfTheCoefficients : Prop :=
  ∀ x y : List Byte, (∀ i, coef (pAdd x y) i = coef x i ^^^ coef y i) ∧ Normalized (pAdd x y) ∧
    pAdd x y = pAdd y x ∧ pAdd x x = [] ∧ pAdd x [] = pNorm x

/-- R133: `p_mul` is the full convolution, of length len(x) + len(y) - 1, or empty when an operand is. -/
def Obligations.MultiplyIsTheConvolution : Prop :=
  ∀ (t : Tables) (x y : List Byte), (x = [] ∨ y = [] → pMul t x y = []) ∧
    (x ≠ [] → y ≠ [] → (pMul t x y).length = x.length + y.length - 1 ∧
      ∀ k, coef (pMul t x y) k = convolution t x y k)

/-- R145: the division identity, up to normalization of the dividend, with a remainder shorter than the normalized
divisor. -/
def Obligations.DivisionIdentityHolds : Prop :=
  ∀ s : State, s.Inv → s.fvalid = true → ∀ P Q : List Byte, pNorm Q ≠ [] →
    ∃ q r, pDiv s.tbl P Q = some (q, r) ∧ pAdd (pMul s.tbl q Q) r = pNorm P ∧ r.length < (pNorm Q).length

/-- R146: the length of the quotient, both results normalized, and n - m + 1 passes of the loop are enough, so the bound
on the passes that the model puts in (log 7) is never reached early. -/
def Obligations.DivisionTerminatesWithinItsBound : Prop :=
  ∀ s : State, s.Inv → s.fvalid = true → ∀ x y q r : List Byte, pDiv s.tbl x y = some (q, r) →
    q.length = (if (pNorm y).length ≤ (pNorm x).length then (pNorm x).length - (pNorm y).length + 1 else 0) ∧
    Normalized q ∧ Normalized r ∧
    ∀ fuel, (pNorm x).length + 1 - (pNorm y).length ≤ fuel →
      divLoop s.tbl (pNorm y) fuel ([], pNorm x) = (q, r)

/-- R147: the product of two normalized nonzero polynomials is normalized, and so is every generator. -/
def Obligations.ProductsOfNormalizedAreNormalized : Prop :=
  ∀ s : State, s.Inv → s.fvalid = true →
    (∀ x y : List Byte, x ≠ [] → y ≠ [] → Normalized x → Normalized y →
      Normalized (pMul s.tbl x y) ∧ (pMul s.tbl x y).length = x.length + y.length - 1) ∧
    (∀ e, Normalized (gen s.tbl e))

/-! ## The generator block -/

/-- R173: GEN. That the bytes of COEF at or beyond the new length stay, which `setPoly` says, is the model's choice
(log 4). -/
def Obligations.GenFollowsItsRule : Prop :=
  ∀ (s : State) (rd : Reg) (e : Half),
    (encode (.gen rd e)).toNat = 0x40000000 + rd.val * 2 ^ 21 + e.toNat ∧
    (s.fvalid = false → exec (.gen rd e) s = .next (s.failed 9)) ∧
    (s.fvalid = true → s.params.pcap < e.toNat + 1 → exec (.gen rd e) s = .next (s.failed 11)) ∧
    (s.fvalid = true → e.toNat + 1 ≤ s.params.pcap →
      exec (.gen rd e) s = .next ((s.setPoly rd (gen s.tbl e.toNat)).answered 0))

/-- R171: the generator of degree e has length e + 1, is monic, has the stated constant term, and vanishes at the first
e powers of 2, which are distinct for e <= 255. -/
def Obligations.GeneratorHasItsRoots : Prop :=
  ∀ s : State, s.Inv → s.fvalid = true → ∀ e : Nat,
    (gen s.tbl e).length = e + 1 ∧ coef (gen s.tbl e) e = 1 ∧
    coef (gen s.tbl e) 0 = gfExp s.tbl ((e * (e - 1) / 2 : Nat) : Int) ∧
    (∀ i : Nat, i < e → evalAt s.tbl (gen s.tbl e) (gfExp s.tbl (i : Int)) = 0) ∧
    (e ≤ 255 → ∀ i j : Nat, i < j → j < e → gfExp s.tbl (i : Int) ≠ gfExp s.tbl (j : Int))

/-- R174: RCHK. The stored bytes are those at indices 0 to c - 1 of CBUF; that the bytes beyond them stay when c > 0 is
the model's choice (log 4). -/
def Obligations.RchkFollowsItsRule : Prop :=
  ∀ (s : State) (c : Half),
    (encode (.rchk c)).toNat = 0x41000000 + c.toNat ∧
    (s.fvalid = false → exec (.rchk c) s = .next (s.failed 9)) ∧
    (s.fvalid = true → s.params.ccap < c.toNat → exec (.rchk c) s = .next (s.failed 11)) ∧
    (s.fvalid = true → c.toNat ≤ s.params.ccap → c.toNat = 0 →
      exec (.rchk c) s = .next ({ s with cbuf := { s.cbuf with len := 0 } }.answered 0)) ∧
    (s.fvalid = true → c.toNat ≤ s.params.ccap → c.toNat ≠ 0 →
      exec (.rchk c) s = .next ({ s with
        cbuf :=
          { len := c.toNat
            bytes := refCheck s.tbl s.dbuf.value c.toNat ++ s.cbuf.bytes.drop c.toNat } }.answered 0))

/-- R175: the check bytes make the codeword a multiple of the generator, so it vanishes at 2^0, ..., 2^(c-1); they are
linear in the data. -/
def Obligations.CodewordIsAMultipleOfTheGenerator : Prop :=
  ∀ s : State, s.Inv → s.fvalid = true → ∀ (data : List Byte) (c : Nat), 1 ≤ c →
    (refCheck s.tbl data c).length = c ∧
    (∃ q, pDiv s.tbl (data ++ refCheck s.tbl data c).reverse (gen s.tbl c) = some (q, [])) ∧
    (∀ i : Nat, i < c →
      evalAt s.tbl (data ++ refCheck s.tbl data c).reverse (gfExp s.tbl (i : Int)) = 0) ∧
    (∃ q, pDiv s.tbl (pMul s.tbl data.reverse (pMono 1 c)) (gen s.tbl c) =
      some (q, pNorm (refCheck s.tbl data c).reverse)) ∧
    (∀ data' : List Byte, data'.length = data.length →
      refCheck s.tbl (List.zipWith (· ^^^ ·) data data') c =
        List.zipWith (· ^^^ ·) (refCheck s.tbl data c) (refCheck s.tbl data' c))

/-! ## The encoder -/

/-- R192: ECON. GLOG gets the logs of the generator's coefficients in descending degree; a zero coefficient is
`internal-consistency`. That the bytes of GLOG beyond index c stay is the model's choice (log 4). -/
def Obligations.EconFollowsItsRule : Prop :=
  ∀ (s : State) (c : Half),
    (encode (.econ c)).toNat = 0x48000000 + c.toNat ∧
    (s.fvalid = false → exec (.econ c) s = .next (s.failed 9)) ∧
    (s.fvalid = true → s.params.ccap < c.toNat → exec (.econ c) s = .next (s.failed 11)) ∧
    (s.fvalid = true → c.toNat ≤ s.params.ccap → (∃ k, k ≤ c.toNat ∧ coef (gen s.tbl c.toNat) k = 0) →
      exec (.econ c) s = .next (s.failed 5)) ∧
    (s.fvalid = true → c.toNat ≤ s.params.ccap → (∀ k, k ≤ c.toNat → coef (gen s.tbl c.toNat) k ≠ 0) →
      exec (.econ c) s = .next ({ s with
        glog :=
          (List.range (c.toNat + 1)).map (fun j => s.tbl.logByte (coef (gen s.tbl c.toNat) (c.toNat - j))) ++
            s.glog.drop (c.toNat + 1)
        checkCount := c.toNat
        evalid := true }.answered 0))

/-- R193: ENC. The scratch result is stored from index 0 of SCR and its last c bytes from index 0 of CBUF. The bytes of
SCR beyond it stay, as R193 says; that those of CBUF beyond index c - 1 stay is the model's choice (log 4). -/
def Obligations.EncFollowsItsRule : Prop :=
  ∀ (s : State) (n : Half), s.Inv →
    (encode (.enc n)).toNat = 0x49000000 + n.toNat ∧
    (s.fvalid = false → exec (.enc n) s = .next (s.failed 9)) ∧
    (s.fvalid = true → s.evalid = false → exec (.enc n) s = .next (s.failed 10)) ∧
    (s.evalid = true → n.toNat ≠ s.checkCount → exec (.enc n) s = .next (s.failed 4)) ∧
    (s.evalid = true → n.toNat = s.checkCount → s.checkCount = 0 →
      exec (.enc n) s = .next ({ s with cbuf := { s.cbuf with len := 0 } }.answered 0)) ∧
    (s.evalid = true → n.toNat = s.checkCount → s.checkCount ≠ 0 →
      ∃ scratch, scratch = encEncode s.tbl (s.glog.take (s.checkCount + 1)) s.checkCount s.dbuf.value ∧
        exec (.enc n) s = .next ({ s with
          scr := scratch ++ s.scr.drop (s.dbuf.len + s.checkCount)
          scrHwm := max s.scrHwm (s.dbuf.len + s.checkCount)
          cbuf :=
            { len := s.checkCount
              bytes := scratch.drop s.dbuf.len ++ s.cbuf.bytes.drop s.checkCount } }.answered 0))

/-- R30: the encoder context while EVALID = 1. -/
def Obligations.EncoderContextHoldsTheLogs : Prop :=
  ∀ s : State, s.Inv → s.evalid = true →
    s.fvalid = true ∧
    (∀ j, j ≤ s.checkCount →
      coef (gen s.tbl s.checkCount) (s.checkCount - j) ≠ 0 ∧
      ∃ g, s.glog[j]? = some g ∧ g.toNat = s.tbl.logAt (coef (gen s.tbl s.checkCount) (s.checkCount - j)) ∧
        g.toNat ≤ 254) ∧
    s.glog[0]? = some 0

/-- R194: ENC and RCHK with the same check count leave the same CLEN and the same CBUF. -/
def Obligations.EncoderEqualsTheReference : Prop :=
  ∀ (s : State) (c : Half), s.Inv → s.evalid = true → c.toNat = s.checkCount →
    ∃ t u, exec (.enc c) s = .next t ∧ exec (.rchk c) s = .next u ∧
      t.cbuf.len = u.cbuf.len ∧ t.cbuf.value = u.cbuf.value ∧ t.cbuf.len = s.checkCount

/-- R195: what ENC leaves in CLEN and CBUF is a function of the tables, GLOG, CHECKCOUNT and DBUF alone; it does not
depend on the scratch, on its high-water mark, or on what CBUF held. -/
def Obligations.EncDoesNotLeakStaleBytes : Prop :=
  ∀ (s s' : State) (n : Half), s.Inv → s'.Inv → s.evalid = true → s'.evalid = true →
    s.tbl = s'.tbl → s.checkCount = s'.checkCount →
    s.glog.take (s.checkCount + 1) = s'.glog.take (s.checkCount + 1) → s.dbuf.value = s'.dbuf.value →
    n.toNat = s.checkCount →
    ∃ t t', exec (.enc n) s = .next t ∧ exec (.enc n) s' = .next t' ∧
      t.cbuf.len = t'.cbuf.len ∧ t.cbuf.value = t'.cbuf.value

/-- R196: with check count 0, ENC and RCHK set CLEN to 0 and do nothing else; the data is unmodified and no check byte,
scratch byte or mark is written. -/
def Obligations.ZeroCheckLengthWritesNoByte : Prop :=
  ∀ s : State, s.Inv → s.fvalid = true →
    (s.evalid = true → s.checkCount = 0 →
      ∃ t, exec (.enc 0) s = .next t ∧ t.cbuf.len = 0 ∧ t.dbuf = s.dbuf ∧ t.scrHwm = s.scrHwm ∧
        (∀ sp a, t.memRead sp a = s.memRead sp a)) ∧
    (∃ t, exec (.rchk 0) s = .next t ∧ t.cbuf.len = 0 ∧ t.dbuf = s.dbuf ∧ t.scrHwm = s.scrHwm ∧
      (∀ sp a, t.memRead sp a = s.memRead sp a))

/-- R193: after ENC with a nonzero count, SCR[0..m-1] are zero and SCR[m..m+c-1] equal CBUF: the pass over the data has
cleared every data position. -/
def Obligations.EncClearsTheDataPartOfTheScratch : Prop :=
  ∀ (s : State) (n : Half), s.Inv → s.evalid = true → n.toNat = s.checkCount → s.checkCount ≠ 0 →
    ∃ t, exec (.enc n) s = .next t ∧
      (∀ i, i < s.dbuf.len → t.memRead .scr i = some 0) ∧
      (∀ j, j < s.checkCount →
        t.memRead .scr (s.dbuf.len + j) = t.memRead .cbuf j ∧ t.cbuf.value[j]? = t.memRead .cbuf j) ∧
      t.cbuf.len = s.checkCount

/-! ## Buffers and status -/

/-- R210 to R215: the data and check buffer commands, with or without a field. DCLR clears no byte, as R210 says; that
the bytes of DBUF beyond the one DPUSH appends stay is the model's choice (log 4). -/
def Obligations.BufferCommandsFollowTheirRules : Prop :=
  ∀ (s : State) (b : Byte) (i : Half), s.Inv →
    ((encode .dclr).toNat = 0x50000000 ∧ (encode (.dpush b)).toNat = 0x51000000 + b.toNat ∧
     (encode .drdl).toNat = 0x52000000 ∧ (encode (.drd i)).toNat = 0x53000000 + i.toNat ∧
     (encode .crdl).toNat = 0x54000000 ∧ (encode (.crd i)).toNat = 0x55000000 + i.toNat) ∧
    exec .dclr s = .next ({ s with dbuf := { s.dbuf with len := 0 } }.answered 0) ∧
    (s.dbuf.len = s.params.dcap → exec (.dpush b) s = .next (s.failed 11)) ∧
    (s.dbuf.len < s.params.dcap →
      exec (.dpush b) s = .next ({ s with
        dbuf :=
          { len := s.dbuf.len + 1
            bytes := s.dbuf.value ++ [b] ++ s.dbuf.bytes.drop (s.dbuf.len + 1) } }.answered 0)) ∧
    exec .drdl s = .next (s.answered s.dbuf.len) ∧
    (s.dbuf.len ≤ i.toNat → exec (.drd i) s = .next (s.failed 12)) ∧
    (∀ c, s.dbuf.value[i.toNat]? = some c → exec (.drd i) s = .next (s.answered c.toNat)) ∧
    exec .crdl s = .next (s.answered s.cbuf.len) ∧
    (s.cbuf.len ≤ i.toNat → exec (.crd i) s = .next (s.failed 12)) ∧
    (∀ c, s.cbuf.value[i.toNat]? = some c → exec (.crd i) s = .next (s.answered c.toNat))

/-- R216: SRD reads the seven status registers; any other number is `index-out-of-range`. -/
def Obligations.SrdReadsTheStatusRegisters : Prop :=
  ∀ (s : State) (n : Half), s.Inv →
    (encode (.srd n)).toNat = 0x01000000 + n.toNat ∧
    exec (.srd 0) s = .next (s.answered ((if s.fvalid then 1 else 0) + 2 * (if s.evalid then 1 else 0))) ∧
    exec (.srd 1) s = .next (s.answered s.faults.toNat) ∧
    exec (.srd 2) s = .next (s.answered s.checkCount) ∧
    exec (.srd 3) s = .next (s.answered s.scrHwm) ∧
    exec (.srd 4) s = .next (s.answered s.params.pcap) ∧
    exec (.srd 5) s = .next (s.answered s.params.dcap) ∧
    exec (.srd 6) s = .next (s.answered s.params.ccap) ∧
    (6 < n.toNat → exec (.srd n) s = .next (s.failed 12))

/-! ## Whole-machine rules -/

/-- R234: with FVALID = 0 the fourteen commands that need the field answer `field-not-ready` and change only FAULTS,
whatever else is wrong; the other thirteen never answer it. -/
def Obligations.FieldTestComesBeforeTheOthers : Prop :=
  ∀ (s : State) (i : Instr), WellFormed i →
    (needsField i = true → s.fvalid = false → exec i s = .next (s.failed 9)) ∧
    (needsField i = false → ∀ t r, exec i s = .next t → Responded s t r → bits r 31 24 ≠ 9)

/-- R232: a command answers status 0 or one of the codes of its row. -/
def Obligations.CommandsRaiseOnlyTheirOwnFaults : Prop :=
  ∀ (s t : State) (i : Instr) (r : Word), WellFormed i → exec i s = .next t → Responded s t r →
    bits r 31 24 = 0 ∨ bits r 31 24 ∈ faultCodes i

/-- R55: a reading command or a pure field command that completes changes no state, so repeating it gives the same
response; one that fails changes only FAULTS. -/
def Obligations.ReadsHaveNoSideEffects : Prop :=
  ∀ (s t : State) (i : Instr) (r : Word), readsOnly i = true → exec i s = .next t → Responded s t r →
    (bits r 31 24 = 0 → t = { s with rsps := s.rsps ++ [r] } ∧
      ∃ u, exec i t = .next u ∧ u = { t with rsps := t.rsps ++ [r] }) ∧
    (bits r 31 24 ≠ 0 → t = { s with faults := t.faults, rsps := s.rsps ++ [r] })

/-- R21, R26 to R29, R31, R34: each part of the state is written by its own commands only, and FVALID is never cleared
by a command. -/
def Obligations.EachPartIsWrittenByItsOwnCommands : Prop :=
  ∀ (s t : State) (i : Instr), exec i s = .next t →
    t.params = s.params ∧ t.inbox = s.inbox ∧ (s.fvalid = true → t.fvalid = true) ∧
    ((∀ poly, i ≠ .finit poly) → t.tbl = s.tbl ∧ t.fvalid = s.fvalid) ∧
    (∀ k : Reg, k ∉ polyDests i → t.p[k] = s.p[k]) ∧
    (i ≠ .dclr → (∀ b, i ≠ .dpush b) → t.dbuf = s.dbuf) ∧
    ((∀ c, i ≠ .rchk c) → (∀ n, i ≠ .enc n) → t.cbuf = s.cbuf) ∧
    ((∀ poly, i ≠ .finit poly) → (∀ c, i ≠ .econ c) → t.evalid = s.evalid ∧ t.checkCount = s.checkCount) ∧
    ((∀ c, i ≠ .econ c) → t.glog = s.glog) ∧
    ((∀ n, i ≠ .enc n) → t.scr = s.scr ∧ t.scrHwm = s.scrHwm)

/-- R50 and the *Operation* clauses: every byte of every internal space is unchanged except the bytes the command
stores, which `storesTo` computes with the functions the commands store with. For the bytes of COEF, DBUF, CBUF and GLOG
at or beyond a length, which the spec calls unspecified, it is the model's choice that they stay (log 4). -/
def Obligations.EveryOtherByteOfMemoryIsUnchanged : Prop :=
  ∀ (s t : State) (i : Instr) (sp : Space) (a : Nat), s.Inv → WellFormed i → exec i s = .next t →
    storesTo i s sp a = false → t.memRead sp a = s.memRead sp a

/-- R32: FAULTS only accumulates; only reset clears it. -/
def Obligations.FaultsOnlyAccumulate : Prop :=
  ∀ (s t : State), step s = .next t → (∀ rest, s.inbox ≠ .rst :: rest) → s.faults &&& t.faults = s.faults

/-- R235: no command's behaviour depends on FAULTS: with another FAULTS a command other than SRD 1 gives the same
response and leaves every other element the same. -/
def Obligations.BehaviourDoesNotDependOnFaults : Prop :=
  ∀ (s t : State) (i : Instr) (f : BitVec 16), i ≠ .srd 1 → exec i s = .next t →
    ∃ u, exec i { s with faults := f } = .next u ∧ t = { u with faults := t.faults }

/-- R31: the scratch's high-water mark never decreases except at reset, and only ENC with a nonzero count moves it. -/
def Obligations.ScratchMarkNeverDecreases : Prop :=
  ∀ (s t : State), step s = .next t → (∀ rest, s.inbox ≠ .rst :: rest) →
    s.scrHwm ≤ t.scrHwm ∧
    (t.scrHwm ≠ s.scrHwm → ∃ w rest n, s.inbox = .command w :: rest ∧ decode w = some (.enc n) ∧ n.toNat ≠ 0 ∧
      t.scrHwm = s.dbuf.value.length + n.toNat)

/-- R37: all observable behaviour is a function of the compact view: two good states with the same view and the same
events at the ports give the same responses and the same view after a step. Stale bytes cannot be told apart. The ports
as lists are the model's choice (log 2). -/
def Obligations.BehaviourIsAFunctionOfTheCompactView : Prop :=
  ∀ s s' : State, s.Inv → s'.Inv → s.view = s'.view → s.inbox = s'.inbox →
    ∃ t t', step s = .next t ∧ step s' = .next t' ∧ t.view = t'.view ∧ t.inbox = t'.inbox ∧
      ∃ new, t.rsps = s.rsps ++ new ∧ t'.rsps = s'.rsps ++ new

/-! ## Runs of a few commands -/

/-- R83, R135, R136: PLOAD on a register leaves exactly the given coefficients in it, ascending, when they fit; every
other register keeps its value, and each of the commands answers 0. -/
def Obligations.PloadLoadsTheRegister : Prop :=
  ∀ (s : State) (rd : Reg) (cs : List Byte), s.Inv → cs.length ≤ s.params.pcap →
    ∃ t, Sys2Proof.core.run (cs.length + 1) (s.offering (pload rd cs)) = .next t ∧ t.inbox = [] ∧
      t.poly rd = cs ∧ (∀ k : Reg, k ≠ rd → t.p[k] = s.p[k]) ∧ t.dbuf = s.dbuf ∧ t.faults = s.faults ∧
      t.rsps = s.rsps ++ List.replicate (cs.length + 1) 0

/-- R83, R210, R211: DLOAD leaves exactly the given bytes in the data buffer, when they fit; the registers and the check
buffer stay, and each of the commands answers 0. -/
def Obligations.DloadLoadsTheDataBuffer : Prop :=
  ∀ (s : State) (ds : List Byte), s.Inv → ds.length ≤ s.params.dcap →
    ∃ t, Sys2Proof.core.run (ds.length + 1) (s.offering (dload ds)) = .next t ∧ t.inbox = [] ∧
      t.dbuf.value = ds ∧ t.p = s.p ∧ t.cbuf = s.cbuf ∧ t.faults = s.faults ∧
      t.rsps = s.rsps ++ List.replicate (ds.length + 1) 0

/-- R83, R137, R138, R212 to R215: PREAD, DREAD and CREAD answer the length and then the bytes in index order, and
change nothing but the two channels. -/
def Obligations.ReadingPseudoCommandsAnswerTheContents : Prop :=
  ∀ (s : State) (rs : Reg), s.Inv →
    Sys2Proof.core.run ((s.poly rs).length + 1) (s.offering (pread rs (s.poly rs).length)) =
      .next { s with
        inbox := []
        rsps := s.rsps ++ BitVec.ofNat 32 (s.poly rs).length :: (s.poly rs).map (BitVec.setWidth 32) } ∧
    Sys2Proof.core.run (s.dbuf.value.length + 1) (s.offering (dread s.dbuf.value.length)) =
      .next { s with
        inbox := []
        rsps := s.rsps ++ BitVec.ofNat 32 s.dbuf.value.length :: s.dbuf.value.map (BitVec.setWidth 32) } ∧
    Sys2Proof.core.run (s.cbuf.value.length + 1) (s.offering (cread s.cbuf.value.length)) =
      .next { s with
        inbox := []
        rsps := s.rsps ++ BitVec.ofNat 32 s.cbuf.value.length :: s.cbuf.value.map (BitVec.setWidth 32) }

/-- R175, R192, R193, R263: from any good state with a field, DLOAD of a message, ECON c and ENC c, for a count c >= 1
that fits and whose generator has no zero coefficient, leave in the check buffer the c bytes that make the codeword
vanish at 2^0, ..., 2^(c-1). -/
def Obligations.EncodingAMessageGivesACodeword : Prop :=
  ∀ (s : State) (ds : List Byte) (c : Half), s.Inv → s.fvalid = true → ds.length ≤ s.params.dcap →
    1 ≤ c.toNat → c.toNat ≤ s.params.ccap → (∀ k, k ≤ c.toNat → coef (gen s.tbl c.toNat) k ≠ 0) →
    ∃ t, Sys2Proof.core.run (ds.length + 3) (s.offering (dload ds ++ [.econ c, .enc c])) = .next t ∧
      t.dbuf.value = ds ∧ t.cbuf.value.length = c.toNat ∧ t.tbl = s.tbl ∧ t.faults = s.faults ∧
      ∀ i : Nat, i < c.toNat →
        evalAt t.tbl (t.dbuf.value ++ t.cbuf.value).reverse (gfExp t.tbl (i : Int)) = 0
end

