-- ==== Sys2Proof/Laws/State.lean ====
section
/-! SUPPORT. One lemma per field for each operation that updates State, so that no later proof unfolds a record update,
and what a register reads after a write. -/
namespace Sys2Proof.Machine

/-! ## A response leaves -/

@[simp] theorem emit_params (s : State) (r : Word) : (s.emit r).params = s.params := rfl
@[simp] theorem emit_fvalid (s : State) (r : Word) : (s.emit r).fvalid = s.fvalid := rfl
@[simp] theorem emit_tbl (s : State) (r : Word) : (s.emit r).tbl = s.tbl := rfl
@[simp] theorem emit_p (s : State) (r : Word) : (s.emit r).p = s.p := rfl
@[simp] theorem emit_dbuf (s : State) (r : Word) : (s.emit r).dbuf = s.dbuf := rfl
@[simp] theorem emit_cbuf (s : State) (r : Word) : (s.emit r).cbuf = s.cbuf := rfl
@[simp] theorem emit_evalid (s : State) (r : Word) : (s.emit r).evalid = s.evalid := rfl
@[simp] theorem emit_checkCount (s : State) (r : Word) : (s.emit r).checkCount = s.checkCount := rfl
@[simp] theorem emit_glog (s : State) (r : Word) : (s.emit r).glog = s.glog := rfl
@[simp] theorem emit_scr (s : State) (r : Word) : (s.emit r).scr = s.scr := rfl
@[simp] theorem emit_scrHwm (s : State) (r : Word) : (s.emit r).scrHwm = s.scrHwm := rfl
@[simp] theorem emit_faults (s : State) (r : Word) : (s.emit r).faults = s.faults := rfl
@[simp] theorem emit_inbox (s : State) (r : Word) : (s.emit r).inbox = s.inbox := rfl
@[simp] theorem emit_rsps (s : State) (r : Word) : (s.emit r).rsps = s.rsps ++ [r] := rfl

/-! ## A failure -/

@[simp] theorem fail_params (s : State) (f : CmdFault) : (s.fail f).params = s.params := rfl
@[simp] theorem fail_fvalid (s : State) (f : CmdFault) : (s.fail f).fvalid = s.fvalid := rfl
@[simp] theorem fail_tbl (s : State) (f : CmdFault) : (s.fail f).tbl = s.tbl := rfl
@[simp] theorem fail_p (s : State) (f : CmdFault) : (s.fail f).p = s.p := rfl
@[simp] theorem fail_dbuf (s : State) (f : CmdFault) : (s.fail f).dbuf = s.dbuf := rfl
@[simp] theorem fail_cbuf (s : State) (f : CmdFault) : (s.fail f).cbuf = s.cbuf := rfl
@[simp] theorem fail_evalid (s : State) (f : CmdFault) : (s.fail f).evalid = s.evalid := rfl
@[simp] theorem fail_checkCount (s : State) (f : CmdFault) : (s.fail f).checkCount = s.checkCount := rfl
@[simp] theorem fail_glog (s : State) (f : CmdFault) : (s.fail f).glog = s.glog := rfl
@[simp] theorem fail_scr (s : State) (f : CmdFault) : (s.fail f).scr = s.scr := rfl
@[simp] theorem fail_scrHwm (s : State) (f : CmdFault) : (s.fail f).scrHwm = s.scrHwm := rfl
@[simp] theorem fail_faults (s : State) (f : CmdFault) : (s.fail f).faults = s.faults ||| f.bit := rfl
@[simp] theorem fail_inbox (s : State) (f : CmdFault) : (s.fail f).inbox = s.inbox := rfl
@[simp] theorem fail_rsps (s : State) (f : CmdFault) : (s.fail f).rsps = s.rsps ++ [rspWord f.code 0] := rfl

/-! ## A polynomial register is written -/

@[simp] theorem setPoly_params (s : State) (k : Reg) (seq : List Byte) : (s.setPoly k seq).params = s.params := rfl
@[simp] theorem setPoly_fvalid (s : State) (k : Reg) (seq : List Byte) : (s.setPoly k seq).fvalid = s.fvalid := rfl
@[simp] theorem setPoly_tbl (s : State) (k : Reg) (seq : List Byte) : (s.setPoly k seq).tbl = s.tbl := rfl
@[simp] theorem setPoly_p (s : State) (k : Reg) (seq : List Byte) : (s.setPoly k seq).p = s.p.set k (s.p[k].write seq) := rfl
@[simp] theorem setPoly_dbuf (s : State) (k : Reg) (seq : List Byte) : (s.setPoly k seq).dbuf = s.dbuf := rfl
@[simp] theorem setPoly_cbuf (s : State) (k : Reg) (seq : List Byte) : (s.setPoly k seq).cbuf = s.cbuf := rfl
@[simp] theorem setPoly_evalid (s : State) (k : Reg) (seq : List Byte) : (s.setPoly k seq).evalid = s.evalid := rfl
@[simp] theorem setPoly_checkCount (s : State) (k : Reg) (seq : List Byte) : (s.setPoly k seq).checkCount = s.checkCount := rfl
@[simp] theorem setPoly_glog (s : State) (k : Reg) (seq : List Byte) : (s.setPoly k seq).glog = s.glog := rfl
@[simp] theorem setPoly_scr (s : State) (k : Reg) (seq : List Byte) : (s.setPoly k seq).scr = s.scr := rfl
@[simp] theorem setPoly_scrHwm (s : State) (k : Reg) (seq : List Byte) : (s.setPoly k seq).scrHwm = s.scrHwm := rfl
@[simp] theorem setPoly_faults (s : State) (k : Reg) (seq : List Byte) : (s.setPoly k seq).faults = s.faults := rfl
@[simp] theorem setPoly_inbox (s : State) (k : Reg) (seq : List Byte) : (s.setPoly k seq).inbox = s.inbox := rfl
@[simp] theorem setPoly_rsps (s : State) (k : Reg) (seq : List Byte) : (s.setPoly k seq).rsps = s.rsps := rfl

/-! ## `rst` -/

@[simp] theorem hostReset_params (s : State) : (s.hostReset).params = s.params := rfl
@[simp] theorem hostReset_fvalid (s : State) : (s.hostReset).fvalid = State.reset.fvalid := rfl
@[simp] theorem hostReset_tbl (s : State) : (s.hostReset).tbl = State.reset.tbl := rfl
@[simp] theorem hostReset_p (s : State) : (s.hostReset).p = State.reset.p := rfl
@[simp] theorem hostReset_dbuf (s : State) : (s.hostReset).dbuf = State.reset.dbuf := rfl
@[simp] theorem hostReset_cbuf (s : State) : (s.hostReset).cbuf = State.reset.cbuf := rfl
@[simp] theorem hostReset_evalid (s : State) : (s.hostReset).evalid = State.reset.evalid := rfl
@[simp] theorem hostReset_checkCount (s : State) : (s.hostReset).checkCount = State.reset.checkCount := rfl
@[simp] theorem hostReset_glog (s : State) : (s.hostReset).glog = State.reset.glog := rfl
@[simp] theorem hostReset_scr (s : State) : (s.hostReset).scr = State.reset.scr := rfl
@[simp] theorem hostReset_scrHwm (s : State) : (s.hostReset).scrHwm = State.reset.scrHwm := rfl
@[simp] theorem hostReset_faults (s : State) : (s.hostReset).faults = State.reset.faults := rfl
@[simp] theorem hostReset_inbox (s : State) : (s.hostReset).inbox = s.inbox := rfl
@[simp] theorem hostReset_rsps (s : State) : (s.hostReset).rsps = s.rsps := rfl

/-! ## A word is offered at the command port -/

@[simp] theorem withFetchWord_params (s : State) (nbits w : Nat) : (s.withFetchWord nbits w).params = s.params := rfl
@[simp] theorem withFetchWord_fvalid (s : State) (nbits w : Nat) : (s.withFetchWord nbits w).fvalid = s.fvalid := rfl
@[simp] theorem withFetchWord_tbl (s : State) (nbits w : Nat) : (s.withFetchWord nbits w).tbl = s.tbl := rfl
@[simp] theorem withFetchWord_p (s : State) (nbits w : Nat) : (s.withFetchWord nbits w).p = s.p := rfl
@[simp] theorem withFetchWord_dbuf (s : State) (nbits w : Nat) : (s.withFetchWord nbits w).dbuf = s.dbuf := rfl
@[simp] theorem withFetchWord_cbuf (s : State) (nbits w : Nat) : (s.withFetchWord nbits w).cbuf = s.cbuf := rfl
@[simp] theorem withFetchWord_evalid (s : State) (nbits w : Nat) : (s.withFetchWord nbits w).evalid = s.evalid := rfl
@[simp] theorem withFetchWord_checkCount (s : State) (nbits w : Nat) : (s.withFetchWord nbits w).checkCount = s.checkCount := rfl
@[simp] theorem withFetchWord_glog (s : State) (nbits w : Nat) : (s.withFetchWord nbits w).glog = s.glog := rfl
@[simp] theorem withFetchWord_scr (s : State) (nbits w : Nat) : (s.withFetchWord nbits w).scr = s.scr := rfl
@[simp] theorem withFetchWord_scrHwm (s : State) (nbits w : Nat) : (s.withFetchWord nbits w).scrHwm = s.scrHwm := rfl
@[simp] theorem withFetchWord_faults (s : State) (nbits w : Nat) : (s.withFetchWord nbits w).faults = s.faults := rfl
@[simp] theorem withFetchWord_inbox (s : State) (nbits w : Nat) : (s.withFetchWord nbits w).inbox = .command (BitVec.ofNat 32 (w % 2 ^ nbits)) :: s.inbox := rfl
@[simp] theorem withFetchWord_rsps (s : State) (nbits w : Nat) : (s.withFetchWord nbits w).rsps = s.rsps := rfl

/-! ## Reading after writing -/

/-- The value of a buffer after a whole sequence is written is that sequence. -/
@[simp] theorem write_value (b : Buffer) (seq : List Byte) : (b.write seq).value = seq := by
  simp [Buffer.write, Buffer.value, overwrite]

@[simp] theorem write_len (b : Buffer) (seq : List Byte) : (b.write seq).len = seq.length := rfl

@[simp] theorem clear_value (b : Buffer) : b.clear.value = [] := by simp [Buffer.clear, Buffer.value]

/-- Register k after `P[k] <- seq` reads as `seq`. -/
@[simp] theorem setPoly_poly_self (s : State) (k : Reg) (seq : List Byte) : (s.setPoly k seq).poly k = seq := by
  simp [State.poly]

/-- Another register after `P[k] <- seq` reads as before. -/
@[simp] theorem setPoly_poly_ne (s : State) (k j : Reg) (seq : List Byte) (h : k ≠ j) :
    (s.setPoly k seq).poly j = s.poly j := by
  have : (k : Nat) ≠ j := fun e => h (Fin.ext e)
  simp [State.poly, this]

@[simp] theorem emit_poly (s : State) (r : Word) (k : Reg) : (s.emit r).poly k = s.poly k := rfl

@[simp] theorem emit_memRead (s : State) (r : Word) (sp : Space) (i : Nat) :
    (s.emit r).memRead sp i = s.memRead sp i := rfl

@[simp] theorem fail_memRead (s : State) (f : CmdFault) (sp : Space) (i : Nat) :
    (s.fail f).memRead sp i = s.memRead sp i := rfl

end Sys2Proof.Machine
end

