-- ==== Sys2Proof/Laws/Ops.lean ====
section
/-! SUPPORT. What each shared operation can do, said once: the ends of a command, the test for the field, and the byte
stores with the form `Memory.wf` that every memory operation keeps. -/
namespace Sys2Proof.Machine

/-! ## The ends of a command -/

theorem respond_eq_next {v : Half} {s t : State} : respond v s = .next t ↔ t = s.emit (rspWord 0 v) := by
  simp [respond, eq_comm]

theorem done_eq_next {s t : State} : done s = .next t ↔ t = s.emit (rspWord 0 0) := respond_eq_next

theorem raise_eq_next {f : CmdFault} {s t : State} : raise f s = .next t ↔ t = s.fail f := by
  simp [raise, eq_comm]

/-- A command that needs the field fails with `field-not-ready` or goes on with FVALID = 1. -/
theorem needField_cases {s t : State} {k : Result} (h : needField s k = .next t) :
    (s.fvalid = false ∧ t = s.fail .fieldNotReady) ∨ (s.fvalid = true ∧ k = .next t) := by
  unfold needField at h
  split at h
  · exact .inr ⟨‹_›, h⟩
  · exact .inl ⟨by simpa using ‹¬ s.fvalid = true›, raise_eq_next.mp h⟩

theorem needField_ready {s : State} (k : Result) (h : s.fvalid = true) : needField s k = k := by
  simp [needField, h]

theorem needField_not_ready {s : State} (k : Result) (h : s.fvalid = false) :
    needField s k = .next (s.fail .fieldNotReady) := by
  simp [needField, h, raise]

/-- A response of status 0 is its value. -/
theorem rspWord_ok (v : Half) : rspWord 0 v = BitVec.ofNat 32 v.toNat := by simp [rspWord]

/-! ## Byte stores -/

theorem overwrite_length (store new : List Byte) :
    (overwrite store new).length = max new.length store.length := by
  simp [overwrite]; omega

/-- Below the length written a store holds what was written, beyond it what it held. -/
theorem overwrite_getElem? (store new : List Byte) (i : Nat) :
    (overwrite store new)[i]? = if i < new.length then new[i]? else store[i]? := by
  unfold overwrite
  split
  · rw [List.getElem?_append_left ‹_›]
  · rw [List.getElem?_append_right (by omega), List.getElem?_drop]
    congr 1; omega

/-- The bytes just written are what a read of that many gives. -/
theorem overwrite_take (store new : List Byte) : (overwrite store new).take new.length = new := by
  simp [overwrite]

theorem value_length_of_wf {cap : Nat} {b : Buffer} (h : b.wf cap) : b.value.length = b.len := by
  simp [Buffer.value, h.1]

/-- Reading below the length reads the value. -/
theorem byteAt_value {cap : Nat} {b : Buffer} (h : b.wf cap) {i : Nat} (hi : i < b.len) :
    b.value[i]? = some (byteAt b.bytes i) := by
  have : i < b.bytes.length := by have := h.1; omega
  simp [Buffer.value, byteAt, hi, this]

/-! ## The form of the stores -/

theorem empty_wf (cap : Nat) : Buffer.empty.wf cap := by simp [Buffer.wf, Buffer.empty]

theorem write_wf {cap : Nat} {b : Buffer} {seq : List Byte} (h : b.wf cap) (hs : seq.length ≤ cap) :
    (b.write seq).wf cap := by
  refine ⟨?_, ?_⟩ <;> simp only [Buffer.write, overwrite_length]
  · omega
  · have := h.2; omega

theorem push_wf {cap : Nat} {b : Buffer} {v : Byte} (h : b.wf cap) (hl : b.len ≠ cap) : (b.push v).wf cap := by
  refine write_wf h ?_
  have := h.1; have := h.2; have := value_length_of_wf h
  simp; omega

theorem clear_wf {cap : Nat} {b : Buffer} (h : b.wf cap) : b.clear.wf cap := ⟨by simp [Buffer.clear], h.2⟩

theorem setPoly_memory_wf {s : State} {k : Reg} {seq : List Byte} (h : Memory.wf s)
    (hs : seq.length ≤ s.params.pcap) : Memory.wf (s.setPoly k seq) := by
  refine ⟨h.1, h.2.1, fun j => ?_, h.2.2.2⟩
  have hj := h.2.2.1 j
  by_cases e : k = j
  · subst e; simpa using write_wf hj hs
  · have : (k : Nat) ≠ j := fun e' => e (Fin.ext e')
    simpa [this] using hj

theorem dbuf_memory_wf {s : State} {b : Buffer} (h : Memory.wf s) (hb : b.wf s.params.dcap) :
    Memory.wf { s with dbuf := b } := ⟨h.1, h.2.1, h.2.2.1, hb, h.2.2.2.2⟩

theorem cbuf_memory_wf {s : State} {b : Buffer} (h : Memory.wf s) (hb : b.wf s.params.ccap) :
    Memory.wf { s with cbuf := b } := ⟨h.1, h.2.1, h.2.2.1, h.2.2.2.1, hb, h.2.2.2.2.2⟩

theorem glog_memory_wf {s : State} {g : List Byte} (h : Memory.wf s) (hg : g.length ≤ s.params.gcap) :
    Memory.wf { s with glog := overwrite s.glog g } := by
  refine ⟨h.1, h.2.1, h.2.2.1, h.2.2.2.1, h.2.2.2.2.1, ?_, h.2.2.2.2.2.2⟩
  have := h.2.2.2.2.2.1
  simp only [overwrite_length]; omega

theorem scratch_memory_wf {s : State} {r : List Byte} {n : Nat} (h : Memory.wf s) (hr : r.length ≤ s.params.scap)
    (hn : n ≤ s.params.scap) : Memory.wf { s with scr := overwrite s.scr r, scrHwm := max s.scrHwm n } := by
  refine ⟨h.1, h.2.1, h.2.2.1, h.2.2.2.1, h.2.2.2.2.1, h.2.2.2.2.2.1, ?_, ?_⟩
  · have := h.2.2.2.2.2.2.1
    simp only [overwrite_length]; omega
  · have := h.2.2.2.2.2.2.2
    simp only; omega

theorem tables_memory_wf {s : State} {t : Tables} (h : Memory.wf s) (he : t.exp.length ≤ 510)
    (hl : t.log.length ≤ 255) : Memory.wf { s with tbl := t } := ⟨he, hl, h.2.2⟩

theorem hostReset_memory_wf (s : State) : Memory.wf s.hostReset := by
  refine ⟨by simp [State.reset], by simp [State.reset], fun k => ?_, ?_, ?_, ?_, ?_, ?_⟩
  · simpa [State.reset] using empty_wf _
  all_goals simp [State.reset, Buffer.empty, Buffer.wf]

end Sys2Proof.Machine
end

