-- ==== Sys2Proof/Laws/PerInstr.lean ====
section
/-! SUPPORT. The family Opcode: the field w[31:24] of a command's word (30_encoding.md R71, R74). -/
namespace Sys2Proof.Laws.Opcode

/-- The op column of R74; PMONO's is 0x30 to 0x37 by its register. -/
def opcodeOf : Instr → Nat
  | .srd _ => 0x01 | .finit _ => 0x10 | .fadd _ _ => 0x11 | .fmul _ _ => 0x12 | .finv _ => 0x13 | .fexp _ => 0x14
  | .flog _ => 0x15 | .pclr _ => 0x20 | .ppush _ _ => 0x21 | .prdl _ => 0x22 | .prdc _ _ => 0x23
  | .pmov _ _ => 0x24 | .pnorm _ _ => 0x25 | .padd _ _ _ => 0x26 | .pmul _ _ _ => 0x27 | .pdiv _ _ _ _ => 0x28
  | .pmono rd _ _ => 0x30 + rd.val | .gen _ _ => 0x40 | .rchk _ => 0x41 | .econ _ => 0x48 | .enc _ => 0x49
  | .dclr => 0x50 | .dpush _ => 0x51 | .drdl => 0x52 | .drd _ => 0x53 | .crdl => 0x54 | .crd _ => 0x55

/-- The word of a command carries the opcode of its row. -/
def Statement (i : Instr) : Prop := bits (encode i) 31 24 = opcodeOf i

theorem srd (n : Half) : Statement (.srd n) := by simp [Statement, bits, encode, encodeNat, opcodeOf]; omega
theorem finit (poly : Half) : Statement (.finit poly) := by simp [Statement, bits, encode, encodeNat, opcodeOf]; omega
theorem fadd (x y : Byte) : Statement (.fadd x y) := by simp [Statement, bits, encode, encodeNat, opcodeOf]; omega
theorem fmul (x y : Byte) : Statement (.fmul x y) := by simp [Statement, bits, encode, encodeNat, opcodeOf]; omega
theorem finv (x : Byte) : Statement (.finv x) := by simp [Statement, bits, encode, encodeNat, opcodeOf]; omega
theorem fexp (e : Half) : Statement (.fexp e) := by simp [Statement, bits, encode, encodeNat, opcodeOf]; omega
theorem flog (x : Byte) : Statement (.flog x) := by simp [Statement, bits, encode, encodeNat, opcodeOf]; omega
theorem pclr (rd : Reg) : Statement (.pclr rd) := by simp [Statement, bits, encode, encodeNat, opcodeOf]; omega
theorem ppush (rd : Reg) (b : Byte) : Statement (.ppush rd b) := by
  simp [Statement, bits, encode, encodeNat, opcodeOf]; omega
theorem prdl (rs : Reg) : Statement (.prdl rs) := by simp [Statement, bits, encode, encodeNat, opcodeOf]; omega
theorem prdc (rs : Reg) (i : Half) : Statement (.prdc rs i) := by
  simp [Statement, bits, encode, encodeNat, opcodeOf]; omega
theorem pmov (rd ra : Reg) : Statement (.pmov rd ra) := by
  simp [Statement, bits, encode, encodeNat, opcodeOf]; omega
theorem pnorm (rd ra : Reg) : Statement (.pnorm rd ra) := by
  simp [Statement, bits, encode, encodeNat, opcodeOf]; omega
theorem padd (rd ra rb : Reg) : Statement (.padd rd ra rb) := by
  simp [Statement, bits, encode, encodeNat, opcodeOf]; omega
theorem pmul (rd ra rb : Reg) : Statement (.pmul rd ra rb) := by
  simp [Statement, bits, encode, encodeNat, opcodeOf]; omega
theorem pdiv (rq rr ra rb : Reg) : Statement (.pdiv rq rr ra rb) := by
  simp [Statement, bits, encode, encodeNat, opcodeOf]; omega
theorem pmono (rd : Reg) (c : Byte) (n : Half) : Statement (.pmono rd c n) := by
  simp [Statement, bits, encode, encodeNat, opcodeOf]; omega
theorem gen (rd : Reg) (e : Half) : Statement (.gen rd e) := by
  simp [Statement, bits, encode, encodeNat, opcodeOf]; omega
theorem rchk (c : Half) : Statement (.rchk c) := by simp [Statement, bits, encode, encodeNat, opcodeOf]; omega
theorem econ (c : Half) : Statement (.econ c) := by simp [Statement, bits, encode, encodeNat, opcodeOf]; omega
theorem enc (n : Half) : Statement (.enc n) := by simp [Statement, bits, encode, encodeNat, opcodeOf]; omega
theorem dclr : Statement .dclr := by simp [Statement, bits, encode, encodeNat, opcodeOf]
theorem dpush (b : Byte) : Statement (.dpush b) := by simp [Statement, bits, encode, encodeNat, opcodeOf]; omega
theorem drdl : Statement .drdl := by simp [Statement, bits, encode, encodeNat, opcodeOf]
theorem drd (i : Half) : Statement (.drd i) := by simp [Statement, bits, encode, encodeNat, opcodeOf]; omega
theorem crdl : Statement .crdl := by simp [Statement, bits, encode, encodeNat, opcodeOf]
theorem crd (i : Half) : Statement (.crd i) := by simp [Statement, bits, encode, encodeNat, opcodeOf]; omega

end Sys2Proof.Laws.Opcode
end

