-- ==== Sys2Proof/Laws/Sequences.lean ====
section
/-! SUPPORT. Lengths and coefficients of the loops the polynomial, generator and encoder functions are made of. -/
namespace Sys2Proof.Machine

/-! ## Loops -/

@[simp] theorem forUpto_zero {α : Type} (r : α) (body : α → Nat → α) : forUpto 0 r body = r := rfl

/-- One more pass of a loop is its body after the passes before. -/
theorem forUpto_succ {α : Type} (n : Nat) (r : α) (body : α → Nat → α) :
    forUpto (n + 1) r body = body (forUpto n r body) n := by
  simp [forUpto, List.range_succ]

/-- What holds at the start of a loop and is kept by every pass holds at its end. -/
theorem forUpto_invariant {α : Type} (P : Nat → α → Prop) {n : Nat} {r : α} {body : α → Nat → α} (h0 : P 0 r)
    (hs : ∀ i a, i < n → P i a → P (i + 1) (body a i)) : P n (forUpto n r body) := by
  induction n with
  | zero => exact h0
  | succ n ih => exact forUpto_succ n r body ▸ hs n _ (by omega) (ih fun i a hi => hs i a (by omega))

/-! ## Coefficients -/

theorem coef_of_le {p : List Byte} {i : Nat} (h : p.length ≤ i) : coef p i = 0 := by
  simp [coef, List.getD, List.getElem?_eq_none h]

theorem coef_eq_getElem {p : List Byte} {i : Nat} (h : i < p.length) : coef p i = p[i] := by
  simp [coef, List.getD, h]

@[simp] theorem coef_cons_zero (a : Byte) (p : List Byte) : coef (a :: p) 0 = a := rfl

@[simp] theorem coef_cons_succ (a : Byte) (p : List Byte) (i : Nat) : coef (a :: p) (i + 1) = coef p i := rfl

@[simp] theorem coef_nil (i : Nat) : coef [] i = 0 := rfl

theorem coef_zeros (n i : Nat) : coef (zeros n) i = 0 := by
  induction n generalizing i with
  | zero => rfl
  | succ n ih => cases i with
    | zero => rfl
    | succ i => exact ih i

/-- Two sequences of one length with the same coefficients are equal. -/
theorem eq_of_coef {p q : List Byte} (hl : p.length = q.length) (h : ∀ i, coef p i = coef q i) : p = q := by
  refine List.ext_getElem hl fun i hp hq => ?_
  rw [← coef_eq_getElem hp, ← coef_eq_getElem hq, h]

/-! ## The XOR of a row -/

@[simp] theorem xorRow_length (r : List Byte) (i : Nat) (row : List Byte) : (xorRow r i row).length = r.length := by
  induction r, i, row using xorRow.induct <;> simp_all [xorRow]

/-- The coefficient of the sequence after a row has been XORed in at index i. -/
theorem coef_xorRow (r : List Byte) (i : Nat) (row : List Byte) (k : Nat) :
    coef (xorRow r i row) k =
      if k < r.length ∧ i ≤ k then coef r k ^^^ coef row (k - i) else coef r k := by
  induction r, i, row using xorRow.induct generalizing k with
  | case1 => simp [xorRow]
  | case2 v r i row ih =>
    cases k with
    | zero => simp [xorRow]
    | succ k => simp [xorRow, ih]
  | case3 v r => simp [xorRow]
  | case4 v r w row ih =>
    cases k with
    | zero => simp [xorRow]
    | succ k => simp [xorRow, ih]

/-! ## Lengths -/

@[simp] theorem zeros_length (n : Nat) : (zeros n).length = n := by simp [zeros]

@[simp] theorem pMono_length (c : Byte) (d : Nat) : (pMono c d).length = d + 1 := by simp [pMono]

theorem pNorm_length_le (p : List Byte) : (pNorm p).length ≤ p.length := by
  simpa [pNorm] using (List.dropWhile_sublist (· == 0) (l := p.reverse)).length_le

theorem pAdd_length_le (x y : List Byte) : (pAdd x y).length ≤ max x.length y.length := by
  simpa [pAdd] using pNorm_length_le ((List.range (max x.length y.length)).map fun i => coef x i ^^^ coef y i)

@[simp] theorem refCheck_length (t : Tables) (data : List Byte) (c : Nat) : (refCheck t data c).length = c := by
  simp [refCheck]

@[simp] theorem descending_length (g : List Byte) (c : Nat) : (descending g c).length = c + 1 := by
  simp [descending]

/-- The logs that a successful construction gives are c + 1 bytes. -/
theorem encConstruct_length {t : Tables} {c : Nat} {g : List Byte} (h : encConstruct t c = some g) :
    g.length = c + 1 := by
  simp only [encConstruct] at h
  split at h
  · cases h
  · cases h; simp

theorem encPass_length (t : Tables) (glog s : List Byte) (i : Nat) : (encPass t glog s i).length = s.length := by
  simp only [encPass]; split <;> simp

/-- The final scratch is as long as the data and the check bytes together. -/
theorem encEncode_length (t : Tables) (glog : List Byte) (c : Nat) (data : List Byte) :
    (encEncode t glog c data).length = data.length + c := by
  refine forUpto_invariant (fun _ (r : List Byte) => r.length = data.length + c) (by simp) fun i a _ ha => ?_
  rw [encPass_length, ha]

/-- Building keeps the sizes of the tables under construction. -/
theorem buildLoop_lengths {poly left i : Nat} {b b' : Build} (h : buildLoop poly left i b = some b') :
    b'.exp.length = b.exp.length ∧ b'.log.length = b.log.length := by
  induction left generalizing i b with
  | zero => cases h; exact ⟨rfl, rfl⟩
  | succ left ih =>
    rw [buildLoop] at h
    split at h
    · cases h
    · simpa using ih h

/-- A successful build gives 510 entries of EXP and the 255 entries LOG[1..255]. -/
theorem buildTables_lengths {poly : Nat} {t : Tables} (h : buildTables poly = some t) :
    t.exp.length = 510 ∧ t.log.length = 255 := by
  unfold buildTables at h
  split at h
  · cases h
  · split at h
    · cases h
    · cases h
      obtain ⟨he, hl⟩ := buildLoop_lengths ‹_›
      exact ⟨he.trans List.length_replicate, by rw [List.length_drop, hl, List.length_replicate]⟩

/-! ## Multiplying by a factor of degree one -/

@[simp] theorem gfMul_zero_left (t : Tables) (y : Byte) : gfMul t 0#8 y = 0#8 := by simp [gfMul]

/-- `p_mul` by a two-term polynomial: its length and its coefficients. -/
theorem pMul_pair {t : Tables} {x : List Byte} (hx : x ≠ []) (a b : Byte) :
    (pMul t x [a, b]).length = x.length + 1 ∧
      ∀ k, coef (pMul t x [a, b]) k =
        gfMul t (coef x k) a ^^^ (if k = 0 then 0 else gfMul t (coef x (k - 1)) b) := by
  have hl : x.length ≠ 0 := by simpa using hx
  have key := forUpto_invariant
    (P := fun n (r : List Byte) => r.length = x.length + 1 ∧ ∀ k, coef r k =
      (if k < n then gfMul t (coef x k) a else 0) ^^^
        (if 0 < k ∧ k ≤ n then gfMul t (coef x (k - 1)) b else 0))
    (n := x.length) (r := zeros (x.length + 1)) (body := fun r i => xorRow r i ([a, b].map (gfMul t (coef x i))))
    ⟨zeros_length _, fun k => by
      have h : ¬ (0 < k ∧ k ≤ 0) := by omega
      rw [if_neg h, coef_zeros, if_neg (Nat.not_lt_zero k)]; rfl⟩
    (fun i r hi ⟨hr, hc⟩ => ⟨by simp [hr], fun k => by
      rw [coef_xorRow, hc]
      rcases lt_trichotomy k i with h | rfl | h
      · have h1 : ¬ (k < r.length ∧ i ≤ k) := by omega
        have h2 : k < i + 1 := by omega
        have h3 : (0 < k ∧ k ≤ i) ↔ (0 < k ∧ k ≤ i + 1) := by omega
        simp [h1, h, h2, h3]
      · have h1 : k < r.length := by omega
        simp [h1, BitVec.xor_comm]
      · by_cases hk : k = i + 1
        · subst hk
          have h1 : i + 1 < r.length := by omega
          simp [h1]
        · have h2 : ¬ k < i + 1 := by omega
          have h3 : ¬ k < i := by omega
          have h4 : ¬ k ≤ i + 1 := by omega
          have h5 : ¬ k ≤ i := by omega
          have h6 : coef [gfMul t (coef x i) a, gfMul t (coef x i) b] (k - i) = 0 :=
            coef_of_le (by simp; omega)
          simp [h2, h3, h4, h5, h6]⟩)
  simp only [pMul, List.length_cons, List.length_nil, hl, false_or, Nat.reduceAdd, Nat.add_succ_sub_one, OfNat.ofNat_ne_zero, ↓reduceIte]
  refine ⟨key.1, fun k => ?_⟩
  refine (key.2 k).trans ?_
  have hz : x.length ≤ k → coef x k = 0 := coef_of_le
  have hz' : x.length ≤ k - 1 → coef x (k - 1) = 0 := coef_of_le
  congr 1
  · split
    · rfl
    · simp [hz (by omega)]
  · rcases Nat.eq_zero_or_pos k with rfl | hk
    · simp
    · by_cases h : k ≤ x.length
      · simp [hk, h, Nat.ne_of_gt hk]
      · simp [h, Nat.ne_of_gt hk, hz' (by omega)]

@[simp] theorem gen_length (t : Tables) (e : Nat) : (gen t e).length = e + 1 := by
  induction e with
  | zero => rfl
  | succ e ih => rw [gen, (pMul_pair (List.ne_nil_of_length_eq_add_one ih) _ _).1, ih]

/-- Where 1 is the identity of `gf_mul`, the generator is monic and its next coefficient is the sum of the roots. -/
theorem gen_top_coefficients {t : Tables} (hl : ∀ v, gfMul t 1 v = v) (hr : ∀ v, gfMul t v 1 = v) (e : Nat) :
    coef (gen t e) e = 1 ∧
      coef (gen t (e + 1)) e = (List.range (e + 1)).foldl (fun s (i : Nat) => s ^^^ gfExp t (i : Int)) 0 := by
  have hne (e) : gen t e ≠ [] := List.ne_nil_of_length_eq_add_one (gen_length t e)
  have top : ∀ e, coef (gen t e) e = 1 := fun e => by
    induction e with
    | zero => rfl
    | succ e ih =>
      rw [gen, (pMul_pair (hne e) _ _).2, coef_of_le (by simp), if_neg (by omega), Nat.add_sub_cancel, ih, hr]
      simp
  refine ⟨top e, ?_⟩
  induction e with
  | zero =>
    rw [gen, (pMul_pair (hne 0) _ _).2, top, hl]
    simp
  | succ e ih =>
    rw [gen, (pMul_pair (hne _) _ _).2, top, hl, if_neg (by omega), hr, Nat.add_sub_cancel, ih,
      List.range_succ (n := e + 1), List.foldl_append, BitVec.xor_comm]
    rfl

end Sys2Proof.Machine
end

