-- ==== Sys2Proof/Laws/Step.lean ====
section
/-! SUPPORT. Everything one step can do. -/
namespace Sys2Proof.Machine

/-- A step idles, resets, answers an illegal word, or runs the command its word decodes to. -/
theorem step_cases {s t : State} (h : step s = .next t) :
    (s.inbox = [] ∧ t = s) ∨
    (∃ rest, s.inbox = .rst :: rest ∧ t = { s with inbox := rest }.hostReset) ∨
    (∃ w rest, s.inbox = .command w :: rest ∧ decode w = none ∧ t = { s with inbox := rest }.fail .illegalCommand) ∨
    (∃ w rest i, s.inbox = .command w :: rest ∧ decode w = some i ∧ exec i { s with inbox := rest } = .next t) := by
  unfold step at h
  split at h
  · cases h; exact .inl ⟨‹_›, rfl⟩
  · cases h; exact .inr (.inl ⟨_, ‹_›, rfl⟩)
  · split at h
    · exact .inr (.inr (.inl ⟨_, _, ‹_›, ‹_›, raise_eq_next.mp h⟩))
    · exact .inr (.inr (.inr ⟨_, _, _, ‹_›, ‹_›, h⟩))

/-- The word that `withFetchWord` offers is the one the next step takes. -/
theorem step_withFetchWord {s : State} {nbits w : Nat} {i : Instr} (h : decodeTableWord nbits w = some i) :
    step (s.withFetchWord nbits w) = exec i s := by
  unfold decodeTableWord at h
  simp [step, State.withFetchWord, h]

end Sys2Proof.Machine
end

