-- ==== Sys2Proof/Tests/Slice0.lean ====
section
/-! SUPPORT. The model's own tests. Expected values are from spec/ (95_test_vectors.md, the *Example* clauses of the
command rules, the encodings of 30_encoding.md R72 to R74), never from the model. Below them, the witnesses: for each
statement with hypotheses, a concrete state and operands that meet them. -/
namespace Sys2Proof.Tests
open Sys2Proof.Machine

/-! ## Well-formedness: the one check refuses an ill-formed term -/

theorem test_wellFormed_refuses_one_destination : ¬ WellFormed (.pdiv 3 3 0 1) := by decide
theorem test_wellFormed_accepts_two_destinations : WellFormed (.pdiv 0 1 0 0) := by decide

/-! ## Decoding: one word per command, written out in the fields of its format (R72, R74) -/

theorem test_decode_srd : decode 0b00000001_00000000_0000000000000010 = some (.srd 2) := by decide
theorem test_decode_finit : decode 0b00010000_00000000_0000000100011101 = some (.finit 0x11D) := by decide
theorem test_decode_fadd : decode 0b00010001_00000000_01010011_11001010 = some (.fadd 0x53 0xCA) := by decide
theorem test_decode_fmul : decode 0b00010010_00000000_00000010_10001110 = some (.fmul 0x02 0x8E) := by decide
theorem test_decode_finv : decode 0b00010011_0000000000000000_00000010 = some (.finv 0x02) := by decide
theorem test_decode_fexp : decode 0b00010100_00000000_1000000000000000 = some (.fexp 0x8000) := by decide
theorem test_decode_flog : decode 0b00010101_0000000000000000_00011101 = some (.flog 0x1D) := by decide
theorem test_decode_pclr : decode 0b00100000_011_000000000000000000000 = some (.pclr 3) := by decide
theorem test_decode_ppush : decode 0b00100001_001_0000000000000_10101011 = some (.ppush 1 0xAB) := by decide
theorem test_decode_prdl : decode 0b00100010_010_000000000000000000000 = some (.prdl 2) := by decide
theorem test_decode_prdc : decode 0b00100011_011_00000_1111111111111111 = some (.prdc 3 0xFFFF) := by decide
theorem test_decode_pmov : decode 0b00100100_001_110_000000000000000000 = some (.pmov 1 6) := by decide
theorem test_decode_pnorm : decode 0b00100101_010_101_000000000000000000 = some (.pnorm 2 5) := by decide
theorem test_decode_padd : decode 0b00100110_010_000_001_000000000000000 = some (.padd 2 0 1) := by decide
theorem test_decode_pmul : decode 0b00100111_011_101_010_000000000000000 = some (.pmul 3 5 2) := by decide
theorem test_decode_pdiv : decode 0b00101000_010_011_000_001_000000000000 = some (.pdiv 2 3 0 1) := by decide
theorem test_decode_pmono : decode 0b00110_100_00011101_0000000000000011 = some (.pmono 4 0x1D 3) := by decide
theorem test_decode_gen : decode 0b01000000_101_00000_0000000000001000 = some (.gen 5 8) := by decide
theorem test_decode_rchk : decode 0b01000001_00000000_0000000000001010 = some (.rchk 10) := by decide
theorem test_decode_econ : decode 0b01001000_00000000_0000000011111111 = some (.econ 255) := by decide
theorem test_decode_enc : decode 0b01001001_00000000_0000000000000011 = some (.enc 3) := by decide
theorem test_decode_dclr : decode 0b01010000_000000000000000000000000 = some .dclr := by decide
theorem test_decode_dpush : decode 0b01010001_0000000000000000_01000000 = some (.dpush 0x40) := by decide
theorem test_decode_drdl : decode 0b01010010_000000000000000000000000 = some .drdl := by decide
theorem test_decode_drd : decode 0b01010011_00000000_0000000000000101 = some (.drd 5) := by decide
theorem test_decode_crdl : decode 0b01010100_000000000000000000000000 = some .crdl := by decide
theorem test_decode_crd : decode 0b01010101_00000000_0000000000001001 = some (.crd 9) := by decide

/-- Illegal words of 95_test_vectors.md section 3, one for each way a word can be illegal. -/
theorem test_decode_illegal :
    [0x00000000, 0xFFFFFFFF, 0x01010000, 0x02000000, 0x13000100, 0x20100000, 0x212001AB, 0x23610000, 0x24020000,
     0x26404000, 0x28000000, 0x28241000, 0x284C1001, 0x38000000, 0x54800000].all (fun w : Word => decode w == none) :=
  by decide

/-! ## A small field: the tables of polynomial 0x11D (95_test_vectors.md sections 2.1, 2.2) -/

/-- EXP[0..254]. -/
def exp11D : List Byte :=
  [0x01, 0x02, 0x04, 0x08, 0x10, 0x20, 0x40, 0x80, 0x1d, 0x3a, 0x74, 0xe8, 0xcd, 0x87, 0x13, 0x26] ++
  [0x4c, 0x98, 0x2d, 0x5a, 0xb4, 0x75, 0xea, 0xc9, 0x8f, 0x03, 0x06, 0x0c, 0x18, 0x30, 0x60, 0xc0] ++
  [0x9d, 0x27, 0x4e, 0x9c, 0x25, 0x4a, 0x94, 0x35, 0x6a, 0xd4, 0xb5, 0x77, 0xee, 0xc1, 0x9f, 0x23] ++
  [0x46, 0x8c, 0x05, 0x0a, 0x14, 0x28, 0x50, 0xa0, 0x5d, 0xba, 0x69, 0xd2, 0xb9, 0x6f, 0xde, 0xa1] ++
  [0x5f, 0xbe, 0x61, 0xc2, 0x99, 0x2f, 0x5e, 0xbc, 0x65, 0xca, 0x89, 0x0f, 0x1e, 0x3c, 0x78, 0xf0] ++
  [0xfd, 0xe7, 0xd3, 0xbb, 0x6b, 0xd6, 0xb1, 0x7f, 0xfe, 0xe1, 0xdf, 0xa3, 0x5b, 0xb6, 0x71, 0xe2] ++
  [0xd9, 0xaf, 0x43, 0x86, 0x11, 0x22, 0x44, 0x88, 0x0d, 0x1a, 0x34, 0x68, 0xd0, 0xbd, 0x67, 0xce] ++
  [0x81, 0x1f, 0x3e, 0x7c, 0xf8, 0xed, 0xc7, 0x93, 0x3b, 0x76, 0xec, 0xc5, 0x97, 0x33, 0x66, 0xcc] ++
  [0x85, 0x17, 0x2e, 0x5c, 0xb8, 0x6d, 0xda, 0xa9, 0x4f, 0x9e, 0x21, 0x42, 0x84, 0x15, 0x2a, 0x54] ++
  [0xa8, 0x4d, 0x9a, 0x29, 0x52, 0xa4, 0x55, 0xaa, 0x49, 0x92, 0x39, 0x72, 0xe4, 0xd5, 0xb7, 0x73] ++
  [0xe6, 0xd1, 0xbf, 0x63, 0xc6, 0x91, 0x3f, 0x7e, 0xfc, 0xe5, 0xd7, 0xb3, 0x7b, 0xf6, 0xf1, 0xff] ++
  [0xe3, 0xdb, 0xab, 0x4b, 0x96, 0x31, 0x62, 0xc4, 0x95, 0x37, 0x6e, 0xdc, 0xa5, 0x57, 0xae, 0x41] ++
  [0x82, 0x19, 0x32, 0x64, 0xc8, 0x8d, 0x07, 0x0e, 0x1c, 0x38, 0x70, 0xe0, 0xdd, 0xa7, 0x53, 0xa6] ++
  [0x51, 0xa2, 0x59, 0xb2, 0x79, 0xf2, 0xf9, 0xef, 0xc3, 0x9b, 0x2b, 0x56, 0xac, 0x45, 0x8a, 0x09] ++
  [0x12, 0x24, 0x48, 0x90, 0x3d, 0x7a, 0xf4, 0xf5, 0xf7, 0xf3, 0xfb, 0xeb, 0xcb, 0x8b, 0x0b, 0x16] ++
  [0x2c, 0x58, 0xb0, 0x7d, 0xfa, 0xe9, 0xcf, 0x83, 0x1b, 0x36, 0x6c, 0xd8, 0xad, 0x47, 0x8e]

/-- LOG[1..255]. -/
def log11D : List Byte :=
  [0x00, 0x01, 0x19, 0x02, 0x32, 0x1a, 0xc6, 0x03, 0xdf, 0x33, 0xee, 0x1b, 0x68, 0xc7, 0x4b, 0x04] ++
  [0x64, 0xe0, 0x0e, 0x34, 0x8d, 0xef, 0x81, 0x1c, 0xc1, 0x69, 0xf8, 0xc8, 0x08, 0x4c, 0x71, 0x05] ++
  [0x8a, 0x65, 0x2f, 0xe1, 0x24, 0x0f, 0x21, 0x35, 0x93, 0x8e, 0xda, 0xf0, 0x12, 0x82, 0x45, 0x1d] ++
  [0xb5, 0xc2, 0x7d, 0x6a, 0x27, 0xf9, 0xb9, 0xc9, 0x9a, 0x09, 0x78, 0x4d, 0xe4, 0x72, 0xa6, 0x06] ++
  [0xbf, 0x8b, 0x62, 0x66, 0xdd, 0x30, 0xfd, 0xe2, 0x98, 0x25, 0xb3, 0x10, 0x91, 0x22, 0x88, 0x36] ++
  [0xd0, 0x94, 0xce, 0x8f, 0x96, 0xdb, 0xbd, 0xf1, 0xd2, 0x13, 0x5c, 0x83, 0x38, 0x46, 0x40, 0x1e] ++
  [0x42, 0xb6, 0xa3, 0xc3, 0x48, 0x7e, 0x6e, 0x6b, 0x3a, 0x28, 0x54, 0xfa, 0x85, 0xba, 0x3d, 0xca] ++
  [0x5e, 0x9b, 0x9f, 0x0a, 0x15, 0x79, 0x2b, 0x4e, 0xd4, 0xe5, 0xac, 0x73, 0xf3, 0xa7, 0x57, 0x07] ++
  [0x70, 0xc0, 0xf7, 0x8c, 0x80, 0x63, 0x0d, 0x67, 0x4a, 0xde, 0xed, 0x31, 0xc5, 0xfe, 0x18, 0xe3] ++
  [0xa5, 0x99, 0x77, 0x26, 0xb8, 0xb4, 0x7c, 0x11, 0x44, 0x92, 0xd9, 0x23, 0x20, 0x89, 0x2e, 0x37] ++
  [0x3f, 0xd1, 0x5b, 0x95, 0xbc, 0xcf, 0xcd, 0x90, 0x87, 0x97, 0xb2, 0xdc, 0xfc, 0xbe, 0x61, 0xf2] ++
  [0x56, 0xd3, 0xab, 0x14, 0x2a, 0x5d, 0x9e, 0x84, 0x3c, 0x39, 0x53, 0x47, 0x6d, 0x41, 0xa2, 0x1f] ++
  [0x2d, 0x43, 0xd8, 0xb7, 0x7b, 0xa4, 0x76, 0xc4, 0x17, 0x49, 0xec, 0x7f, 0x0c, 0x6f, 0xf6, 0x6c] ++
  [0xa1, 0x3b, 0x52, 0x29, 0x9d, 0x55, 0xaa, 0xfb, 0x60, 0x86, 0xb1, 0xbb, 0xcc, 0x3e, 0x5a, 0xcb] ++
  [0x59, 0x5f, 0xb0, 0x9c, 0xa9, 0xa0, 0x51, 0x0b, 0xf5, 0x16, 0xeb, 0x7a, 0x75, 0x2c, 0xd7, 0x4f] ++
  [0xae, 0xd5, 0xe9, 0xe6, 0xe7, 0xad, 0xe8, 0x74, 0xd6, 0xf4, 0xea, 0xa8, 0x50, 0x58, 0xaf]

/-- The unit after a successful FINIT 0x11D from reset. -/
def fieldState : State := { State.reset with fvalid := true, tbl := { exp := exp11D ++ exp11D, log := log11D } }

/-- A buffer that holds exactly the sequence given. -/
def buf (seq : List Byte) : Buffer := { len := seq.length, bytes := seq }

/-- P0, P1, P2 loaded, the others empty. -/
def polyState (a b c : List Byte) : State :=
  { fieldState with p := #v[buf a, buf b, buf c, buf [], buf [], buf [], buf [], buf []] }

/-- DBUF = [12, 34] and an encoder of check count 2 (95_test_vectors.md section 7.1). -/
def encoderState : State :=
  { fieldState with dbuf := buf [0x12, 0x34], evalid := true, checkCount := 2, glog := [0, 25, 1] }

/-- A unit with the smallest useful capacities, its registers P0 and P1 and its data buffer full, its other registers
empty. -/
def tinyState : State :=
  { polyState [2, 1] [3, 1] [] with params := { pcap := 2, dcap := 1, ccap := 1 }, dbuf := buf [7] }

/-- What a result leaves; a unit never stops, so the last case is not met. -/
def after : Result → State
  | .next t => t
  | .fault f => nomatch f
  | .refused _ => State.reset

/-- The last response of what a result leaves. -/
def answer (r : Result) : Option Word := (after r).rsps.getLast?

/-! ## One step of each command, expected values from spec/95_test_vectors.md -/

theorem test_finit_builds_the_tables :
    (after (exec (.finit 0x11D) State.reset)).tbl = fieldState.tbl := by decide +kernel
theorem test_finit_refuses_even : answer (exec (.finit 0x100) State.reset) = some 0x02000000 := by decide +kernel
theorem test_fadd : answer (exec (.fadd 0x53 0xCA) fieldState) = some 0x99 := by decide
theorem test_fmul_largest_index : answer (exec (.fmul 0x8E 0x8E) fieldState) = some 0x47 := by decide +kernel
theorem test_fmul_before_finit : answer (exec (.fmul 1 2) State.reset) = some 0x09000000 := by decide
theorem test_finv : answer (exec (.finv 0x53) fieldState) = some 0x8C := by decide +kernel
theorem test_finv_zero : answer (exec (.finv 0) fieldState) = some 0 := by decide
theorem test_fexp_wraps : answer (exec (.fexp 32767) fieldState) = some 0xCC := by decide +kernel
theorem test_fexp_negative : answer (exec (.fexp 0xFFFB) fieldState) = some 0 := by decide
theorem test_flog : answer (exec (.flog 0x8F) fieldState) = some 0x18 := by decide +kernel
theorem test_flog_zero : answer (exec (.flog 0) fieldState) = some 0xFFFF := by decide
theorem test_pclr : (after (exec (.pclr 1) (polyState [1] [2, 3] []))).poly 1 = [] := by decide
theorem test_ppush : (after (exec (.ppush 0 1) (polyState [2] [] []))).poly 0 = [2, 1] := by decide
theorem test_ppush_full : answer (exec (.ppush 0 1) tinyState) = some 0x0B000000 := by decide
theorem test_prdl_counts_zeros : answer (exec (.prdl 2) (polyState [] [] [0, 0, 0])) = some 3 := by decide
theorem test_prdc : answer (exec (.prdc 0 1) (polyState [2, 1] [] [])) = some 1 := by decide
theorem test_prdc_beyond : answer (exec (.prdc 0 2) (polyState [2, 1] [] [])) = some 0x0C000000 := by decide
theorem test_pmov_keeps_zeros : (after (exec (.pmov 1 0) (polyState [1, 0] [9] []))).poly 1 = [1, 0] := by decide
theorem test_pnorm : (after (exec (.pnorm 2 2) (polyState [] [] [7, 0, 0]))).poly 2 = [7] := by decide
theorem test_padd_pads :
    (after (exec (.padd 2 0 1) (polyState [1, 2, 3] [1, 2, 3, 0, 5] []))).poly 2 = [0, 0, 0, 0, 5] := by decide
theorem test_padd_self : (after (exec (.padd 0 0 0) (polyState [1, 2] [] []))).poly 0 = [] := by decide
theorem test_pmono : (after (exec (.pmono 4 0x1D 3) fieldState)).poly 4 = [0, 0, 0, 0x1D] := by decide
theorem test_pmono_zero : (after (exec (.pmono 4 0 2) fieldState)).poly 4 = [0, 0, 0] := by decide
theorem test_pmul :
    (after (exec (.pmul 2 0 1) (polyState [3, 0, 5] [7, 0x0B] []))).poly 2 = [9, 0x1D, 0x1B, 0x27] := by
  decide +kernel
theorem test_pmul_unnormalized :
    (after (exec (.pmul 1 0 1) (polyState [0] [1, 1] []))).poly 1 = [0, 0] := by decide +kernel
theorem test_pdiv_quotient :
    (after (exec (.pdiv 2 0 0 1) (polyState [0x12, 0x34, 0x56, 0x78, 0x9A] [5, 0, 3] []))).poly 2 =
      [0xA8, 0x28, 0x76] := by decide +kernel
theorem test_pdiv_remainder :
    (after (exec (.pdiv 2 0 0 1) (polyState [0x12, 0x34, 0x56, 0x78, 0x9A] [5, 0, 3] []))).poly 0 =
      [0x20, 0xBC] := by decide +kernel
theorem test_gen : (after (exec (.gen 0 3) fieldState)).poly 0 = [0x08, 0x0E, 0x07, 0x01] := by decide +kernel
theorem test_rchk :
    (after (exec (.rchk 4) { fieldState with dbuf := buf [0x12, 0x34] })).cbuf.value = [0x89, 0xA6, 0x8D, 0x84] := by
  decide +kernel
theorem test_rchk_over_capacity : answer (exec (.rchk 256) fieldState) = some 0x0B000000 := by decide
theorem test_econ : (after (exec (.econ 3) fieldState)).glog = [0, 198, 199, 3] := by decide +kernel
theorem test_enc : (after (exec (.enc 2) encoderState)).cbuf.value = [0x22, 0x04] := by decide +kernel
theorem test_enc_scratch : (after (exec (.enc 2) encoderState)).scr = [0, 0, 0x22, 0x04] := by decide +kernel
theorem test_dclr : (after (exec .dclr encoderState)).dbuf.value = [] := by decide
theorem test_dpush : (after (exec (.dpush 0x56) encoderState)).dbuf.value = [0x12, 0x34, 0x56] := by decide
theorem test_dpush_full : answer (exec (.dpush 0x77) tinyState) = some 0x0B000000 := by decide
theorem test_drdl : answer (exec .drdl encoderState) = some 2 := by decide
theorem test_drd : answer (exec (.drd 1) encoderState) = some 0x34 := by decide
theorem test_drd_beyond : answer (exec (.drd 2) encoderState) = some 0x0C000000 := by decide
theorem test_crdl : answer (exec .crdl { encoderState with cbuf := buf [0x22, 0x04] }) = some 2 := by decide
theorem test_crd : answer (exec (.crd 1) { encoderState with cbuf := buf [0x22, 0x04] }) = some 4 := by decide
theorem test_srd_status : answer (exec (.srd 0) encoderState) = some 3 := by decide
theorem test_srd_beyond : answer (exec (.srd 7) encoderState) = some 0x0C000000 := by decide
theorem test_step_illegal_word : answer (step (State.reset.withFetchWord 32 0x28241000)) = some 0x08000000 := by decide

/-! ## Witnesses: good states -/

theorem built_11D : buildTables 0x11D = some fieldState.tbl := by decide +kernel

/-- A good state of the field 0x11D from the parts that differ. -/
theorem good_of {s : State} (hp : s.params.wf) (hm : Memory.wf s) (ht : s.tbl = fieldState.tbl)
    (he : EncoderOk s) (hf : FaultsOk s) : s.Inv :=
  ⟨hp, hm, fun _ => ⟨0x11D, by decide, by decide, ht ▸ built_11D⟩, he, hf⟩

/-- Meets `s.Inv`, `s.fvalid = true` of every statement about good states with a field, and, since EVALID = 0 and FVALID
= 1, the premises of the clause of EncFollowsItsRule that ends in code 10. -/
theorem witness_good_field : fieldState.Inv ∧ fieldState.fvalid = true ∧ fieldState.evalid = false :=
  ⟨good_of (by decide) (by decide +kernel) rfl ⟨by decide, by decide⟩ (by unfold FaultsOk; decide), rfl, rfl⟩

/-- Meets `s.Inv`, `s.evalid = true` and `s.checkCount ≠ 0`: EncoderContextHoldsTheLogs, EncoderEqualsTheReference,
EncClearsTheDataPartOfTheScratch, EncFollowsItsRule, with n = 2, and with n = 3 for the clause of code 4. -/
theorem witness_good_encoder :
    encoderState.Inv ∧ encoderState.evalid = true ∧ (2 : Half).toNat = encoderState.checkCount ∧
      encoderState.checkCount ≠ 0 ∧ (3 : Half).toNat ≠ encoderState.checkCount ∧ encoderState.dbuf.len = 2 :=
  ⟨good_of (by decide) (by decide +kernel) rfl ⟨fun _ => ⟨rfl, by decide, by decide +kernel⟩, by decide⟩
    (by unfold FaultsOk; decide), by decide⟩

/-- An encoder of count 0 (ECON 0 leaves GLOG[0] = 0, R192): meets the zero-count clauses of EncFollowsItsRule and
ZeroCheckLengthWritesNoByte. -/
def zeroEncoder : State := { fieldState with evalid := true, checkCount := 0, glog := [0] }

theorem witness_zero_encoder :
    zeroEncoder.Inv ∧ zeroEncoder.fvalid = true ∧ zeroEncoder.evalid = true ∧ zeroEncoder.checkCount = 0 ∧
      (0 : Half).toNat = zeroEncoder.checkCount :=
  ⟨good_of (by decide) (by decide +kernel) rfl ⟨fun _ => ⟨rfl, by decide, by decide +kernel⟩, by decide⟩
    (by unfold FaultsOk; decide), by decide⟩

/-- A good state whose P0, P1 and data buffer are full and whose P2 is empty: the full-store clauses of
LoadCommandsFollowTheirRules and BufferCommandsFollowTheirRules; P2 and P0 also meet the clauses below and at the
length. -/
theorem witness_full_stores :
    tinyState.Inv ∧ (tinyState.poly 0).length = tinyState.params.pcap ∧
      (tinyState.poly 2).length < tinyState.params.pcap ∧ tinyState.dbuf.len = tinyState.params.dcap ∧
      (tinyState.poly 0).length ≤ (2 : Half).toNat ∧ (tinyState.poly 0)[(1 : Half).toNat]? = some 1 ∧
      tinyState.dbuf.len ≤ (1 : Half).toNat ∧ tinyState.dbuf.value[(0 : Half).toNat]? = some 7 ∧
      tinyState.cbuf.len ≤ (0 : Half).toNat :=
  ⟨good_of (by decide) (by decide +kernel) rfl ⟨by decide, by decide⟩ (by unfold FaultsOk; decide), by decide⟩

/-- The clauses of BufferCommandsFollowTheirRules on a buffer with room and on a check buffer that holds bytes. -/
def checkedState : State := { encoderState with cbuf := buf [0x22, 0x04] }

theorem witness_checked_state :
    checkedState.Inv ∧ checkedState.dbuf.len < checkedState.params.dcap ∧
      checkedState.cbuf.value[(1 : Half).toNat]? = some 4 :=
  ⟨good_of (by decide) (by decide +kernel) rfl ⟨fun _ => ⟨rfl, by decide, by decide +kernel⟩, by decide⟩
    (by unfold FaultsOk; decide), by decide⟩

/-! ## Witnesses: words and commands -/

theorem witness_DecodeOfEncode : WellFormed (.pdiv 2 3 0 1) := by decide
theorem witness_EncodeOfDecode : decode 0x284C1000 = some (.pdiv 2 3 0 1) := by decide

/-- Unassigned opcodes at the edges of the assigned ranges (R78). -/
theorem witness_UnassignedOpcodes :
    [0x02, 0x0F, 0x16, 0x1F, 0x29, 0x2F, 0x38, 0x3F, 0x42, 0x47, 0x4A, 0x4F, 0x56, 0x80].all (fun n : Nat =>
      !([0x01, 0x10, 0x11, 0x12, 0x13, 0x14, 0x15, 0x20, 0x21, 0x22, 0x23, 0x24, 0x25, 0x26, 0x27, 0x28,
      0x30, 0x31, 0x32, 0x33, 0x34, 0x35, 0x36, 0x37, 0x40, 0x41, 0x48, 0x49, 0x50, 0x51, 0x52, 0x53, 0x54,
      0x55].contains (bits (BitVec.ofNat 32 (n * 2 ^ 24)) 31 24))) := by decide

theorem witness_PdivToOneRegister :
    (0x28241000 : Word) &&& 0xFF000FFF = 0x28000000 ∧ r1 0x28241000 = r2 0x28241000 ∧ (0 : Reg) ≠ 1 := by decide

/-! ## Witnesses: steps -/

/-- The state right after reset with one word offered. -/
def offered (w : Word) : State := { State.reset with inbox := [.command w] }

theorem witness_StepRuns : (offered 0x50000000).inbox = [.command 0x50000000] ∧ decode 0x50000000 = some .dclr := by
  decide
theorem witness_IllegalWord : (offered 0).inbox = [.command 0] ∧ decode 0 = none := by decide
theorem witness_Idle : State.reset.inbox = [] := by decide
theorem witness_Rst : ({ fieldState with inbox := [.rst] } : State).inbox = [.rst] := by decide
theorem witness_EveryStepKeeps : fieldState.Inv ∧ step fieldState = .next fieldState := ⟨witness_good_field.1, rfl⟩

/-- FMUL before FINIT is a failing command: a response of status 9. -/
theorem witness_FailingCommand :
    (offered 0x12000102).inbox = [.command 0x12000102] ∧
    step (offered 0x12000102) = .next (after (step (offered 0x12000102))) ∧
    Responded (offered 0x12000102) (after (step (offered 0x12000102))) 0x09000000 ∧
    bits 0x09000000 31 24 ≠ 0 := ⟨rfl, rfl, by unfold Responded; decide, by decide⟩

/-- A step with no `rst` at the port: FaultsOnlyAccumulate and ScratchMarkNeverDecreases. -/
theorem witness_step_without_rst :
    step (offered 0) = .next (after (step (offered 0))) ∧ ∀ rest, (offered 0).inbox ≠ .rst :: rest :=
  ⟨rfl, fun _ h => by simp [offered] at h⟩

/-- The mark moves: ENC 2 on two data bytes. -/
theorem witness_mark_moves :
    (after (step { encoderState with inbox := [.command 0x49000002] })).scrHwm ≠ encoderState.scrHwm := by
  decide +kernel

/-! ## Witnesses: the Field block -/

theorem witness_Finit_range : (255 : Half).toNat < 256 ∧ 512 ≤ (512 : Half).toNat := by decide
theorem witness_Finit_reducible :
    256 ≤ (256 : Half).toNat ∧ (511 : Half).toNat < 512 ∧ buildTables 256 = none ∧ buildTables 511 = none := by
  decide +kernel
theorem witness_Finit_ok :
    256 ≤ (0x11D : Half).toNat ∧ (0x11D : Half).toNat < 512 ∧
      buildTables (0x11D : Half).toNat = some fieldState.tbl := ⟨by decide, by decide, built_11D⟩
theorem witness_Finit_sixteen :
    (0x11D : Half).toNat ∈ primitivePolynomials ∧ (0x1F5 : Half).toNat ∈ primitivePolynomials ∧
      (256 : Half).toNat ∉ primitivePolynomials ∧ (511 : Half).toNat ∉ primitivePolynomials := by decide
theorem witness_FieldCommands : State.reset.fvalid = false ∧ fieldState.fvalid = true := by decide

/-- Operands of the laws: nonzero bytes, the ends of the exponents' range, indices at the ends of the tables. -/
theorem witness_field_operands :
    (1 : Byte) ≠ 0 ∧ (255 : Byte) ≠ 0 ∧ (0 : Int) ≤ 0 ∧ (254 : Int) < 255 ∧ 253 < 254 ∧ 254 < 255 ∧ 509 < 510 ∧
      gfMul fieldState.tbl 0 5 = 0 := by decide

/-! ## Witnesses: the polynomial, generator and encoder blocks -/

/-- The capacity clauses of PMONO, PMUL and GEN at the boundary, in a unit of PCAP = 2. -/
theorem witness_capacity_clauses :
    tinyState.fvalid = true ∧ tinyState.params.pcap < (2 : Half).toNat + 1 ∧
      (1 : Half).toNat + 1 ≤ tinyState.params.pcap ∧
      tinyState.poly 0 ≠ [] ∧ tinyState.poly 1 ≠ [] ∧
      tinyState.params.pcap < (tinyState.poly 0).length + (tinyState.poly 1).length - 1 ∧
      tinyState.poly 2 = [] := by decide

theorem witness_Pmul_fits :
    ((polyState [1] [2, 1] []).poly 0).length + ((polyState [1] [2, 1] []).poly 1).length - 1 ≤
      (polyState [1] [2, 1] []).params.pcap := by decide

theorem witness_Pdiv :
    (2 : Reg) ≠ 3 ∧ State.reset.fvalid = false ∧ (polyState [1] [0, 0] [2]).fvalid = true ∧
      pNorm ((polyState [1] [0, 0] [2]).poly 1) = [] ∧ pNorm ((polyState [1] [0, 0] [2]).poly 2) ≠ [] := by decide

theorem witness_Multiply : ([1] : List Byte) ≠ [] ∧ ([] : List Byte) = [] := by decide

/-- Divisor and dividend of DivisionIdentityHolds and DivisionTerminatesWithinItsBound. -/
theorem witness_Division :
    pNorm [2, 1, 0] ≠ [] ∧ pDiv fieldState.tbl [5, 0, 0, 1] [2, 1] = some ([4, 2, 1], [0x0D]) ∧
      (pNorm [5, 0, 0, 1]).length + 1 - (pNorm [2, 1]).length ≤ 3 := by decide +kernel

theorem witness_Products : ([1, 1] : List Byte) ≠ [] ∧ Normalized [1, 1] ∧ Normalized [2, 1] :=
  ⟨by decide, by unfold Normalized; decide, by unfold Normalized; decide⟩

theorem witness_Generator : 0 < 255 ∧ 254 < 255 ∧ 255 ≤ 255 := by decide

theorem witness_Rchk :
    fieldState.fvalid = true ∧ fieldState.params.ccap < (256 : Half).toNat ∧
      (255 : Half).toNat ≤ fieldState.params.ccap ∧ (255 : Half).toNat ≠ 0 ∧
      (0 : Half).toNat ≤ fieldState.params.ccap ∧ (0 : Half).toNat = 0 := by decide

theorem witness_Codeword : 1 ≤ 1 ∧ ([0xFF, 0x01] : List Byte).length = ([0x12, 0x34] : List Byte).length := by decide

/-- 1 is the identity of the field of 0x11D. -/
theorem one_is_identity : (∀ v, gfMul fieldState.tbl 1 v = v) ∧ ∀ v, gfMul fieldState.tbl v 1 = v := by
  constructor <;> decide +kernel

/-- EconFollowsItsRule, a zero coefficient: with the field of 0x11D and the default CCAP, gen(255) = x^255 + 1 has the
coefficient 0 at x^254 (R171, R192). -/
theorem witness_Econ_zero_coefficient :
    fieldState.Inv ∧ fieldState.fvalid = true ∧ (255 : Half).toNat ≤ fieldState.params.ccap ∧
      ∃ k, k ≤ (255 : Half).toNat ∧ coef (gen fieldState.tbl (255 : Half).toNat) k = 0 :=
  ⟨witness_good_field.1, rfl, by decide, 254, by decide,
    (gen_top_coefficients one_is_identity.1 one_is_identity.2 254).2.trans (by decide +kernel)⟩

theorem witness_Econ_ok :
    (2 : Half).toNat ≤ fieldState.params.ccap ∧
      ∀ k, k ≤ (2 : Half).toNat → coef (gen fieldState.tbl (2 : Half).toNat) k ≠ 0 := by
  have h : gen fieldState.tbl (2 : Half).toNat = [2, 3, 1] := by decide +kernel
  refine ⟨by decide, fun k hk => ?_⟩
  rw [h]
  have : k = 0 ∨ k = 1 ∨ k = 2 := by
    have : (2 : Half).toNat = 2 := rfl
    omega
  rcases this with rfl | rfl | rfl <;> decide

/-- Two good states that differ in the scratch, its mark and the check buffer only: EncDoesNotLeakStaleBytes and
BehaviourIsAFunctionOfTheCompactView (with equal views once the mark and the check buffer agree). -/
def staleState : State := { encoderState with scr := [9, 9, 9, 9, 9], scrHwm := 5, cbuf := buf [8, 8] }

theorem witness_stale :
    staleState.Inv ∧ staleState.evalid = true ∧ encoderState.tbl = staleState.tbl ∧
      encoderState.checkCount = staleState.checkCount ∧
      encoderState.glog.take (encoderState.checkCount + 1) = staleState.glog.take (encoderState.checkCount + 1) ∧
      encoderState.dbuf.value = staleState.dbuf.value :=
  ⟨good_of (by decide) (by decide +kernel) rfl ⟨fun _ => ⟨rfl, by decide, by decide +kernel⟩, by decide⟩
    (by unfold FaultsOk; decide), rfl, rfl, rfl, rfl, rfl⟩

/-- A good state with stale bytes in every store, of the same view as the encoder's. -/
def staleView : State :=
  { encoderState with
    glog := [0, 25, 1, 77]
    scr := [9, 9]
    dbuf := { len := 2, bytes := [0x12, 0x34, 0x99] }
    cbuf := { len := 0, bytes := [5] } }

theorem witness_compact_view :
    staleView.Inv ∧ staleView.view = encoderState.view ∧ staleView.inbox = encoderState.inbox ∧
      staleView ≠ encoderState :=
  ⟨good_of (by decide) (by decide +kernel) rfl ⟨fun _ => ⟨rfl, by decide, by decide +kernel⟩, by decide⟩
    (by unfold FaultsOk; decide), by decide +kernel, rfl, fun h => by
      have := congrArg State.scr h
      revert this; decide⟩

/-! ## Witnesses: whole-machine rules -/

theorem witness_FieldTest :
    WellFormed (.pdiv 0 1 2 3) ∧ needsField (.pdiv 0 1 2 3) = true ∧ State.reset.fvalid = false ∧
      needsField .drdl = false := by decide

/-- A command and the response it adds: CommandsRaiseOnlyTheirOwnFaults, ReadsHaveNoSideEffects (a read that completes),
EachPartIsWrittenByItsOwnCommands, BehaviourDoesNotDependOnFaults. -/
theorem witness_read_completes :
    WellFormed .drdl ∧ readsOnly .drdl = true ∧ Instr.drdl ≠ .srd 1 ∧
      exec .drdl encoderState = .next (after (exec .drdl encoderState)) ∧
      Responded encoderState (after (exec .drdl encoderState)) 2 ∧ bits 2 31 24 = 0 :=
  ⟨by decide, by decide, by decide, rfl, by unfold Responded; decide, by decide⟩

/-- ReadsHaveNoSideEffects, a read that fails. -/
theorem witness_read_fails :
    readsOnly (.drd 2) = true ∧ exec (.drd 2) encoderState = .next (after (exec (.drd 2) encoderState)) ∧
      Responded encoderState (after (exec (.drd 2) encoderState)) 0x0C000000 ∧ bits 0x0C000000 31 24 ≠ 0 :=
  ⟨by decide, rfl, by unfold Responded; decide, by decide⟩

/-- EveryOtherByteOfMemoryIsUnchanged, at the two ends of what ENC 2 stores in CBUF. -/
theorem witness_memory_frame :
    encoderState.Inv ∧ WellFormed (.enc 2) ∧ storesTo (.enc 2) encoderState .cbuf 2 = false ∧
      storesTo (.enc 2) encoderState .cbuf 1 = true ∧ storesTo (.enc 2) encoderState .dbuf 0 = false ∧
      exec (.enc 2) encoderState = .next (after (exec (.enc 2) encoderState)) :=
  ⟨witness_good_encoder.1, by decide, by decide, by decide, by decide, rfl⟩

/-! ## Witnesses: runs; the assembler's text -/

/-- PloadLoadsTheRegister and DloadLoadsTheDataBuffer, at a full store; EncodingAMessageGivesACodeword. -/
theorem witness_runs :
    ([5] : List Byte).length ≤ tinyState.params.dcap ∧ ([3, 0] : List Byte).length ≤ tinyState.params.pcap ∧
      encoderState.Inv ∧ encoderState.fvalid = true ∧
      ([0x12, 0x34] : List Byte).length ≤ encoderState.params.dcap ∧ 1 ≤ (2 : Half).toNat ∧
      (2 : Half).toNat ≤ encoderState.params.ccap ∧
      ∀ k, k ≤ (2 : Half).toNat → coef (gen encoderState.tbl (2 : Half).toNat) k ≠ 0 :=
  ⟨by decide, by decide, witness_good_encoder.1, rfl, by decide, by decide, witness_Econ_ok.1, witness_Econ_ok.2⟩

/-- As the decode table of 95_test_vectors.md writes them (R82). -/
theorem test_assembly_pdiv : assembly (.pdiv 2 3 0 1) = "PDIV P2, P3, P0, P1" := by decide +kernel
theorem test_assembly_fexp : assembly (.fexp 0xFFFF) = "FEXP -1" := by decide +kernel

end Sys2Proof.Tests
end

section
/-! PROOFS. How a command ends: everything `exec` can do, said once. A command either raises a failure or completes, and
`Completes s i u` says what a completing command i has made of the state s before its response leaves. -/
namespace Sys2Proof.Machine

/-- The final scratch of ENC with the encoder in force (R191, R193). -/
def State.scratchResult (s : State) : List Byte :=
  encEncode s.tbl (s.glog.take (s.checkCount + 1)) s.checkCount s.dbuf.value

/-- `u` is what the command `i` makes of the state `s` when it completes, before its response leaves: one constructor
per command that writes, with the tests of its rule that must have passed. -/
inductive Completes (s : State) : Instr → State → Prop
  /-- The reading commands and the pure field commands write nothing (R55). -/
  | reads {i : Instr} (hi : readsOnly i = true) : Completes s i s
  /-- FINIT writes the tables and the flags together (R106). -/
  | finit {poly : Half} {t : Tables} (hlo : 256 ≤ poly.toNat) (hhi : poly.toNat < 512)
      (ht : buildTables poly.toNat = some t) :
      Completes s (.finit poly) { s with tbl := t, fvalid := true, evalid := false, checkCount := 0 }
  | pclr {rd : Reg} : Completes s (.pclr rd) (s.setPoly rd [])
  | ppush {rd : Reg} {b : Byte} (hcap : s.p[rd].len ≠ s.params.pcap) :
      Completes s (.ppush rd b) (s.setPoly rd (s.poly rd ++ [b]))
  | pmov {rd ra : Reg} : Completes s (.pmov rd ra) (s.setPoly rd (s.poly ra))
  | pnorm {rd ra : Reg} (hf : s.fvalid = true) : Completes s (.pnorm rd ra) (s.setPoly rd (pNorm (s.poly ra)))
  | padd {rd ra rb : Reg} (hf : s.fvalid = true) :
      Completes s (.padd rd ra rb) (s.setPoly rd (pAdd (s.poly ra) (s.poly rb)))
  | pmono {rd : Reg} {c : Byte} {n : Half} (hf : s.fvalid = true) (hcap : n.toNat + 1 ≤ s.params.pcap) :
      Completes s (.pmono rd c n) (s.setPoly rd (pMono c n.toNat))
  | pmul {rd ra rb : Reg} (hf : s.fvalid = true)
      (hcap : s.poly ra = [] ∨ s.poly rb = [] ∨ (s.poly ra).length + (s.poly rb).length - 1 ≤ s.params.pcap) :
      Completes s (.pmul rd ra rb) (s.setPoly rd (pMul s.tbl (s.poly ra) (s.poly rb)))
  | pdiv {rq rr ra rb : Reg} {q r : List Byte} (hne : rq ≠ rr) (hf : s.fvalid = true)
      (hqr : pDiv s.tbl (s.poly ra) (s.poly rb) = some (q, r)) :
      Completes s (.pdiv rq rr ra rb) ((s.setPoly rq q).setPoly rr r)
  | gen {rd : Reg} {e : Half} (hf : s.fvalid = true) (hcap : e.toNat + 1 ≤ s.params.pcap) :
      Completes s (.gen rd e) (s.setPoly rd (gen s.tbl e.toNat))
  /-- RCHK 0 sets CLEN to 0 (R174). -/
  | rchkZero {c : Half} (hf : s.fvalid = true) (hc : c.toNat = 0) :
      Completes s (.rchk c) { s with cbuf := s.cbuf.clear }
  | rchk {c : Half} (hf : s.fvalid = true) (hcap : c.toNat ≤ s.params.ccap) (hc : c.toNat ≠ 0) :
      Completes s (.rchk c) { s with cbuf := s.cbuf.write (refCheck s.tbl s.dbuf.value c.toNat) }
  | econ {c : Half} {g : List Byte} (hf : s.fvalid = true) (hcap : c.toNat ≤ s.params.ccap)
      (hg : encConstruct s.tbl c.toNat = some g) :
      Completes s (.econ c) { s with glog := overwrite s.glog g, checkCount := c.toNat, evalid := true }
  /-- ENC 0 sets CLEN to 0 (R193). -/
  | encZero {n : Half} (hf : s.fvalid = true) (he : s.evalid = true) (hn : n.toNat = s.checkCount)
      (hc : s.checkCount = 0) : Completes s (.enc n) { s with cbuf := s.cbuf.clear }
  | enc {n : Half} (hf : s.fvalid = true) (he : s.evalid = true) (hn : n.toNat = s.checkCount)
      (hc : s.checkCount ≠ 0) : Completes s (.enc n)
        { s with
          scr := overwrite s.scr s.scratchResult
          scrHwm := max s.scrHwm (s.dbuf.value.length + s.checkCount)
          cbuf := s.cbuf.write (s.scratchResult.drop s.dbuf.value.length) }
  | dclr : Completes s .dclr { s with dbuf := s.dbuf.clear }
  | dpush {b : Byte} (hcap : s.dbuf.len ≠ s.params.dcap) : Completes s (.dpush b) { s with dbuf := s.dbuf.push b }

/-- A result of the command `i` in the state `s`: a failure raised in s itself, or the response of a completion. -/
def Ends (i : Instr) (s : State) (r : Result) : Prop :=
  (∃ f, r = raise f s) ∨ ∃ u v, Completes s i u ∧ r = respond v u

/-! ## The tests of a command -/

section
variable {i : Instr} {s : State} {r r' : Result}

theorem Ends.raise (f : CmdFault) : Ends i s (raise f s) := .inl ⟨f, rfl⟩

theorem Ends.respond {u : State} (v : Half) (h : Completes s i u) : Ends i s (respond v u) := .inr ⟨u, v, h, rfl⟩

theorem Ends.done {u : State} (h : Completes s i u) : Ends i s (done u) := .respond 0 h

theorem Ends.ite {c : Prop} [Decidable c] (h : c → Ends i s r) (h' : ¬ c → Ends i s r') :
    Ends i s (if c then r else r') := by
  split
  · exact h ‹_›
  · exact h' ‹_›

theorem Ends.needField (h : s.fvalid = true → Ends i s r) : Ends i s (needField s r) := by
  by_cases hf : s.fvalid = true
  · rw [needField_ready r hf]
    exact h hf
  · rw [needField_not_ready r (by simpa using hf)]
    exact .raise _

end

/-! ## Every command ends so -/

theorem execFinit_ends (poly : Half) (s : State) : Ends (.finit poly) s (execFinit poly s) :=
  .ite (fun _ => .raise _) fun h => by
    split
    · exact .raise _
    · exact .done (.finit (by omega) (by omega) ‹_›)

theorem execPdiv_ends (rq rr ra rb : Reg) (s : State) : Ends (.pdiv rq rr ra rb) s (execPdiv rq rr ra rb s) :=
  .ite (fun _ => .raise _) fun hne => .needField fun hf => by
    split
    · exact .raise _
    · exact .done (.pdiv hne hf ‹_›)

theorem execPmul_ends (rd ra rb : Reg) (s : State) : Ends (.pmul rd ra rb) s (execPmul rd ra rb s) :=
  .needField fun hf => .ite (fun _ => .raise _) fun h => .done <| .pmul hf <| by
    simp only [← List.length_eq_zero_iff]
    omega

theorem execRchk_ends (c : Half) (s : State) : Ends (.rchk c) s (execRchk c s) :=
  .needField fun hf => .ite (fun _ => .raise _) fun hcap =>
    .ite (fun hc => .done (.rchkZero hf hc)) fun hc => .done (.rchk hf (by omega) hc)

theorem execEcon_ends (c : Half) (s : State) : Ends (.econ c) s (execEcon c s) :=
  .needField fun hf => .ite (fun _ => .raise _) fun hcap => by
    split
    · exact .raise _
    · exact .done (.econ hf (by omega) ‹_›)

theorem execEnc_ends (n : Half) (s : State) : Ends (.enc n) s (execEnc n s) :=
  .needField fun hf => .ite (fun _ => .raise _) fun he => .ite (fun _ => .raise _) fun hn => by
    have he : s.evalid = true := by simpa using he
    have hn : n.toNat = s.checkCount := by simpa using hn
    exact .ite (fun hc => .done (.encZero hf he hn hc)) fun hc => .done (.enc hf he hn hc)

theorem execSrd_ends (n : Half) (s : State) : Ends (.srd n) s (execSrd n s) := by
  unfold execSrd
  split
  · exact .raise _
  · exact .respond _ (.reads rfl)

/-- A command raises a failure or completes; nothing else can come of it. -/
theorem exec_ends (i : Instr) (s : State) : Ends i s (exec i s) := by
  cases i with
  | srd n => exact execSrd_ends n s
  | finit poly => exact execFinit_ends poly s
  | fadd x y => exact .needField fun _ => .respond _ (.reads rfl)
  | fmul x y => exact .needField fun _ => .respond _ (.reads rfl)
  | finv x => exact .needField fun _ => .respond _ (.reads rfl)
  | fexp e => exact .needField fun _ => .respond _ (.reads rfl)
  | flog x => exact .needField fun _ => .respond _ (.reads rfl)
  | pclr rd => exact .done .pclr
  | ppush rd b => exact .ite (fun _ => .raise _) fun h => .done (.ppush h)
  | prdl rs => exact .respond _ (.reads rfl)
  | prdc rs j => exact .ite (fun _ => .raise _) fun _ => .respond _ (.reads rfl)
  | pmov rd ra => exact .done .pmov
  | pnorm rd ra => exact .needField fun hf => .done (.pnorm hf)
  | padd rd ra rb => exact .needField fun hf => .done (.padd hf)
  | pmul rd ra rb => exact execPmul_ends rd ra rb s
  | pdiv rq rr ra rb => exact execPdiv_ends rq rr ra rb s
  | pmono rd c n => exact .needField fun hf => .ite (fun _ => .raise _) fun h => .done (.pmono hf (by omega))
  | gen rd e => exact .needField fun hf => .ite (fun _ => .raise _) fun h => .done (.gen hf (by omega))
  | rchk c => exact execRchk_ends c s
  | econ c => exact execEcon_ends c s
  | enc n => exact execEnc_ends n s
  | dclr => exact .done .dclr
  | dpush b => exact .ite (fun _ => .raise _) fun h => .done (.dpush h)
  | drdl => exact .respond _ (.reads rfl)
  | drd j => exact .ite (fun _ => .raise _) fun _ => .respond _ (.reads rfl)
  | crdl => exact .respond _ (.reads rfl)
  | crd j => exact .ite (fun _ => .raise _) fun _ => .respond _ (.reads rfl)

/-- The inversion of `exec`: the next state is that of a failure, or that of a completion with its response. -/
theorem exec_cases {i : Instr} {s t : State} (h : exec i s = .next t) :
    (∃ f, t = s.fail f) ∨ ∃ u v, Completes s i u ∧ t = u.emit (rspWord 0 v) := by
  obtain ⟨f, hf⟩ | ⟨u, v, hu, hv⟩ := exec_ends i s
  · exact .inl ⟨f, raise_eq_next.mp (hf ▸ h)⟩
  · exact .inr ⟨u, v, hu, respond_eq_next.mp (hv ▸ h)⟩

theorem exec_total (i : Instr) (s : State) : ∃ t, exec i s = .next t := by
  obtain ⟨f, hf⟩ | ⟨u, v, -, hv⟩ := exec_ends i s
  · exact ⟨_, hf⟩
  · exact ⟨_, hv⟩

end Sys2Proof.Machine
end

section
/-! PROOFS. What a completing command leaves unchanged, part of the state by part, and what follows for a step: the
writers of each part, the responses, FAULTS and the mark of the scratch. -/
namespace Sys2Proof.Machine

/-- Another register keeps its length and its store after `P[k] <- seq`. -/
theorem setPoly_p_ne (s : State) {k j : Reg} (seq : List Byte) (h : j ≠ k) : (s.setPoly k seq).p[j] = s.p[j] := by
  have : (k : Nat) ≠ j := fun e => h (Fin.ext e.symm)
  simp [this]

/-! ## The frame of a completion -/

section
variable {s u : State} {i : Instr} (h : Completes s i u)
include h

theorem Completes.params : u.params = s.params := by cases h <;> rfl

theorem Completes.inbox : u.inbox = s.inbox := by cases h <;> rfl

theorem Completes.rsps : u.rsps = s.rsps := by cases h <;> rfl

theorem Completes.faults : u.faults = s.faults := by cases h <;> rfl

/-- FVALID is set by FINIT and cleared by no command (R21). -/
theorem Completes.fvalid (hs : s.fvalid = true) : u.fvalid = true := by
  cases h with
  | finit => rfl
  | _ => exact hs

theorem Completes.field (hi : ∀ poly, i ≠ .finit poly) : u.tbl = s.tbl ∧ u.fvalid = s.fvalid := by
  cases h with
  | finit => exact absurd rfl (hi _)
  | _ => exact ⟨rfl, rfl⟩

/-- A register that is no destination keeps its length and every byte (R26). -/
theorem Completes.register {k : Reg} (hk : k ∉ polyDests i) : u.p[k] = s.p[k] := by
  cases h with
  | pclr | ppush | pmov | pnorm | padd | pmono | pmul | gen =>
    exact setPoly_p_ne _ _ (by simpa [polyDests] using hk)
  | pdiv =>
    obtain ⟨hq, hr⟩ : ¬ k = _ ∧ ¬ k = _ := by simpa [polyDests] using hk
    rw [setPoly_p_ne _ _ hr, setPoly_p_ne _ _ hq]
  | _ => rfl

theorem Completes.dbuf (hc : i ≠ .dclr) (hp : ∀ b, i ≠ .dpush b) : u.dbuf = s.dbuf := by
  cases h with
  | dclr => exact absurd rfl hc
  | dpush => exact absurd rfl (hp _)
  | _ => rfl

theorem Completes.cbuf (hr : ∀ c, i ≠ .rchk c) (he : ∀ n, i ≠ .enc n) : u.cbuf = s.cbuf := by
  cases h with
  | rchkZero | rchk => exact absurd rfl (hr _)
  | encZero | enc => exact absurd rfl (he _)
  | _ => rfl

theorem Completes.encoder (hi : ∀ poly, i ≠ .finit poly) (he : ∀ c, i ≠ .econ c) :
    u.evalid = s.evalid ∧ u.checkCount = s.checkCount := by
  cases h with
  | finit => exact absurd rfl (hi _)
  | econ => exact absurd rfl (he _)
  | _ => exact ⟨rfl, rfl⟩

theorem Completes.glog (he : ∀ c, i ≠ .econ c) : u.glog = s.glog := by
  cases h with
  | econ => exact absurd rfl (he _)
  | _ => rfl

theorem Completes.scratch (he : ∀ n, i ≠ .enc n) : u.scr = s.scr ∧ u.scrHwm = s.scrHwm := by
  cases h with
  | enc => exact absurd rfl (he _)
  | _ => exact ⟨rfl, rfl⟩

/-- The mark moves up, by ENC with a nonzero count only (R31, R193). -/
theorem Completes.mark :
    s.scrHwm ≤ u.scrHwm ∧
      (u.scrHwm ≠ s.scrHwm → ∃ n, i = .enc n ∧ n.toNat ≠ 0 ∧ u.scrHwm = s.dbuf.value.length + n.toNat) := by
  cases h with
  | @enc n _ _ hn hc =>
    refine ⟨le_max_left _ _, fun hne => ⟨n, rfl, hn ▸ hc, ?_⟩⟩
    dsimp only at hne ⊢
    omega
  | _ => exact ⟨le_rfl, fun hne => absurd rfl hne⟩

end

/-- Settles O48: a failure writes FAULTS alone, and a completion has the frame above. -/
theorem eachPartIsWrittenByItsOwnCommands : Obligations.EachPartIsWrittenByItsOwnCommands := by
  intro s t i h
  obtain ⟨f, rfl⟩ | ⟨u, v, hu, rfl⟩ := exec_cases h
  · simp
  · exact ⟨hu.params, hu.inbox, hu.fvalid, hu.field, fun _ => hu.register, hu.dbuf, hu.cbuf, hu.encoder, hu.glog,
      hu.scratch⟩

/-! ## Steps and responses -/

/-- Settles O7, by the definition of a step. -/
theorem stepRunsTheDecodedCommand : Obligations.StepRunsTheDecodedCommand := by
  intro s w rest i hin hd
  simp [step, hin, hd]

/-- A command word is taken and its step fails or completes: what `step` makes of it, whatever it decodes to. -/
theorem step_command {s : State} {w : Word} {rest : List HostEvent} (hin : s.inbox = .command w :: rest) :
    (∃ f, step s = .next ({ s with inbox := rest }.fail f)) ∨
      ∃ i u v, Completes { s with inbox := rest } i u ∧ step s = .next (u.emit (rspWord 0 v)) := by
  cases hd : decode w with
  | none => exact .inl ⟨.illegalCommand, by simp [step, hin, hd, raise]⟩
  | some i =>
    rw [stepRunsTheDecodedCommand s w rest i hin hd]
    obtain hf | ⟨u, v, hu, hv⟩ := exec_ends i { s with inbox := rest }
    · exact .inl hf
    · exact .inr ⟨i, u, v, hu, hv⟩

/-- Settles O14: the idle step and `rst` have a next state, and so has every command word. -/
theorem nothingStopsTheUnit : Obligations.NothingStopsTheUnit := by
  intro s
  cases hin : s.inbox with
  | nil => exact ⟨s, by simp [step, hin]⟩
  | cons e rest =>
    cases e with
    | rst => exact ⟨{ s with inbox := rest }.hostReset, by simp only [step, hin]⟩
    | command w =>
      obtain ⟨f, h⟩ | ⟨i, u, v, -, h⟩ := step_command hin
      · exact ⟨_, h⟩
      · exact ⟨_, h⟩

/-- The number of a response word whose status fits its eight bits (R76). -/
theorem rspWord_toNat {k : Nat} (hk : k < 256) (v : Half) : (rspWord k v).toNat = k * 2 ^ 24 + v.toNat := by
  simp only [rspWord, BitVec.toNat_ofNat]
  omega

theorem rspWord_status {k : Nat} (hk : k < 256) (v : Half) : bits (rspWord k v) 31 24 = k := by
  simp only [bits, rspWord_toNat hk]
  omega

/-- Bits 23 to 16 of a response are zero (R76). -/
theorem rspWord_middle {k : Nat} (hk : k < 256) (v : Half) : bits (rspWord k v) 23 16 = 0 := by
  simp only [bits, rspWord_toNat hk]
  omega

theorem code_mem_statuses (f : CmdFault) : f.code ∈ [0, 1, 2, 3, 4, 5, 8, 9, 10, 11, 12] := by
  cases f <;> decide

theorem code_lt (f : CmdFault) : f.code < 256 := by
  cases f <;> decide

/-- Settles O15: a failure and a completion each add the one response of their end. -/
theorem everyCommandGetsOneResponse : Obligations.EveryCommandGetsOneResponse := by
  intro s w rest hin
  obtain ⟨f, h⟩ | ⟨i, u, v, hu, h⟩ := step_command hin
  · refine ⟨_, rspWord f.code 0, h, rfl, rfl, rspWord_middle (code_lt f) 0, ?_⟩
    rw [rspWord_status (code_lt f)]
    exact code_mem_statuses f
  · refine ⟨_, rspWord 0 v, h, hu.inbox, ?_, rspWord_middle (by omega) v, ?_⟩
    · simp [Responded, hu.rsps]
    · rw [rspWord_status (by omega)]
      simp

/-- Settles O50: a failure sets a bit, and nothing else but `rst` writes FAULTS. -/
theorem faultsOnlyAccumulate : Obligations.FaultsOnlyAccumulate := by
  intro s t h hrst
  have hor (a b : BitVec 16) : a &&& (a ||| b) = a := by
    ext
    simp +contextual
  obtain ⟨-, rfl⟩ | ⟨rest, hin, -⟩ | ⟨w, rest, -, -, rfl⟩ | ⟨w, rest, i, -, -, h⟩ := step_cases h
  · exact BitVec.and_self
  · exact absurd hin (hrst rest)
  · exact hor _ _
  · obtain ⟨f, rfl⟩ | ⟨u, v, hu, rfl⟩ := exec_cases h
    · exact hor _ _
    · simp [hu.faults]

/-- Settles O52: of all that a step can do, only a completing ENC with a nonzero count writes the mark. -/
theorem scratchMarkNeverDecreases : Obligations.ScratchMarkNeverDecreases := by
  intro s t h hrst
  have stays {a b : Nat} {p : Prop} (hab : b = a) : a ≤ b ∧ (b ≠ a → p) := ⟨hab.ge, fun hne => absurd hab hne⟩
  obtain ⟨-, rfl⟩ | ⟨rest, hin, -⟩ | ⟨w, rest, -, -, rfl⟩ | ⟨w, rest, i, hin, hd, h⟩ := step_cases h
  · exact stays rfl
  · exact absurd hin (hrst rest)
  · exact stays rfl
  · obtain ⟨f, rfl⟩ | ⟨u, v, hu, rfl⟩ := exec_cases h
    · exact stays rfl
    · refine ⟨hu.mark.1, fun hne => ?_⟩
      obtain ⟨n, rfl, hn, hm⟩ := hu.mark.2 hne
      exact ⟨w, rest, n, hin, hd, hn, hm⟩

end Sys2Proof.Machine
end

section
/-! PROOFS. The frame of memory, byte by byte: a byte that `storesTo` does not name reads as before (R50). -/
namespace Sys2Proof.Machine

/-! ## Byte stores -/

theorem register_wf {s : State} (hm : Memory.wf s) (k : Reg) : s.p[k].wf s.params.pcap := by
  obtain ⟨-, -, hp, -⟩ := hm
  exact hp k

theorem dbuf_wf {s : State} (hm : Memory.wf s) : s.dbuf.wf s.params.dcap := by
  obtain ⟨-, -, -, hd, -⟩ := hm
  exact hd

theorem cbuf_wf {s : State} (hm : Memory.wf s) : s.cbuf.wf s.params.ccap := by
  obtain ⟨-, -, -, -, hc, -⟩ := hm
  exact hc

theorem overwrite_beyond {store new : List Byte} {a : Nat} (h : new.length ≤ a) :
    (overwrite store new)[a]? = store[a]? := by
  rw [overwrite_getElem?, if_neg (by omega)]

/-- Appending at the length register rewrites the bytes below it by themselves. -/
theorem push_elsewhere {cap a : Nat} {b : Buffer} {v : Byte} (hb : b.wf cap) (ha : a ≠ b.len) :
    (overwrite b.bytes (b.value ++ [v]))[a]? = b.bytes[a]? := by
  have hl := value_length_of_wf hb
  by_cases hlt : a < b.len
  · rw [overwrite_getElem?, if_pos (by simp; omega), List.getElem?_append_left (by omega), Buffer.value,
      List.getElem?_take_of_lt hlt]
  · exact overwrite_beyond (by simp; omega)

/-! ## One space written -/

section
variable {s : State} {sp : Space} {a : Nat}

theorem memRead_setPoly {k : Reg} {seq : List Byte}
    (h : sp = .coef k → (overwrite s.p[k].bytes seq)[a]? = s.p[k].bytes[a]?) :
    (s.setPoly k seq).memRead sp a = s.memRead sp a := by
  cases sp with
  | coef j =>
    by_cases hj : j = k
    · subst hj
      simpa [State.memRead, Buffer.write] using h rfl
    · exact congrArg (fun b : Buffer => b.bytes[a]?) (setPoly_p_ne s seq hj)
  | _ => rfl

theorem memRead_dbuf {b : Buffer} (h : sp = .dbuf → b.bytes[a]? = s.dbuf.bytes[a]?) :
    { s with dbuf := b }.memRead sp a = s.memRead sp a := by
  cases sp with
  | dbuf => exact h rfl
  | _ => rfl

theorem memRead_cbuf {b : Buffer} (h : sp = .cbuf → b.bytes[a]? = s.cbuf.bytes[a]?) :
    { s with cbuf := b }.memRead sp a = s.memRead sp a := by
  cases sp with
  | cbuf => exact h rfl
  | _ => rfl

end

/-- FINIT replaces whole tables: beyond their sizes, and at LOG[0], nothing is held before or after. -/
theorem memRead_tables {s : State} {t : Tables} {sp : Space} {a : Nat} (hm : Memory.wf s)
    (ht : t.exp.length = 510 ∧ t.log.length = 255) (he : sp = .exp → 510 ≤ a)
    (hl : sp = .log → a = 0 ∨ 256 ≤ a) : { s with tbl := t }.memRead sp a = s.memRead sp a := by
  obtain ⟨hexp, hlog, -⟩ := hm
  cases sp with
  | exp =>
    have := he rfl
    simp only [State.memRead]
    rw [List.getElem?_eq_none (by omega), List.getElem?_eq_none (by omega)]
  | log =>
    simp only [State.memRead]
    rcases hl rfl with h0 | h
    · rw [if_pos h0, if_pos h0]
    · rw [List.getElem?_eq_none (by omega), List.getElem?_eq_none (by omega)]
  | _ => rfl

theorem scratchResult_length (s : State) : s.scratchResult.length = s.dbuf.value.length + s.checkCount :=
  encEncode_length _ _ _ _

/-! ## The frame -/

/-- A completing command leaves every byte that it does not store to. -/
theorem Completes.memRead {s u : State} {i : Instr} {sp : Space} {a : Nat} (h : Completes s i u) (hm : Memory.wf s)
    (hs : storesTo i s sp a = false) : u.memRead sp a = s.memRead sp a := by
  cases h with
  | reads => rfl
  | finit _ _ ht =>
    refine memRead_tables hm (buildTables_lengths ht) ?_ ?_
    · rintro rfl
      simpa [storesTo] using hs
    · rintro rfl
      simp only [storesTo, decide_eq_false_iff_not] at hs
      omega
  | pclr => exact memRead_setPoly fun _ => overwrite_beyond (Nat.zero_le _)
  | @ppush rd =>
    refine memRead_setPoly ?_
    rintro rfl
    exact push_elsewhere (register_wf hm rd) (by simpa [storesTo] using hs)
  | pmov | pnorm | padd | pmono | pmul | gen =>
    refine memRead_setPoly ?_
    rintro rfl
    exact overwrite_beyond (by simpa [storesTo] using hs)
  | @pdiv rq rr _ _ q r _ _ hqr =>
    have hq : sp = .coef rq → q.length ≤ a := by
      rintro rfl
      simp only [storesTo, hqr, true_and, decide_eq_false_iff_not] at hs
      omega
    have hr : sp = .coef rr → r.length ≤ a := by
      rintro rfl
      simp only [storesTo, hqr, true_and, decide_eq_false_iff_not] at hs
      omega
    exact (memRead_setPoly fun h => overwrite_beyond (hr h)).trans
      (memRead_setPoly fun h => overwrite_beyond (hq h))
  | rchkZero | encZero => exact memRead_cbuf fun _ => rfl
  | rchk =>
    refine memRead_cbuf ?_
    rintro rfl
    exact overwrite_beyond (by simpa [storesTo] using hs)
  | econ _ _ hg =>
    cases sp with
    | glog => exact overwrite_beyond (by simpa [storesTo, encConstruct_length hg] using hs)
    | _ => rfl
  | enc _ _ hn hc =>
    have hl := scratchResult_length s
    cases sp with
    | scr =>
      simp only [storesTo, decide_eq_false_iff_not] at hs
      exact overwrite_beyond (by omega)
    | cbuf =>
      simp only [storesTo, decide_eq_false_iff_not] at hs
      exact overwrite_beyond (by rw [List.length_drop]; omega)
    | _ => rfl
  | dclr => exact memRead_dbuf fun _ => rfl
  | dpush =>
    refine memRead_dbuf ?_
    rintro rfl
    exact push_elsewhere (dbuf_wf hm) (by simpa [storesTo] using hs)

/-- Settles O49: a failure stores no byte, and a completion only those of `storesTo`. -/
theorem everyOtherByteOfMemoryIsUnchanged : Obligations.EveryOtherByteOfMemoryIsUnchanged := by
  intro s t i sp a hinv _ h hs
  obtain ⟨f, rfl⟩ | ⟨u, v, hu, rfl⟩ := exec_cases h
  · exact fail_memRead s f sp a
  · rw [emit_memRead]
    exact hu.memRead hinv.memory hs

end Sys2Proof.Machine
end

section
/-! PROOFS. The invariant: reset has it and every step keeps it. -/
namespace Sys2Proof.Machine

/-! ## Lengths of products and of the results of a division -/

theorem pMul_length {t : Tables} {x y : List Byte} (hx : x ≠ []) (hy : y ≠ []) :
    (pMul t x y).length = x.length + y.length - 1 := by
  rw [pMul, if_neg (by simp [hx, hy])]
  exact forUpto_invariant (fun _ (r : List Byte) => r.length = x.length + y.length - 1) (by simp)
    fun i r _ hr => by rw [xorRow_length, hr]

/-- One pass of the division keeps any bound on the two lengths, while the remainder is as long as the divisor. -/
theorem divPass_length_le {t : Tables} {d : List Byte} {n : Nat} {qr : List Byte × List Byte} (hd : d ≠ [])
    (hge : qr.2.length ≥ d.length) (hq : qr.1.length ≤ n) (hr : qr.2.length ≤ n) :
    (divPass t d qr).1.length ≤ n ∧ (divPass t d qr).2.length ≤ n := by
  have hdl : 0 < d.length := List.length_pos_iff.mpr hd
  refine ⟨(pAdd_length_le _ _).trans ?_, (pAdd_length_le _ _).trans ?_⟩
  · rw [pMono_length]
    omega
  · rw [pMul_length (List.ne_nil_of_length_eq_add_one (pMono_length _ _)) hd, pMono_length]
    omega

theorem divLoop_length_le {t : Tables} {d : List Byte} {n fuel : Nat} {qr : List Byte × List Byte} (hd : d ≠ [])
    (hq : qr.1.length ≤ n) (hr : qr.2.length ≤ n) :
    (divLoop t d fuel qr).1.length ≤ n ∧ (divLoop t d fuel qr).2.length ≤ n := by
  induction fuel generalizing qr with
  | zero => exact ⟨hq, hr⟩
  | succ fuel ih =>
    rw [divLoop]
    split
    · obtain ⟨hq', hr'⟩ := divPass_length_le (t := t) hd ‹_› hq hr
      exact ih hq' hr'
    · exact ⟨hq, hr⟩

/-- Quotient and remainder are no longer than the dividend, with any tables. -/
theorem pDiv_length_le {t : Tables} {x y q r : List Byte} (h : pDiv t x y = some (q, r)) :
    q.length ≤ x.length ∧ r.length ≤ x.length := by
  unfold pDiv at h
  split at h
  · cases h
  · have hd : pNorm y ≠ [] := fun he => ‹¬ (pNorm y).length = 0› (by rw [he]; rfl)
    have := divLoop_length_le (t := t) (fuel := (pNorm x).length) (qr := ([], pNorm x)) hd (Nat.zero_le _)
      (pNorm_length_le x)
    rwa [← divBy, Option.some.inj h] at this

/-! ## The invariant under each end of a command -/

theorem poly_length {s : State} (hm : Memory.wf s) (k : Reg) : (s.poly k).length = s.p[k].len :=
  value_length_of_wf (register_wf hm k)

theorem poly_length_le {s : State} (hm : Memory.wf s) (k : Reg) : (s.poly k).length ≤ s.params.pcap :=
  poly_length hm k ▸ (register_wf hm k).1.trans (register_wf hm k).2

/-- Good stores are all that a command must give which writes neither flags, tables, GLOG nor CHECKCOUNT. -/
theorem State.Inv.of_memory {s u : State} (h : s.Inv) (hm : Memory.wf u) (hp : u.params = s.params)
    (hfv : u.fvalid = s.fvalid) (ht : u.tbl = s.tbl) (hev : u.evalid = s.evalid) (hc : u.checkCount = s.checkCount)
    (hg : u.glog = s.glog) (hfl : u.faults = s.faults) : u.Inv := by
  obtain ⟨hparams, -, hfield, henc, hfaults⟩ := h
  refine ⟨by rwa [hp], hm, ?_, ?_, by rwa [FaultsOk, hfl]⟩
  · rwa [FieldOk, hfv, ht]
  · rwa [EncoderOk, hev, hfv, hc, hp, ht, hg]

theorem State.Inv.emit {s : State} (h : s.Inv) (r : Word) : (s.emit r).Inv :=
  h.of_memory h.memory rfl rfl rfl rfl rfl rfl rfl

theorem State.Inv.taken {s : State} (h : s.Inv) (rest : List HostEvent) : { s with inbox := rest }.Inv :=
  h.of_memory h.memory rfl rfl rfl rfl rfl rfl rfl

/-- No failure has the number of a reserved bit of FAULTS (R32, R230, R231). -/
theorem bit_not_reserved (f : CmdFault) : f.bit &&& 0xE0C1#16 = 0#16 := by
  cases f <;> decide

theorem State.Inv.fail {s : State} (h : s.Inv) (f : CmdFault) : (s.fail f).Inv := by
  refine ⟨h.params, h.memory, h.field, h.encoder, ?_⟩
  have hs : s.faults &&& 0xE0C1#16 = 0#16 := h.faults
  rw [FaultsOk, fail_faults, BitVec.and_comm, BitVec.and_or_distrib_left, BitVec.and_comm, hs, BitVec.and_comm,
    bit_not_reserved]
  rfl

theorem State.Inv.setPoly {s : State} (h : s.Inv) {k : Reg} {seq : List Byte} (hs : seq.length ≤ s.params.pcap) :
    (s.setPoly k seq).Inv :=
  h.of_memory (setPoly_memory_wf h.memory hs) rfl rfl rfl rfl rfl rfl rfl

theorem State.Inv.dbuf {s : State} (h : s.Inv) {b : Buffer} (hb : b.wf s.params.dcap) : { s with dbuf := b }.Inv :=
  h.of_memory (dbuf_memory_wf h.memory hb) rfl rfl rfl rfl rfl rfl rfl

theorem State.Inv.cbuf {s : State} (h : s.Inv) {b : Buffer} (hb : b.wf s.params.ccap) : { s with cbuf := b }.Inv :=
  h.of_memory (cbuf_memory_wf h.memory hb) rfl rfl rfl rfl rfl rfl rfl

/-- ENC: the scratch result holds DLEN + CHECKCOUNT bytes, which SCR and its mark have room for. -/
theorem State.Inv.scratch {s : State} (h : s.Inv) {r : List Byte} {n : Nat} (hr : r.length ≤ s.params.scap)
    (hn : n ≤ s.params.scap) : { s with scr := overwrite s.scr r, scrHwm := max s.scrHwm n }.Inv :=
  h.of_memory (scratch_memory_wf h.memory hr hn) rfl rfl rfl rfl rfl rfl rfl

/-- FINIT: valid tables, and no encoder until the next ECON (R106). -/
theorem State.Inv.finit {s : State} (h : s.Inv) {poly : Nat} {t : Tables} (hlo : 256 ≤ poly) (hhi : poly < 512)
    (ht : buildTables poly = some t) :
    { s with tbl := t, fvalid := true, evalid := false, checkCount := 0 }.Inv := by
  obtain ⟨he, hl⟩ := buildTables_lengths ht
  exact ⟨h.params, tables_memory_wf h.memory he.le hl.le, fun _ => ⟨poly, hlo, hhi, ht⟩, ⟨nofun, fun _ => rfl⟩, h.faults⟩

/-- ECON: GLOG holds what the current tables give for the count (R192). -/
theorem State.Inv.econ {s : State} (h : s.Inv) {c : Nat} {g : List Byte} (hf : s.fvalid = true)
    (hcap : c ≤ s.params.ccap) (hg : encConstruct s.tbl c = some g) :
    { s with glog := overwrite s.glog g, checkCount := c, evalid := true }.Inv := by
  have hl := encConstruct_length hg
  refine ⟨h.params, glog_memory_wf h.memory (by rw [hl]; exact Nat.succ_le_succ hcap), h.field, ⟨fun _ => ?_, nofun⟩,
    h.faults⟩
  refine ⟨hf, hcap, ?_⟩
  dsimp only
  rw [← hl, overwrite_take, hg]

/-! ## Every completion keeps the invariant -/

theorem Completes.inv {s u : State} {i : Instr} (h : Completes s i u) (hs : s.Inv) : u.Inv := by
  have hm := hs.memory
  have hdb := dbuf_wf hm
  have hcb := cbuf_wf hm
  cases h with
  | reads => exact hs
  | finit hlo hhi ht => exact hs.finit hlo hhi ht
  | pclr => exact hs.setPoly (Nat.zero_le _)
  | @ppush rd _ hcap =>
    have hle := poly_length_le hm rd
    have hlen := poly_length hm rd
    refine hs.setPoly ?_
    rw [List.length_append, List.length_singleton]
    omega
  | @pmov _ ra => exact hs.setPoly (poly_length_le hm ra)
  | @pnorm _ ra => exact hs.setPoly ((pNorm_length_le _).trans (poly_length_le hm ra))
  | @padd _ ra rb =>
    exact hs.setPoly ((pAdd_length_le _ _).trans (max_le (poly_length_le hm ra) (poly_length_le hm rb)))
  | pmono _ hcap => exact hs.setPoly (by rwa [pMono_length])
  | @pmul _ ra rb _ hcap =>
    refine hs.setPoly ?_
    by_cases hx : s.poly ra = []
    · simp [pMul, hx]
    · by_cases hy : s.poly rb = []
      · simp [pMul, hy]
      · rw [pMul_length hx hy]
        exact (hcap.resolve_left hx).resolve_left hy
  | @pdiv _ _ ra _ _ _ _ _ hqr =>
    obtain ⟨hq, hr⟩ := pDiv_length_le hqr
    have hle := poly_length_le hm ra
    exact (hs.setPoly (hq.trans hle)).setPoly (hr.trans hle)
  | gen _ hcap => exact hs.setPoly (by rwa [gen_length])
  | rchkZero | encZero => exact hs.cbuf (clear_wf hcb)
  | rchk _ hcap => exact hs.cbuf (write_wf hcb (by rwa [refCheck_length]))
  | econ hf hcap hg => exact hs.econ hf hcap hg
  | enc _ he =>
    obtain ⟨-, hcap, -⟩ := hs.encoder.1 he
    have hd : s.dbuf.value.length ≤ s.params.dcap := value_length_of_wf hdb ▸ hdb.1.trans hdb.2
    have hl := scratchResult_length s
    have hfit : s.dbuf.value.length + s.checkCount ≤ s.params.scap := Nat.add_le_add hd hcap
    refine (hs.scratch (hl ▸ hfit) hfit).cbuf (write_wf hcb ?_)
    rw [List.length_drop, hl, Nat.add_sub_cancel_left]
    exact hcap
  | dclr => exact hs.dbuf (clear_wf hdb)
  | dpush hcap => exact hs.dbuf (push_wf hdb hcap)

/-! ## Reset and step -/

/-- `rst` leaves a good state, whatever it interrupts, in any unit whose capacities meet R5. -/
theorem hostReset_inv {s : State} (hp : s.params.wf) : s.hostReset.Inv :=
  ⟨hp, hostReset_memory_wf s, nofun, ⟨nofun, fun _ => rfl⟩, by simp [FaultsOk, State.reset]⟩

/-- Settles O12: the state after power-on is `rst` of itself, with the default capacities. -/
theorem resetStateIsGood : Obligations.ResetStateIsGood :=
  hostReset_inv (s := State.reset) (by decide)

/-- Settles O11: the values of R36, read off the reset state. -/
theorem resetLeavesTheValuesOfTheTable : Obligations.ResetLeavesTheValuesOfTheTable := by
  refine ⟨rfl, fun k => ?_, rfl, rfl, rfl, rfl, rfl, rfl⟩
  have hk : State.reset.p[k] = Buffer.empty := Vector.getElem_replicate k.isLt
  simp [State.poly, hk, Buffer.empty, Buffer.value]

/-- Settles O13: each of the four things a step can do keeps the invariant. -/
theorem everyStepKeepsTheInvariant : Obligations.EveryStepKeepsTheInvariant := by
  intro s t hs h
  obtain ⟨-, rfl⟩ | ⟨rest, -, rfl⟩ | ⟨w, rest, -, -, rfl⟩ | ⟨w, rest, i, -, -, h⟩ := step_cases h
  · exact hs
  · exact hostReset_inv hs.params
  · exact (hs.taken rest).fail _
  · obtain ⟨f, rfl⟩ | ⟨u, v, hu, rfl⟩ := exec_cases h
    · exact (hs.taken rest).fail f
    · exact (hu.inv (hs.taken rest)).emit _

end Sys2Proof.Machine
end

section
/-! PROOFS. The field tables: a successful build holds the powers of 2 twice over, and LOG is their inverse (R22). -/
namespace Sys2Proof.Machine

/-- `2 ^ i` in the field of `poly`: i multiplications of 1 by the generator (R22). -/
def powTwo (poly i : Nat) : Nat := (xtime poly)^[i] 1

theorem powTwo_succ (poly i : Nat) : powTwo poly (i + 1) = xtime poly (powTwo poly i) :=
  Function.iterate_succ_apply' _ _ _

theorem powTwo_add (poly i j : Nat) : powTwo poly (i + j) = (xtime poly)^[i] (powTwo poly j) :=
  Function.iterate_add_apply _ _ _ _

/-- Multiplication by 2 stays in a byte: the polynomial of degree 8 clears the bit that overflows. -/
theorem xtime_lt {poly v : Nat} (hlo : 256 ≤ poly) (hhi : poly < 512) (hv : v < 256) : xtime poly v < 256 := by
  unfold xtime
  split
  · assumption
  · have h8 {n : Nat} (h : 256 ≤ n) (h' : n < 512) : n.testBit 8 = true := by
      rw [Nat.testBit_eq_decide_div_mod_eq]
      simp
      omega
    refine Nat.lt_pow_two_of_testBit (n := 8) _ fun i hi => ?_
    rcases hi.eq_or_lt with rfl | hi
    · rw [Nat.testBit_xor, h8 (by omega) (by omega), h8 hlo hhi]
      rfl
    · have hbig {n : Nat} (h : n < 512) : n.testBit i = false :=
        Nat.testBit_lt_two_pow (h.trans_le (Nat.pow_le_pow_right (by omega) hi : 2 ^ 9 ≤ 2 ^ i))
      rw [Nat.testBit_xor, hbig (by omega), hbig hhi]
      rfl

theorem powTwo_lt {poly : Nat} (hlo : 256 ≤ poly) (hhi : poly < 512) (i : Nat) : powTwo poly i < 256 := by
  induction i with
  | zero => exact (by decide : 1 < 256)
  | succ i ih => exact powTwo_succ poly i ▸ xtime_lt hlo hhi ih

/-! ## The loop of R100 -/

/-- What holds before pass i of the loop of `build_tables`: x is the i-th power, each power before it stands at both its
places of EXP, only power 0 among them is 1, and LOG has the index of each power that does not come again. -/
structure Built (poly i : Nat) (b : Build) : Prop where
  x : b.x = powTwo poly i
  expLength : b.exp.length = 510
  logLength : b.log.length = 256
  exp : ∀ j, j < i → b.exp[j]? = some (BitVec.ofNat 8 (powTwo poly j)) ∧
    b.exp[j + 255]? = some (BitVec.ofNat 8 (powTwo poly j))
  ne_one : ∀ j, j < i → j ≠ 0 → powTwo poly j ≠ 1
  log : ∀ j, j < i → (∀ k, j < k → k < i → powTwo poly k ≠ powTwo poly j) →
    b.log[powTwo poly j]? = some (BitVec.ofNat 8 j)

/-- One pass that does not fail. -/
theorem Built.pass {poly i : Nat} {b : Build} (hlo : 256 ≤ poly) (hhi : poly < 512) (h : Built poly i b) (hi : i < 255)
    (hok : ¬ (i ≠ 0 ∧ b.x = 1)) :
    Built poly (i + 1)
      { x := xtime poly b.x
        exp := (b.exp.set i (BitVec.ofNat 8 b.x)).set (i + 255) (BitVec.ofNat 8 b.x)
        log := b.log.set b.x (BitVec.ofNat 8 i) } := by
  obtain ⟨hx, hel, hll, hexp, hone, hlog⟩ := h
  have hlt := powTwo_lt hlo hhi
  rw [hx] at hok ⊢
  refine ⟨(powTwo_succ poly i).symm, by simpa using hel, by simpa using hll, fun j hj => ?_, fun j hj h0 => ?_,
    fun j hj hlast => ?_⟩
  · rcases Nat.lt_succ_iff_lt_or_eq.mp hj with hj | rfl
    · have h1 : i ≠ j := by omega
      have h2 : i + 255 ≠ j := by omega
      have h3 : i ≠ j + 255 := by omega
      simpa [List.getElem?_set, h1, h2, h3] using hexp j hj
    · have h1 : j + 255 < b.exp.length := by omega
      have h2 : j < b.exp.length := by omega
      simp [h1, h2]
  · rcases Nat.lt_succ_iff_lt_or_eq.mp hj with hj | rfl
    · exact hone j hj h0
    · exact fun h1 => hok ⟨h0, h1⟩
  · rcases Nat.lt_succ_iff_lt_or_eq.mp hj with hj | rfl
    · have hne : powTwo poly i ≠ powTwo poly j := hlast i hj (Nat.lt_succ_self i)
      rw [List.getElem?_set_ne hne]
      exact hlog j hj fun k hk hk' => hlast k hk (by omega)
    · exact List.getElem?_set_self (hll ▸ hlt j)

theorem Built.loop {poly left i : Nat} {b b' : Build} (hlo : 256 ≤ poly) (hhi : poly < 512) (h : Built poly i b)
    (hi : i + left = 255) (hb : buildLoop poly left i b = some b') : Built poly 255 b' := by
  induction left generalizing i b with
  | zero =>
    cases hb
    exact (hi : i = 255) ▸ h
  | succ left ih =>
    rw [buildLoop] at hb
    split at hb
    · cases hb
    · exact ih (h.pass hlo hhi (by omega) ‹_›) (by omega) hb

/-! ## The powers of 2 in a field that FINIT accepts -/

/-- The powers of 2 come back to 1 after 255 steps and not before: what the two tests of R100 check. -/
structure Primitive (poly : Nat) : Prop where
  lo : 256 ≤ poly
  hi : poly < 512
  last : powTwo poly 255 = 1
  ne_one : ∀ j, j < 255 → j ≠ 0 → powTwo poly j ≠ 1

theorem Primitive.ne_zero {poly : Nat} (h : Primitive poly) {i : Nat} (hi : i < 255) : powTwo poly i ≠ 0 := by
  intro h0
  have hz (k : Nat) : (xtime poly)^[k] 0 = 0 := Function.iterate_fixed (by simp [xtime]) k
  have := powTwo_add poly (255 - i) i
  rw [h0, hz, Nat.sub_add_cancel hi.le, h.last] at this
  omega

/-- If two of them agreed, going on from both to power 255 would reach 1 early. -/
theorem Primitive.ne_of_lt {poly i j : Nat} (h : Primitive poly) (hij : i < j) (hj : j < 255) :
    powTwo poly j ≠ powTwo poly i := by
  intro he
  have h1 := powTwo_add poly (255 - j) j
  have h2 := powTwo_add poly (255 - j) i
  rw [Nat.sub_add_cancel hj.le, h.last, he, ← h2] at h1
  exact h.ne_one (255 - j + i) (by omega) (by omega) h1.symm

/-- The 255 powers are all the nonzero bytes. -/
theorem Primitive.exists_powTwo {poly v : Nat} (h : Primitive poly) (hv : v ≠ 0) (hv' : v < 256) :
    ∃ i, i < 255 ∧ powTwo poly i = v := by
  have hinj : Set.InjOn (powTwo poly) (Finset.range 255) := by
    intro i hi j hj he
    simp only [Finset.coe_range, Set.mem_Iio] at hi hj
    rcases lt_trichotomy i j with hij | hij | hij
    · exact absurd he.symm (h.ne_of_lt hij hj)
    · exact hij
    · exact absurd he (h.ne_of_lt hij hi)
  have hsub : (Finset.range 255).image (powTwo poly) ⊆ Finset.Icc 1 255 := by
    intro w hw
    obtain ⟨i, hi, rfl⟩ := Finset.mem_image.mp hw
    have := h.ne_zero (Finset.mem_range.mp hi)
    have := powTwo_lt h.lo h.hi i
    rw [Finset.mem_Icc]
    omega
  have hall := Finset.eq_of_subset_of_card_le hsub (by rw [Finset.card_image_of_injOn hinj]; simp)
  have hmem : v ∈ (Finset.range 255).image (powTwo poly) := by
    rw [hall, Finset.mem_Icc]
    omega
  obtain ⟨i, hi, he⟩ := Finset.mem_image.mp hmem
  exact ⟨i, Finset.mem_range.mp hi, he⟩

/-! ## The tables -/

/-- The tables hold the powers of 2 of a primitive polynomial: EXP twice over, and LOG the index of each. -/
structure Tables.Powers (t : Tables) (poly : Nat) : Prop where
  primitive : Primitive poly
  exp : ∀ i, i < 255 → (t.expAt i).toNat = powTwo poly i
  exp_again : ∀ i, i < 255 → t.expAt (i + 255) = t.expAt i
  log_exp : ∀ i, i < 255 → t.logAt (t.expAt i) = i

/-- After the last pass and the final test x = 1, the tables built are those of a primitive polynomial. -/
theorem Built.powers {poly : Nat} {b : Build} (h : Built poly 255 b) (hlo : 256 ≤ poly) (hhi : poly < 512)
    (hlast : b.x = 1) : Tables.Powers { exp := b.exp, log := b.log.drop 1 } poly := by
  obtain ⟨hx, -, -, hexp, hone, hlog⟩ := h
  have hp : Primitive poly := ⟨hlo, hhi, hx ▸ hlast, hone⟩
  have hat {i : Nat} (hi : i < 255) : byteAt b.exp i = BitVec.ofNat 8 (powTwo poly i) := by
    rw [byteAt, (hexp i hi).1, Option.getD_some]
  have hnat (i : Nat) (hi : i < 255) : (byteAt b.exp i).toNat = powTwo poly i := by
    rw [hat hi, BitVec.toNat_ofNat, Nat.mod_eq_of_lt (powTwo_lt hlo hhi i)]
  refine ⟨hp, hnat, fun i hi => ?_, fun i hi => ?_⟩
  · rw [Tables.expAt, Tables.expAt, hat hi, byteAt, (hexp i hi).2, Option.getD_some]
  · have hentry := hlog i hi fun k hk hk' => hp.ne_of_lt hk hk'
    have hindex : 1 + (powTwo poly i - 1) = powTwo poly i := by
      have := hp.ne_zero hi
      omega
    rw [Tables.logAt, Tables.logByte, Tables.expAt, hnat i hi, byteAt, List.getElem?_drop, hindex, hentry,
      Option.getD_some, BitVec.toNat_ofNat, Nat.mod_eq_of_lt (by omega)]

theorem buildTables_powers {poly : Nat} {t : Tables} (hlo : 256 ≤ poly) (hhi : poly < 512)
    (h : buildTables poly = some t) : t.Powers poly := by
  have hstart : Built poly 0 { x := 1, exp := List.replicate 510 0, log := List.replicate 256 0 } :=
    ⟨rfl, List.length_replicate, List.length_replicate, nofun, nofun, nofun⟩
  unfold buildTables at h
  split at h
  · cases h
  next b hb =>
    split at h
    · cases h
    next hlast =>
      cases h
      exact (hstart.loop hlo hhi rfl hb).powers hlo hhi (by simpa using hlast)

section
variable {t : Tables} {poly : Nat} (h : t.Powers poly)
include h

theorem Tables.Powers.exp_zero : t.expAt 0 = 1 :=
  BitVec.eq_of_toNat_eq (h.exp 0 (by omega))

theorem Tables.Powers.exp_ne_zero {i : Nat} (hi : i < 510) : t.expAt i ≠ 0 := by
  have below {j : Nat} (hj : j < 255) : t.expAt j ≠ 0 := fun h0 =>
    h.primitive.ne_zero hj ((h.exp j hj).symm.trans (congrArg BitVec.toNat h0))
  by_cases hlt : i < 255
  · exact below hlt
  · obtain ⟨j, rfl⟩ : ∃ j, i = j + 255 := ⟨i - 255, by omega⟩
    exact h.exp_again j (by omega) ▸ below (by omega)

/-- Every nonzero byte is a power of 2, and LOG says which. -/
theorem Tables.Powers.exp_log {x : Byte} (hx : x ≠ 0) : t.logAt x ≤ 254 ∧ t.expAt (t.logAt x) = x := by
  have hx' : x.toNat ≠ 0 := fun h0 => hx (BitVec.eq_of_toNat_eq h0)
  obtain ⟨i, hi, he⟩ := h.primitive.exists_powTwo hx' x.isLt
  have hexp : t.expAt i = x := BitVec.eq_of_toNat_eq ((h.exp i hi).trans he)
  have hlog : t.logAt x = i := hexp ▸ h.log_exp i hi
  exact ⟨by omega, hlog.symm ▸ hexp⟩

theorem Tables.Powers.log_one : t.logAt 1 = 0 :=
  h.exp_zero ▸ h.log_exp 0 (by omega)

theorem Tables.Powers.one_mul (v : Byte) : gfMul t 1 v = v := by
  by_cases hv : v = 0
  · simp [gfMul, hv]
  · rw [gfMul, if_neg (by simpa using hv), h.log_one, Nat.zero_add, (h.exp_log hv).2]

theorem Tables.Powers.mul_one (v : Byte) : gfMul t v 1 = v := by
  by_cases hv : v = 0
  · simp [gfMul, hv]
  · rw [gfMul, if_neg (by simpa using hv), h.log_one, Nat.add_zero, (h.exp_log hv).2]

end

/-- A good state with a field has the tables of a primitive polynomial. -/
theorem State.Inv.powers {s : State} (h : s.Inv) (hf : s.fvalid = true) : ∃ poly, s.tbl.Powers poly := by
  obtain ⟨poly, hlo, hhi, hb⟩ := h.field hf
  exact ⟨poly, buildTables_powers hlo hhi hb⟩

/-- Settles O19, from the powers that every successful build leaves. -/
theorem tablesHoldThePowersOfTwo : Obligations.TablesHoldThePowersOfTwo := by
  intro s hs hf
  obtain ⟨poly, h⟩ := hs.powers hf
  refine ⟨poly, h.primitive.lo, h.primitive.hi, h.exp_zero, fun i hi => ?_, h.exp_again, h.log_exp,
    fun i => h.exp_ne_zero, fun x => h.exp_log⟩
  rw [h.exp _ (by omega), h.exp _ (by omega), powTwo_succ]

/-! ## The encoder context -/

/-- What a successful construction holds at entry j: the log of a nonzero coefficient (R190). -/
theorem encConstruct_entry {t : Tables} {c j : Nat} {g : List Byte} (h : encConstruct t c = some g) (hj : j ≤ c) :
    coef (gen t c) (c - j) ≠ 0 ∧ g[j]? = some (t.logByte (coef (gen t c) (c - j))) := by
  have hd : (descending (gen t c) c)[j]? = some (coef (gen t c) (c - j)) := by
    simp [descending, List.getElem?_range (Nat.lt_succ_of_le hj)]
  simp only [encConstruct] at h
  split at h
  · cases h
  next hany =>
    cases h
    refine ⟨fun h0 => hany ?_, by rw [List.getElem?_map, hd]; rfl⟩
    exact List.any_eq_true.mpr ⟨_, List.mem_of_getElem? hd, by simpa using h0⟩

/-- Settles O38: the entries are logs of nonzero coefficients, and the first one is that of the leading 1. -/
theorem encoderContextHoldsTheLogs : Obligations.EncoderContextHoldsTheLogs := by
  intro s hs he
  obtain ⟨hf, -, hg⟩ := hs.encoder.1 he
  obtain ⟨poly, h⟩ := hs.powers hf
  have entry {j : Nat} (hj : j ≤ s.checkCount) :
      s.glog[j]? = some (s.tbl.logByte (coef (gen s.tbl s.checkCount) (s.checkCount - j))) := by
    rw [← (encConstruct_entry hg hj).2, List.getElem?_take_of_lt (Nat.lt_succ_of_le hj)]
  refine ⟨hf, fun j hj => ?_, ?_⟩
  · have hne := (encConstruct_entry hg hj).1
    exact ⟨hne, _, entry hj, rfl, (h.exp_log hne).1⟩
  · have hmonic := (gen_top_coefficients h.one_mul h.mul_one s.checkCount).1
    rw [entry (Nat.zero_le _), Nat.sub_zero, hmonic]
    exact congrArg some (BitVec.eq_of_toNat_eq h.log_one)

end Sys2Proof.Machine
end

section
/-! PROOFS. The compact view decides everything: two good states of one view and one stream of events answer each
command alike and stay of one view (R37). A command's proof follows its tests: each test, value and sequence written
reads the view alone. -/
namespace Sys2Proof.Machine

/-! ## What each write makes of the view -/

theorem view_setPoly (s : State) (k : Reg) (seq : List Byte) :
    (s.setPoly k seq).view = { s.view with p := s.view.p.set k seq } := by
  have hp : (s.setPoly k seq).p.map Buffer.value = (s.p.map Buffer.value).set k seq := by simp
  exact congrArg (fun p => { s.view with p }) hp

theorem view_finit (s : State) (t : Tables) :
    { s with tbl := t, fvalid := true, evalid := false, checkCount := 0 }.view =
      { s.view with field := some t, enc := none } := rfl

/-- ECON puts its count and its logs in the view, whatever GLOG holds beyond them. -/
theorem view_econ (s : State) {c : Nat} {g : List Byte} (hg : g.length = c + 1) :
    { s with glog := overwrite s.glog g, checkCount := c, evalid := true }.view =
      { s.view with enc := some (c, g) } := by
  simp [State.view, ← hg, overwrite_take]

theorem view_hostReset (s : State) : s.hostReset.view = { State.reset.view with params := s.params } := rfl

/-! ## Two good states of one view -/

structure Alike (s s' : State) : Prop where
  good : s.Inv
  good' : s'.Inv
  view : s.view = s'.view
  inbox : s.inbox = s'.inbox

namespace Alike
variable {s s' : State} (h : Alike s s')
include h

theorem params : s.params = s'.params := congrArg View.params h.view

theorem fvalid : s.fvalid = s'.fvalid := by
  have hv : (if s.fvalid then some s.tbl else none) = if s'.fvalid then some s'.tbl else none :=
    congrArg View.field h.view
  cases hs : s.fvalid <;> cases hs' : s'.fvalid <;> simp [hs, hs'] at hv ⊢

theorem tbl (hf : s.fvalid = true) : s.tbl = s'.tbl := by
  have hv : (if s.fvalid then some s.tbl else none) = if s'.fvalid then some s'.tbl else none :=
    congrArg View.field h.view
  rw [if_pos hf, if_pos (h.fvalid ▸ hf)] at hv
  exact Option.some.inj hv

theorem poly (k : Reg) : s.poly k = s'.poly k := by
  have hv : (s.view.p)[k] = (s'.view.p)[k] := by rw [h.view]
  simpa [State.view, State.poly] using hv

theorem dbuf : s.dbuf.value = s'.dbuf.value := congrArg View.dbuf h.view

theorem cbuf : s.cbuf.value = s'.cbuf.value := congrArg View.cbuf h.view

theorem scrHwm : s.scrHwm = s'.scrHwm := congrArg View.scrHwm h.view

theorem faults : s.faults = s'.faults := congrArg View.faults h.view

theorem evalid : s.evalid = s'.evalid := by
  have hv : (if s.evalid then some (s.checkCount, s.glog.take (s.checkCount + 1)) else none) =
      if s'.evalid then some (s'.checkCount, s'.glog.take (s'.checkCount + 1)) else none :=
    congrArg View.enc h.view
  cases hs : s.evalid <;> cases hs' : s'.evalid <;> simp [hs, hs'] at hv ⊢

theorem encoder (he : s.evalid = true) :
    s.checkCount = s'.checkCount ∧ s.glog.take (s.checkCount + 1) = s'.glog.take (s'.checkCount + 1) := by
  have hv : (if s.evalid then some (s.checkCount, s.glog.take (s.checkCount + 1)) else none) =
      if s'.evalid then some (s'.checkCount, s'.glog.take (s'.checkCount + 1)) else none :=
    congrArg View.enc h.view
  rw [if_pos he, if_pos (h.evalid ▸ he)] at hv
  exact Prod.mk.inj (Option.some.inj hv)

/-- CHECKCOUNT is in the view while EVALID = 1, and 0 otherwise (R32). -/
theorem checkCount : s.checkCount = s'.checkCount := by
  by_cases he : s.evalid = true
  · exact (h.encoder he).1
  · have he : s.evalid = false := by simpa using he
    rw [h.good.encoder.2 he, h.good'.encoder.2 (h.evalid ▸ he)]

theorem register_len (k : Reg) : s.p[k].len = s'.p[k].len := by
  rw [← poly_length h.good.memory, ← poly_length h.good'.memory, h.poly]

theorem scratchResult (hf : s.fvalid = true) (he : s.evalid = true) : s.scratchResult = s'.scratchResult := by
  obtain ⟨hc, hg⟩ := h.encoder he
  rw [State.scratchResult, State.scratchResult, hg, h.tbl hf, hc, h.dbuf]

theorem statusRegister (n : Nat) : s.statusRegister n = s'.statusRegister n := by
  unfold State.statusRegister
  split <;> simp [State.status, h.params, h.fvalid, h.evalid, h.checkCount, h.scrHwm, h.faults]

end Alike

/-- Buffers of one value, whatever their stores hold beyond it, have one length and read alike below it. -/
theorem buffer_len_eq {cap cap' : Nat} {b b' : Buffer} (hb : b.wf cap) (hb' : b'.wf cap') (hv : b.value = b'.value) :
    b.len = b'.len := by
  rw [← value_length_of_wf hb, ← value_length_of_wf hb', hv]

theorem byteAt_eq {cap cap' i : Nat} {b b' : Buffer} (hb : b.wf cap) (hb' : b'.wf cap') (hv : b.value = b'.value)
    (hi : i < b.len) : byteAt b.bytes i = byteAt b'.bytes i := by
  have hi' : i < b'.len := buffer_len_eq hb hb' hv ▸ hi
  exact Option.some.inj ((byteAt_value hb hi).symm.trans ((congrArg (·[i]?) hv).trans (byteAt_value hb' hi')))

/-! ## Results that agree -/

/-- Results of one command in s and in s': both go on, with the same new responses, in states of one view and one
stream of events. -/
def Agree (s s' : State) (r r' : Result) : Prop :=
  ∃ t t', r = .next t ∧ r' = .next t' ∧ t.view = t'.view ∧ t.inbox = t'.inbox ∧
    ∃ new, t.rsps = s.rsps ++ new ∧ t'.rsps = s'.rsps ++ new

section
variable {s s' : State} {r₁ r₁' r₂ r₂' : Result}

theorem Agree.respond {u u' : State} (h : Alike s s') {v v' : Half} (hv : v = v') (hu : u.view = u'.view)
    (hc : u.inbox = s.inbox ∧ u.rsps = s.rsps) (hc' : u'.inbox = s'.inbox ∧ u'.rsps = s'.rsps) :
    Agree s s' (respond v u) (respond v' u') := by
  obtain ⟨hi, hr⟩ := hc
  obtain ⟨hi', hr'⟩ := hc'
  subst hv
  refine ⟨_, _, rfl, rfl, hu, ?_, [rspWord 0 v], by simp [hr], by simp [hr']⟩
  rw [emit_inbox, emit_inbox, hi, hi', h.inbox]

/-- A command that only answers: the same value is all it takes. -/
theorem Agree.answer (h : Alike s s') {v v' : Half} (hv : v = v') :
    Agree s s' (Machine.respond v s) (Machine.respond v' s') :=
  .respond h hv h.view ⟨rfl, rfl⟩ ⟨rfl, rfl⟩

theorem Agree.raise (h : Alike s s') (f : CmdFault) : Agree s s' (raise f s) (raise f s') :=
  ⟨_, _, rfl, rfl, congrArg (fun v : View => { v with faults := v.faults ||| f.bit }) h.view, h.inbox,
    [rspWord f.code 0], rfl, rfl⟩

theorem Agree.ite {c c' : Prop} [Decidable c] [Decidable c'] (hc : c ↔ c') (h₁ : c → Agree s s' r₁ r₁')
    (h₂ : ¬ c → Agree s s' r₂ r₂') : Agree s s' (if c then r₁ else r₂) (if c' then r₁' else r₂') := by
  by_cases h : c
  · rw [if_pos h, if_pos (hc.mp h)]
    exact h₁ h
  · rw [if_neg h, if_neg (mt hc.mpr h)]
    exact h₂ h

theorem Agree.needField (h : Alike s s') (hk : s.fvalid = true → Agree s s' r₁ r₁') :
    Agree s s' (needField s r₁) (needField s' r₁') := by
  by_cases hf : s.fvalid = true
  · rw [needField_ready _ hf, needField_ready _ (h.fvalid ▸ hf)]
    exact hk hf
  · have hf : s.fvalid = false := by simpa using hf
    rw [needField_not_ready _ hf, needField_not_ready _ (h.fvalid ▸ hf)]
    exact .raise h _

theorem Agree.setPoly (h : Alike s s') {k : Reg} {seq seq' : List Byte} (hs : seq = seq') :
    Agree s s' (done (s.setPoly k seq)) (done (s'.setPoly k seq')) :=
  .respond h rfl (by rw [view_setPoly, view_setPoly, h.view, hs]) ⟨rfl, rfl⟩ ⟨rfl, rfl⟩

theorem Agree.dbuf (h : Alike s s') {b b' : Buffer} (hb : b.value = b'.value) :
    Agree s s' (done { s with dbuf := b }) (done { s' with dbuf := b' }) :=
  .respond h rfl (congrArg₂ (fun (v : View) seq => { v with dbuf := seq }) h.view hb) ⟨rfl, rfl⟩ ⟨rfl, rfl⟩

theorem Agree.cbuf (h : Alike s s') {b b' : Buffer} (hb : b.value = b'.value) :
    Agree s s' (done { s with cbuf := b }) (done { s' with cbuf := b' }) :=
  .respond h rfl (congrArg₂ (fun (v : View) seq => { v with cbuf := seq }) h.view hb) ⟨rfl, rfl⟩ ⟨rfl, rfl⟩

/-- ENC with a nonzero count: the scratch itself is not in the view. -/
theorem Agree.encode (h : Alike s s') {scr scr' : List Byte} {m m' : Nat} {b b' : Buffer} (hm : m = m')
    (hb : b.value = b'.value) :
    Agree s s' (done { s with scr := scr, scrHwm := m, cbuf := b })
      (done { s' with scr := scr', scrHwm := m', cbuf := b' }) := by
  subst hm
  exact .respond h rfl (congrArg₂ (fun (v : View) seq => { v with scrHwm := m, cbuf := seq }) h.view hb) ⟨rfl, rfl⟩
    ⟨rfl, rfl⟩

/-- DRD and CRD and PRDC on buffers of one value. -/
theorem Agree.readByte {cap cap' : Nat} {b b' : Buffer} (h : Alike s s') (hb : b.wf cap) (hb' : b'.wf cap')
    (hv : b.value = b'.value) (i : Nat) :
    Agree s s'
      (if i ≥ b.len then Machine.raise .indexOutOfRange s else Machine.respond (valueOfByte (byteAt b.bytes i)) s)
      (if i ≥ b'.len then Machine.raise .indexOutOfRange s' else Machine.respond (valueOfByte (byteAt b'.bytes i)) s') :=
  .ite (by rw [buffer_len_eq hb hb' hv]) (fun _ => .raise h _) fun hi =>
    .answer h (congrArg valueOfByte (byteAt_eq hb hb' hv (Nat.not_le.mp hi)))

end

/-! ## Commands with tests or results of their own -/

section
variable {s s' : State} (h : Alike s s')
include h

theorem execSrd_agree (n : Half) : Agree s s' (execSrd n s) (execSrd n s') := by
  unfold execSrd
  rw [h.statusRegister]
  split
  · exact .raise h _
  · exact .answer h rfl

theorem execFinit_agree (poly : Half) : Agree s s' (execFinit poly s) (execFinit poly s') :=
  .ite Iff.rfl (fun _ => .raise h _) fun _ => by
    split
    · exact .raise h _
    · exact .respond h rfl (by rw [view_finit, view_finit, h.view]) ⟨rfl, rfl⟩ ⟨rfl, rfl⟩

theorem execPmul_agree (rd ra rb : Reg) : Agree s s' (execPmul rd ra rb s) (execPmul rd ra rb s') :=
  .needField h fun hf => .ite (by rw [h.poly, h.poly, h.params]) (fun _ => .raise h _) fun _ =>
    .setPoly h (by rw [h.poly, h.poly, h.tbl hf])

theorem execPdiv_agree (rq rr ra rb : Reg) : Agree s s' (execPdiv rq rr ra rb s) (execPdiv rq rr ra rb s') :=
  .ite Iff.rfl (fun _ => .raise h _) fun _ => .needField h fun hf => by
    rw [h.tbl hf, h.poly, h.poly]
    split
    · exact .raise h _
    · exact .respond h rfl (by simp only [view_setPoly, h.view]) ⟨rfl, rfl⟩ ⟨rfl, rfl⟩

theorem execRchk_agree (c : Half) : Agree s s' (execRchk c s) (execRchk c s') :=
  .needField h fun hf => .ite (by rw [h.params]) (fun _ => .raise h _) fun _ =>
    .ite Iff.rfl (fun _ => .cbuf h (by simp only [clear_value])) fun _ =>
      .cbuf h (by rw [write_value, write_value, h.tbl hf, h.dbuf])

theorem execEcon_agree (c : Half) : Agree s s' (execEcon c s) (execEcon c s') :=
  .needField h fun hf => .ite (by rw [h.params]) (fun _ => .raise h _) fun _ => by
    have hc : encConstruct s.tbl c.toNat = encConstruct s'.tbl c.toNat := by rw [h.tbl hf]
    rw [hc]
    split
    · exact .raise h _
    next g hg =>
      have hl := encConstruct_length hg
      exact .respond h rfl (by rw [view_econ s hl, view_econ s' hl, h.view]) ⟨rfl, rfl⟩ ⟨rfl, rfl⟩

theorem execEnc_agree (n : Half) : Agree s s' (execEnc n s) (execEnc n s') :=
  .needField h fun hf => .ite (by rw [h.evalid]) (fun _ => .raise h _) fun he =>
    .ite (by rw [h.checkCount]) (fun _ => .raise h _) fun _ =>
      .ite (by rw [h.checkCount]) (fun _ => .cbuf h (by simp only [clear_value])) fun _ => by
        have hdrop : s.scratchResult.drop s.dbuf.value.length = s'.scratchResult.drop s'.dbuf.value.length := by
          rw [h.scratchResult hf (by simpa using he), h.dbuf]
        exact .encode h (by rw [h.scrHwm, h.dbuf, h.checkCount])
          (((write_value _ _).trans hdrop).trans (write_value _ _).symm)

end

/-- Every command in two good states of one view. -/
theorem exec_agree {s s' : State} (h : Alike s s') (i : Instr) : Agree s s' (exec i s) (exec i s') := by
  have hm := h.good.memory
  have hm' := h.good'.memory
  have hd := dbuf_wf hm
  have hd' := dbuf_wf hm'
  have hc := cbuf_wf hm
  have hc' := cbuf_wf hm'
  cases i with
  | srd n => exact execSrd_agree h n
  | finit poly => exact execFinit_agree h poly
  | fadd x y => exact .needField h fun _ => .answer h rfl
  | fmul x y => exact .needField h fun hf => .answer h (by rw [h.tbl hf])
  | finv x => exact .needField h fun hf => .answer h (by rw [h.tbl hf])
  | fexp e => exact .needField h fun hf => .answer h (by rw [h.tbl hf])
  | flog x => exact .needField h fun hf => .answer h (by rw [h.tbl hf])
  | pclr rd => exact .setPoly h rfl
  | ppush rd b =>
    exact .ite (by rw [h.register_len, h.params]) (fun _ => .raise h _) fun _ => .setPoly h (by rw [h.poly])
  | prdl rs => exact .answer h (by rw [h.register_len])
  | prdc rs j => exact .readByte h (register_wf hm rs) (register_wf hm' rs) (h.poly rs) j.toNat
  | pmov rd ra => exact .setPoly h (h.poly ra)
  | pnorm rd ra => exact .needField h fun _ => .setPoly h (by rw [h.poly])
  | padd rd ra rb => exact .needField h fun _ => .setPoly h (by rw [h.poly, h.poly])
  | pmul rd ra rb => exact execPmul_agree h rd ra rb
  | pdiv rq rr ra rb => exact execPdiv_agree h rq rr ra rb
  | pmono rd c n =>
    exact .needField h fun _ => .ite (by rw [h.params]) (fun _ => .raise h _) fun _ => .setPoly h rfl
  | gen rd e =>
    exact .needField h fun hf => .ite (by rw [h.params]) (fun _ => .raise h _) fun _ => .setPoly h (by rw [h.tbl hf])
  | rchk c => exact execRchk_agree h c
  | econ c => exact execEcon_agree h c
  | enc n => exact execEnc_agree h n
  | dclr => exact .dbuf h (by simp only [clear_value])
  | dpush b =>
    exact .ite (by rw [buffer_len_eq hd hd' h.dbuf, h.params]) (fun _ => .raise h _) fun _ =>
      .dbuf h (by rw [Buffer.push, Buffer.push, write_value, write_value, h.dbuf])
  | drdl => exact .answer h (by rw [buffer_len_eq hd hd' h.dbuf])
  | drd j => exact .readByte h hd hd' h.dbuf j.toNat
  | crdl => exact .answer h (by rw [buffer_len_eq hc hc' h.cbuf])
  | crd j => exact .readByte h hc hc' h.cbuf j.toNat

/-- Settles O53: the idle step and `rst` read the view alone, and so does every command. -/
theorem behaviourIsAFunctionOfTheCompactView : Obligations.BehaviourIsAFunctionOfTheCompactView := by
  intro s s' hs hs' hv hin
  cases h : s.inbox with
  | nil =>
    have h' : s'.inbox = [] := hin ▸ h
    exact ⟨s, s', by simp [step, h], by simp [step, h'], hv, hin, [], by simp⟩
  | cons e rest =>
    have h' : s'.inbox = e :: rest := hin ▸ h
    have hal : Alike { s with inbox := rest } { s' with inbox := rest } := ⟨hs.taken rest, hs'.taken rest, hv, rfl⟩
    cases e with
    | rst =>
      refine ⟨{ s with inbox := rest }.hostReset, { s' with inbox := rest }.hostReset, by simp only [step, h],
        by simp only [step, h'], ?_, rfl, [], by simp⟩
      rw [view_hostReset, view_hostReset, hal.params]
    | command w =>
      cases hd : decode w with
      | none =>
        simp only [step, h, h', hd]
        exact Agree.raise hal .illegalCommand
      | some i =>
        simp only [step, h, h', hd]
        exact exec_agree hal i

end Sys2Proof.Machine
end

section
/-! PROOFS. Reads have no side effects (R55): a read ends in the state it began in, and a response that has left does
not change how it ends, because no test and no value of a read looks at the responses. -/
namespace Sys2Proof.Machine

/-! ## The response of each end -/

theorem responded_emit {s : State} {q r : Word} : Responded s (s.emit q) r ↔ r = q := by
  simp [Responded, eq_comm]

theorem responded_fail {s : State} {f : CmdFault} {r : Word} :
    Responded s (s.fail f) r ↔ r = rspWord f.code 0 := by
  simp [Responded, eq_comm]

/-- No failure answers the status of a completion (R230, R231). -/
theorem code_ne_zero (f : CmdFault) : f.code ≠ 0 := by
  cases f <;> decide

/-! ## A read in two states -/

/-- Results of one read in s and in s': the same failure raised in each, or the same value answered in each, with no
write before it. -/
def ReadsAlike (s s' : State) (r r' : Result) : Prop :=
  (∃ f, r = raise f s ∧ r' = raise f s') ∨ ∃ v, r = respond v s ∧ r' = respond v s'

section
variable {s s' : State} {r₁ r₁' r₂ r₂' : Result}

theorem ReadsAlike.raise (f : CmdFault) : ReadsAlike s s' (raise f s) (raise f s') := .inl ⟨f, rfl, rfl⟩

theorem ReadsAlike.respond (v : Half) : ReadsAlike s s' (respond v s) (respond v s') := .inr ⟨v, rfl, rfl⟩

theorem ReadsAlike.ite {c : Prop} [Decidable c] (h₁ : ReadsAlike s s' r₁ r₁') (h₂ : ReadsAlike s s' r₂ r₂') :
    ReadsAlike s s' (if c then r₁ else r₂) (if c then r₁' else r₂') := by
  split
  · exact h₁
  · exact h₂

theorem ReadsAlike.needField (hf : s.fvalid = s'.fvalid) (h : ReadsAlike s s' r₁ r₁') :
    ReadsAlike s s' (needField s r₁) (needField s' r₁') := by
  unfold Machine.needField
  rw [hf]
  exact .ite h (.raise _)

end

theorem execSrd_emit_readsAlike (n : Half) (s : State) (q : Word) :
    ReadsAlike s (s.emit q) (execSrd n s) (execSrd n (s.emit q)) := by
  have hn : (s.emit q).statusRegister n.toNat = s.statusRegister n.toNat := rfl
  unfold execSrd
  rw [hn]
  split
  · exact .raise _
  · exact .respond _

/-- One more response changes nothing in how a read ends. -/
theorem exec_emit_readsAlike {i : Instr} (hi : readsOnly i = true) (s : State) (q : Word) :
    ReadsAlike s (s.emit q) (exec i s) (exec i (s.emit q)) := by
  cases i with
  | srd n => exact execSrd_emit_readsAlike n s q
  | fadd | fmul | finv | fexp | flog => exact .needField rfl (.respond _)
  | prdl | drdl | crdl => exact .respond _
  | prdc | drd | crd => exact .ite (.raise _) (.respond _)
  | _ => exact absurd hi Bool.false_ne_true

/-- Settles O47: a read that fails is `raise` in s, and one that completes answers in s what it answers again. -/
theorem readsHaveNoSideEffects : Obligations.ReadsHaveNoSideEffects := by
  intro s t i r hi h hr
  obtain ⟨f, hf, -⟩ | ⟨v, hv, hv'⟩ := exec_emit_readsAlike hi s r
  · obtain rfl := raise_eq_next.mp (hf ▸ h)
    obtain rfl := responded_fail.mp hr
    rw [rspWord_status (code_lt f)]
    exact ⟨fun h0 => absurd h0 (code_ne_zero f), fun _ => rfl⟩
  · obtain rfl := respond_eq_next.mp (hv ▸ h)
    obtain rfl := responded_emit.mp hr
    rw [rspWord_status (by omega)]
    exact ⟨fun _ => ⟨rfl, _, hv', rfl⟩, fun hne => absurd rfl hne⟩

end Sys2Proof.Machine
end

section
/-! PROOFS. The encoding (30_encoding.md R71 to R80): a word decodes to a command exactly when the command is well
formed and the word is its encoding. Each format is read backwards once: which words it takes, as the sum that the
*Encoding* clauses write. -/
namespace Sys2Proof.Machine

open Laws
open Laws.Opcode (opcodeOf)

/-! ## The fields of a word as numbers -/

theorem regField_eq_iff {w : Word} {lo : Nat} {k : Reg} : regField w lo = k ↔ w.toNat / 2 ^ lo % 8 = k.val := by
  have h : lo + 2 + 1 - lo = 3 := by omega
  rw [Fin.ext_iff]
  simp [regField, bits, h]

theorem r1_eq_iff {w : Word} {k : Reg} : r1 w = k ↔ w.toNat / 2 ^ 21 % 8 = k.val := regField_eq_iff

theorem r2_eq_iff {w : Word} {k : Reg} : r2 w = k ↔ w.toNat / 2 ^ 18 % 8 = k.val := regField_eq_iff

theorem r3_eq_iff {w : Word} {k : Reg} : r3 w = k ↔ w.toNat / 2 ^ 15 % 8 = k.val := regField_eq_iff

theorem r4_eq_iff {w : Word} {k : Reg} : r4 w = k ↔ w.toNat / 2 ^ 12 % 8 = k.val := regField_eq_iff

theorem imm16_eq_iff {w : Word} {n : Half} : imm16 w = n ↔ w.toNat % 2 ^ 16 = n.toNat := by
  rw [← BitVec.toNat_inj]
  simp [imm16, bits]

theorem b1_eq_iff {w : Word} {b : Byte} : b1 w = b ↔ w.toNat / 2 ^ 8 % 2 ^ 8 = b.toNat := by
  rw [← BitVec.toNat_inj]
  simp [b1, bits]

theorem b0_eq_iff {w : Word} {b : Byte} : b0 w = b ↔ w.toNat % 2 ^ 8 = b.toNat := by
  rw [← BitVec.toNat_inj]
  simp [b0, bits]

/-! ## The words of each format

In each format the must-be-zero bits are zero and the fields hold the operands exactly when the number of the word is
the opcode's and the operands' sum. -/

theorem ifZero_eq_some {w : Word} {hi lo : Nat} {i j : Instr} :
    ifZero w hi lo i = some j ↔ bits w hi lo = 0 ∧ i = j := by
  simp [ifZero]

section
variable {w : Word} {op : Nat} {i : Instr}

theorem fmtZ_eq_some (hop : bits w 31 24 = op) {j : Instr} : fmtZ w j = some i ↔ w.toNat = op * 2 ^ 24 ∧ j = i := by
  rw [fmtZ, ifZero_eq_some]
  simp only [bits] at hop ⊢
  refine and_congr_left' ?_
  omega

theorem fmtB_eq_some (hop : bits w 31 24 = op) {f : Byte → Instr} :
    fmtB w f = some i ↔ ∃ b : Byte, w.toNat = op * 2 ^ 24 + b.toNat ∧ f b = i := by
  have h (b : Byte) : w.toNat = op * 2 ^ 24 + b.toNat ↔ bits w 23 8 = 0 ∧ b0 w = b := by
    rw [b0_eq_iff]
    simp only [bits] at hop ⊢
    omega
  simp only [fmtB, ifZero_eq_some, h, and_assoc, exists_and_left, exists_eq_left']

theorem fmtBB_eq_some (hop : bits w 31 24 = op) {f : Byte → Byte → Instr} :
    fmtBB w f = some i ↔ ∃ x y : Byte, w.toNat = op * 2 ^ 24 + 256 * x.toNat + y.toNat ∧ f x y = i := by
  have h (x y : Byte) : w.toNat = op * 2 ^ 24 + 256 * x.toNat + y.toNat ↔
      bits w 23 16 = 0 ∧ b1 w = x ∧ b0 w = y := by
    rw [b1_eq_iff, b0_eq_iff]
    simp only [bits] at hop ⊢
    omega
  simp only [fmtBB, ifZero_eq_some, h, and_assoc, exists_and_left, exists_eq_left']

theorem fmtI_eq_some (hop : bits w 31 24 = op) {f : Half → Instr} :
    fmtI w f = some i ↔ ∃ n : Half, w.toNat = op * 2 ^ 24 + n.toNat ∧ f n = i := by
  have h (n : Half) : w.toNat = op * 2 ^ 24 + n.toNat ↔ bits w 23 16 = 0 ∧ imm16 w = n := by
    rw [imm16_eq_iff]
    simp only [bits] at hop ⊢
    omega
  simp only [fmtI, ifZero_eq_some, h, and_assoc, exists_and_left, exists_eq_left']

theorem fmtR_eq_some (hop : bits w 31 24 = op) {f : Reg → Instr} :
    fmtR w f = some i ↔ ∃ r : Reg, w.toNat = op * 2 ^ 24 + r.val * 2 ^ 21 ∧ f r = i := by
  have h (r : Reg) : w.toNat = op * 2 ^ 24 + r.val * 2 ^ 21 ↔ bits w 20 0 = 0 ∧ r1 w = r := by
    rw [r1_eq_iff]
    simp only [bits] at hop ⊢
    omega
  simp only [fmtR, ifZero_eq_some, h, and_assoc, exists_and_left, exists_eq_left']

theorem fmtRB_eq_some (hop : bits w 31 24 = op) {f : Reg → Byte → Instr} :
    fmtRB w f = some i ↔ ∃ (r : Reg) (b : Byte), w.toNat = op * 2 ^ 24 + r.val * 2 ^ 21 + b.toNat ∧ f r b = i := by
  have h (r : Reg) (b : Byte) : w.toNat = op * 2 ^ 24 + r.val * 2 ^ 21 + b.toNat ↔
      bits w 20 8 = 0 ∧ r1 w = r ∧ b0 w = b := by
    rw [r1_eq_iff, b0_eq_iff]
    simp only [bits] at hop ⊢
    omega
  simp only [fmtRB, ifZero_eq_some, h, and_assoc, exists_and_left, exists_eq_left']

theorem fmtRI_eq_some (hop : bits w 31 24 = op) {f : Reg → Half → Instr} :
    fmtRI w f = some i ↔ ∃ (r : Reg) (n : Half), w.toNat = op * 2 ^ 24 + r.val * 2 ^ 21 + n.toNat ∧ f r n = i := by
  have h (r : Reg) (n : Half) : w.toNat = op * 2 ^ 24 + r.val * 2 ^ 21 + n.toNat ↔
      bits w 20 16 = 0 ∧ r1 w = r ∧ imm16 w = n := by
    rw [r1_eq_iff, imm16_eq_iff]
    simp only [bits] at hop ⊢
    omega
  simp only [fmtRI, ifZero_eq_some, h, and_assoc, exists_and_left, exists_eq_left']

theorem fmtRR_eq_some (hop : bits w 31 24 = op) {f : Reg → Reg → Instr} :
    fmtRR w f = some i ↔ ∃ a b : Reg, w.toNat = op * 2 ^ 24 + a.val * 2 ^ 21 + b.val * 2 ^ 18 ∧ f a b = i := by
  have h (a b : Reg) : w.toNat = op * 2 ^ 24 + a.val * 2 ^ 21 + b.val * 2 ^ 18 ↔
      bits w 17 0 = 0 ∧ r1 w = a ∧ r2 w = b := by
    rw [r1_eq_iff, r2_eq_iff]
    simp only [bits] at hop ⊢
    omega
  simp only [fmtRR, ifZero_eq_some, h, and_assoc, exists_and_left, exists_eq_left']

theorem fmtRRR_eq_some (hop : bits w 31 24 = op) {f : Reg → Reg → Reg → Instr} :
    fmtRRR w f = some i ↔ ∃ a b c : Reg,
      w.toNat = op * 2 ^ 24 + a.val * 2 ^ 21 + b.val * 2 ^ 18 + c.val * 2 ^ 15 ∧ f a b c = i := by
  have h (a b c : Reg) : w.toNat = op * 2 ^ 24 + a.val * 2 ^ 21 + b.val * 2 ^ 18 + c.val * 2 ^ 15 ↔
      bits w 14 0 = 0 ∧ r1 w = a ∧ r2 w = b ∧ r3 w = c := by
    rw [r1_eq_iff, r2_eq_iff, r3_eq_iff]
    simp only [bits] at hop ⊢
    omega
  simp only [fmtRRR, ifZero_eq_some, h, and_assoc, exists_and_left, exists_eq_left']

/-- Format RRRR is one that tests w[11:0], once its first two registers differ (R79). -/
theorem fmtRRRR_eq_some_iff_ifZero {f : Reg → Reg → Reg → Reg → Instr} :
    fmtRRRR w f = some i ↔ r1 w ≠ r2 w ∧ ifZero w 11 0 (f (r1 w) (r2 w) (r3 w) (r4 w)) = some i := by
  by_cases h12 : r1 w = r2 w <;> simp [fmtRRRR, h12]

theorem fmtRRRR_eq_some (hop : bits w 31 24 = op) {f : Reg → Reg → Reg → Reg → Instr} :
    fmtRRRR w f = some i ↔ ∃ a b c d : Reg, a ≠ b ∧
      w.toNat = op * 2 ^ 24 + a.val * 2 ^ 21 + b.val * 2 ^ 18 + c.val * 2 ^ 15 + d.val * 2 ^ 12 ∧ f a b c d = i := by
  have h (a b c d : Reg) :
      w.toNat = op * 2 ^ 24 + a.val * 2 ^ 21 + b.val * 2 ^ 18 + c.val * 2 ^ 15 + d.val * 2 ^ 12 ↔
        bits w 11 0 = 0 ∧ r1 w = a ∧ r2 w = b ∧ r3 w = c ∧ r4 w = d := by
    rw [r1_eq_iff, r2_eq_iff, r3_eq_iff, r4_eq_iff]
    simp only [bits] at hop ⊢
    omega
  rw [fmtRRRR_eq_some_iff_ifZero, ifZero_eq_some]
  constructor
  · rintro ⟨hne, hz, rfl⟩
    exact ⟨_, _, _, _, hne, (h ..).mpr ⟨hz, rfl, rfl, rfl, rfl⟩, rfl⟩
  · rintro ⟨a, b, c, d, hne, hw, rfl⟩
    obtain ⟨hz, rfl, rfl, rfl, rfl⟩ := (h ..).mp hw
    exact ⟨hne, hz, rfl⟩

theorem fmtM_eq_some (hop : bits w 31 27 = 0b00110) {f : Reg → Byte → Half → Instr} :
    fmtM w f = some i ↔ ∃ (r : Reg) (c : Byte) (n : Half),
      w.toNat = 0x30000000 + r.val * 2 ^ 24 + c.toNat * 2 ^ 16 + n.toNat ∧ f r c n = i := by
  have h (r : Reg) (c : Byte) (n : Half) : w.toNat = 0x30000000 + r.val * 2 ^ 24 + c.toNat * 2 ^ 16 + n.toNat ↔
      regField w 24 = r ∧ BitVec.ofNat 8 (bits w 23 16) = c ∧ imm16 w = n := by
    rw [regField_eq_iff, imm16_eq_iff, ← BitVec.toNat_inj, BitVec.toNat_ofNat]
    simp only [bits] at hop ⊢
    omega
  simp only [fmtM, Option.some.injEq, h, and_assoc, exists_and_left, exists_eq_left']

end

/-! ## The word of a command -/

/-- No *Encoding* clause adds up to more than a word. -/
theorem encodeNat_lt (i : Instr) : encodeNat i < 2 ^ 32 := by
  cases i <;> simp only [encodeNat] <;> omega

theorem encode_toNat (i : Instr) : (encode i).toNat = encodeNat i := by
  rw [encode, BitVec.toNat_ofNat, Nat.mod_eq_of_lt (encodeNat_lt i)]

theorem encode_eq_iff {w : Word} {i : Instr} : encode i = w ↔ w.toNat = encodeNat i := by
  rw [← BitVec.toNat_inj, encode_toNat, eq_comm]

/-- Every opcode but PMONO's is the whole field w[31:24] (R71). -/
theorem decode_of_opcode {w : Word} {op : Nat} (hop : bits w 31 24 = op) (hne : op / 8 ≠ 0b00110) :
    decode w = decodeOp op w := by
  rw [decode, hop, if_neg]
  simp only [bits] at hop ⊢
  omega

/-- PMONO's opcode is w[31:27] (R71). -/
theorem decode_pmono {w : Word} (hop : bits w 31 27 = 0b00110) : decode w = fmtM w .pmono := by
  rw [decode, if_pos hop]

/-! ## Decoding and encoding are inverse -/

/-- Each arm of the decoder, through its format: the operands read off the word add up to the word again. -/
theorem wellFormed_and_encodes {w : Word} {i : Instr} (h : decode w = some i) :
    WellFormed i ∧ w.toNat = encodeNat i := by
  unfold decode at h
  split at h
  · obtain ⟨r, c, n, hw, rfl⟩ := (fmtM_eq_some ‹_›).mp h
    exact ⟨rfl, hw⟩
  · generalize hop : bits w 31 24 = op at h
    unfold decodeOp at h
    split at h
    case h_1 | h_2 | h_6 | h_18 | h_19 | h_20 | h_24 | h_26 =>
      obtain ⟨n, hw, rfl⟩ := (fmtI_eq_some hop).mp h
      exact ⟨rfl, hw⟩
    case h_3 | h_4 =>
      obtain ⟨x, y, hw, rfl⟩ := (fmtBB_eq_some hop).mp h
      exact ⟨rfl, hw⟩
    case h_5 | h_7 | h_22 =>
      obtain ⟨b, hw, rfl⟩ := (fmtB_eq_some hop).mp h
      exact ⟨rfl, hw⟩
    case h_8 | h_10 =>
      obtain ⟨r, hw, rfl⟩ := (fmtR_eq_some hop).mp h
      exact ⟨rfl, hw⟩
    case h_9 =>
      obtain ⟨r, b, hw, rfl⟩ := (fmtRB_eq_some hop).mp h
      exact ⟨rfl, hw⟩
    case h_11 | h_17 =>
      obtain ⟨r, n, hw, rfl⟩ := (fmtRI_eq_some hop).mp h
      exact ⟨rfl, hw⟩
    case h_12 | h_13 =>
      obtain ⟨a, b, hw, rfl⟩ := (fmtRR_eq_some hop).mp h
      exact ⟨rfl, hw⟩
    case h_14 | h_15 =>
      obtain ⟨a, b, c, hw, rfl⟩ := (fmtRRR_eq_some hop).mp h
      exact ⟨rfl, hw⟩
    case h_16 =>
      obtain ⟨a, b, c, d, hne, hw, rfl⟩ := (fmtRRRR_eq_some hop).mp h
      exact ⟨bne_iff_ne.mpr hne, hw⟩
    case h_21 | h_23 | h_25 =>
      obtain ⟨hw, rfl⟩ := (fmtZ_eq_some hop).mp h
      exact ⟨rfl, hw⟩
    case h_27 => cases h

/-- The family `Laws.Opcode`, over all commands. -/
theorem opcode_encode (i : Instr) : bits (encode i) 31 24 = opcodeOf i := by
  cases i with
  | srd n => exact Opcode.srd n
  | finit poly => exact Opcode.finit poly
  | fadd x y => exact Opcode.fadd x y
  | fmul x y => exact Opcode.fmul x y
  | finv x => exact Opcode.finv x
  | fexp e => exact Opcode.fexp e
  | flog x => exact Opcode.flog x
  | pclr rd => exact Opcode.pclr rd
  | ppush rd b => exact Opcode.ppush rd b
  | prdl rs => exact Opcode.prdl rs
  | prdc rs j => exact Opcode.prdc rs j
  | pmov rd ra => exact Opcode.pmov rd ra
  | pnorm rd ra => exact Opcode.pnorm rd ra
  | padd rd ra rb => exact Opcode.padd rd ra rb
  | pmul rd ra rb => exact Opcode.pmul rd ra rb
  | pdiv rq rr ra rb => exact Opcode.pdiv rq rr ra rb
  | pmono rd c n => exact Opcode.pmono rd c n
  | gen rd e => exact Opcode.gen rd e
  | rchk c => exact Opcode.rchk c
  | econ c => exact Opcode.econ c
  | enc n => exact Opcode.enc n
  | dclr => exact Opcode.dclr
  | dpush b => exact Opcode.dpush b
  | drdl => exact Opcode.drdl
  | drd j => exact Opcode.drd j
  | crdl => exact Opcode.crdl
  | crd j => exact Opcode.crd j

/-- To decode a word it is enough to read it in the format of its opcode, given as a numeral. -/
theorem decode_of_arm {w : Word} {i : Instr} (op : Nat) (hop : bits w 31 24 = op) (hne : op / 8 ≠ 0b00110)
    (h : bits w 31 24 = op → decodeOp op w = some i) : decode w = some i :=
  (decode_of_opcode hop hne).trans (h hop)

/-- Each command, through the format of its opcode: the number of its word is the sum that the format takes apart. -/
theorem decode_of_encodes {w : Word} {i : Instr} (hi : WellFormed i) (hw : w.toNat = encodeNat i) :
    decode w = some i := by
  have hop : bits w 31 24 = opcodeOf i := encode_eq_iff.mpr hw ▸ opcode_encode i
  cases i with
  | srd n => exact decode_of_arm 0x01 hop (by decide) fun hop => (fmtI_eq_some hop).mpr ⟨n, hw, rfl⟩
  | finit poly => exact decode_of_arm 0x10 hop (by decide) fun hop => (fmtI_eq_some hop).mpr ⟨poly, hw, rfl⟩
  | fadd x y => exact decode_of_arm 0x11 hop (by decide) fun hop => (fmtBB_eq_some hop).mpr ⟨x, y, hw, rfl⟩
  | fmul x y => exact decode_of_arm 0x12 hop (by decide) fun hop => (fmtBB_eq_some hop).mpr ⟨x, y, hw, rfl⟩
  | finv x => exact decode_of_arm 0x13 hop (by decide) fun hop => (fmtB_eq_some hop).mpr ⟨x, hw, rfl⟩
  | fexp e => exact decode_of_arm 0x14 hop (by decide) fun hop => (fmtI_eq_some hop).mpr ⟨e, hw, rfl⟩
  | flog x => exact decode_of_arm 0x15 hop (by decide) fun hop => (fmtB_eq_some hop).mpr ⟨x, hw, rfl⟩
  | pclr rd => exact decode_of_arm 0x20 hop (by decide) fun hop => (fmtR_eq_some hop).mpr ⟨rd, hw, rfl⟩
  | ppush rd b => exact decode_of_arm 0x21 hop (by decide) fun hop => (fmtRB_eq_some hop).mpr ⟨rd, b, hw, rfl⟩
  | prdl rs => exact decode_of_arm 0x22 hop (by decide) fun hop => (fmtR_eq_some hop).mpr ⟨rs, hw, rfl⟩
  | prdc rs j => exact decode_of_arm 0x23 hop (by decide) fun hop => (fmtRI_eq_some hop).mpr ⟨rs, j, hw, rfl⟩
  | pmov rd ra => exact decode_of_arm 0x24 hop (by decide) fun hop => (fmtRR_eq_some hop).mpr ⟨rd, ra, hw, rfl⟩
  | pnorm rd ra => exact decode_of_arm 0x25 hop (by decide) fun hop => (fmtRR_eq_some hop).mpr ⟨rd, ra, hw, rfl⟩
  | padd rd ra rb =>
    exact decode_of_arm 0x26 hop (by decide) fun hop => (fmtRRR_eq_some hop).mpr ⟨rd, ra, rb, hw, rfl⟩
  | pmul rd ra rb =>
    exact decode_of_arm 0x27 hop (by decide) fun hop => (fmtRRR_eq_some hop).mpr ⟨rd, ra, rb, hw, rfl⟩
  | pdiv rq rr ra rb =>
    exact decode_of_arm 0x28 hop (by decide) fun hop =>
      (fmtRRRR_eq_some hop).mpr ⟨rq, rr, ra, rb, bne_iff_ne.mp hi, hw, rfl⟩
  | pmono rd c n =>
    have hop : bits w 31 27 = 0b00110 := by
      simp only [bits, hw, encodeNat]
      omega
    exact (decode_pmono hop).trans ((fmtM_eq_some hop).mpr ⟨rd, c, n, hw, rfl⟩)
  | gen rd e => exact decode_of_arm 0x40 hop (by decide) fun hop => (fmtRI_eq_some hop).mpr ⟨rd, e, hw, rfl⟩
  | rchk c => exact decode_of_arm 0x41 hop (by decide) fun hop => (fmtI_eq_some hop).mpr ⟨c, hw, rfl⟩
  | econ c => exact decode_of_arm 0x48 hop (by decide) fun hop => (fmtI_eq_some hop).mpr ⟨c, hw, rfl⟩
  | enc n => exact decode_of_arm 0x49 hop (by decide) fun hop => (fmtI_eq_some hop).mpr ⟨n, hw, rfl⟩
  | dclr => exact decode_of_arm 0x50 hop (by decide) fun hop => (fmtZ_eq_some hop).mpr ⟨hw, rfl⟩
  | dpush b => exact decode_of_arm 0x51 hop (by decide) fun hop => (fmtB_eq_some hop).mpr ⟨b, hw, rfl⟩
  | drdl => exact decode_of_arm 0x52 hop (by decide) fun hop => (fmtZ_eq_some hop).mpr ⟨hw, rfl⟩
  | drd j => exact decode_of_arm 0x53 hop (by decide) fun hop => (fmtI_eq_some hop).mpr ⟨j, hw, rfl⟩
  | crdl => exact decode_of_arm 0x54 hop (by decide) fun hop => (fmtZ_eq_some hop).mpr ⟨hw, rfl⟩
  | crd j => exact decode_of_arm 0x55 hop (by decide) fun hop => (fmtI_eq_some hop).mpr ⟨j, hw, rfl⟩

theorem decode_eq_some_iff {w : Word} {i : Instr} : decode w = some i ↔ WellFormed i ∧ encode i = w := by
  rw [encode_eq_iff]
  exact ⟨wellFormed_and_encodes, fun ⟨hi, hw⟩ => decode_of_encodes hi hw⟩

theorem decode_encode {i : Instr} (hi : WellFormed i) : decode (encode i) = some i :=
  decode_eq_some_iff.mpr ⟨hi, rfl⟩

/-- Settles O2: a well-formed command is what its own encoding decodes to. -/
theorem decodeOfEncodeIsTheCommand : Obligations.DecodeOfEncodeIsTheCommand := fun _ => decode_encode

/-- Settles O3: the same equivalence, from the word to the command. -/
theorem encodeOfDecodeIsTheWord : Obligations.EncodeOfDecodeIsTheWord := fun _ _ => decode_eq_some_iff.mp

/-- Settles O1, by decoding the seventeen words. -/
theorem sampleWordsDecodeToTheirCommands : Obligations.SampleWordsDecodeToTheirCommands := by
  unfold Obligations.SampleWordsDecodeToTheirCommands
  decide

/-! ## Unassigned opcodes -/

theorem opcode_of_decode {w : Word} {i : Instr} (h : decode w = some i) : bits w 31 24 = opcodeOf i :=
  (decode_eq_some_iff.mp h).2 ▸ opcode_encode i

/-- Every command has an assigned opcode (R78). -/
theorem opcodeOf_assigned (i : Instr) :
    opcodeOf i ∈ [0x01, 0x10, 0x11, 0x12, 0x13, 0x14, 0x15, 0x20, 0x21, 0x22, 0x23, 0x24, 0x25, 0x26, 0x27, 0x28, 0x30,
      0x31, 0x32, 0x33, 0x34, 0x35, 0x36, 0x37, 0x40, 0x41, 0x48, 0x49, 0x50, 0x51, 0x52, 0x53, 0x54, 0x55] := by
  cases i with
  | pmono rd c n =>
    simp only [opcodeOf, List.mem_cons]
    omega
  | _ => simp [opcodeOf]

/-- Settles O5: a word that decodes has the opcode of a command. -/
theorem unassignedOpcodesAreIllegal : Obligations.UnassignedOpcodesAreIllegal := by
  refine ⟨fun w hop => Option.eq_none_iff_forall_ne_some.mpr fun i hi => ?_, by decide, by decide⟩
  exact hop (opcode_of_decode hi ▸ opcodeOf_assigned i)

end Sys2Proof.Machine
end

section
/-! PROOFS. The opcode map (30_encoding.md R74): a word matches a row exactly when its opcode is the row's and its
must-be-zero bits are zero, which is what the decoder tests. -/
namespace Sys2Proof.Machine

/-! ## Masks -/

/-- The mask of the bits hi down to lo of a word. -/
def fieldMask (hi lo : Nat) : Nat := (2 ^ (hi + 1 - lo) - 1) <<< lo

/-- Masking a field leaves its value in its place. -/
theorem and_fieldMask (w : Word) (hi lo : Nat) : w.toNat &&& fieldMask hi lo = bits w hi lo <<< lo := by
  refine Nat.eq_of_testBit_eq fun i => ?_
  by_cases hi : lo ≤ i
  · simp [fieldMask, bits, hi, Nat.testBit_div_two_pow, Bool.and_comm]
  · simp [fieldMask, hi]

/-- A field below the opcode stays below it. -/
theorem bits_shiftLeft_lt (w : Word) {hi lo : Nat} (hhi : hi < 24) (hlo : lo ≤ hi) :
    bits w hi lo <<< lo < 2 ^ 24 := by
  have hpow : 2 ^ (hi + 1 - lo) * 2 ^ lo ≤ 2 ^ 24 := by
    rw [← Nat.pow_add]
    exact Nat.pow_le_pow_right (by omega) (by omega)
  rw [Nat.shiftLeft_eq]
  exact (Nat.mul_lt_mul_of_pos_right (Nat.mod_lt _ (by positivity)) (by positivity)).trans_le hpow

/-- The mask of a row of R74 whose format tests `w[hi:lo]`: the opcode and the must-be-zero bits. -/
def rowMask (hi lo : Nat) : Word := BitVec.ofNat 32 (fieldMask 31 24 ||| fieldMask hi lo)

/-- A word matches a row when its opcode is the row's and its must-be-zero bits are zero (R74, R77). -/
theorem and_rowMask_eq_iff {w : Word} {hi lo op : Nat} (hhi : hi < 24) (hlo : lo ≤ hi) (hop : op < 256) :
    w &&& rowMask hi lo = BitVec.ofNat 32 (op * 2 ^ 24) ↔ bits w 31 24 = op ∧ bits w hi lo = 0 := by
  have hlow := bits_shiftLeft_lt w hhi hlo
  have hand : w &&& rowMask hi lo = BitVec.ofNat 32 (bits w 31 24 * 2 ^ 24 + bits w hi lo <<< lo) := by
    rw [rowMask, ← Nat.shiftLeft_eq, Nat.shiftLeft_add_eq_or_of_lt hlow, ← and_fieldMask, ← and_fieldMask,
      ← Nat.and_or_distrib_left, BitVec.ofNat_and, BitVec.ofNat_toNat, BitVec.setWidth_eq]
  have hzero : bits w hi lo <<< lo = 0 ↔ bits w hi lo = 0 := Nat.shiftLeft_eq_zero_iff
  have hopc : bits w 31 24 < 256 := Nat.mod_lt _ (by decide)
  rw [hand, ← BitVec.toNat_inj, BitVec.toNat_ofNat, BitVec.toNat_ofNat, ← hzero]
  generalize bits w hi lo <<< lo = low at hlow
  omega

/-- PMONO's row tests the five opcode bits (R71, R74). -/
theorem and_pmonoMask_eq_iff {w : Word} : w &&& 0xF8000000 = 0x30000000 ↔ bits w 31 27 = 0b00110 := by
  have h := and_fieldMask w 31 27
  have hlt : bits w 31 27 < 32 := Nat.mod_lt _ (by decide)
  rw [← BitVec.toNat_inj, BitVec.toNat_and]
  change w.toNat &&& fieldMask 31 27 = 0x30000000 ↔ _
  rw [h, Nat.shiftLeft_eq]
  omega

/-! ## Rows and arms -/

/-- A word that decodes matches a row of the mnemonic it decodes to, and PDIV's names two destinations. -/
theorem row_of_decode {w : Word} {i : Instr} (h : decode w = some i) :
    ∃ row ∈ opcodeRows, row.mnemonic = mnemonic i ∧ w &&& row.mask = row.matchWord ∧
      (mnemonic i = "PDIV" → r1 w ≠ r2 w) := by
  unfold decode at h
  split at h
  · have hm := and_pmonoMask_eq_iff.mpr ‹_›
    obtain rfl := Option.some.inj h
    simpa [opcodeRows, opcodeRowsA, opcodeRowsB, mnemonic] using hm
  · generalize hop : bits w 31 24 = op at h
    unfold decodeOp at h
    split at h
    case h_27 => cases h
    case h_16 =>
      obtain ⟨hne, h⟩ := fmtRRRR_eq_some_iff_ifZero.mp h
      obtain ⟨hz, rfl⟩ := ifZero_eq_some.mp h
      have hm := (and_rowMask_eq_iff (by decide) (by decide) (by decide)).mpr ⟨hop, hz⟩
      simpa [opcodeRows, opcodeRowsA, opcodeRowsB, mnemonic, hne, rowMask, fieldMask] using hm
    all_goals
      obtain ⟨hz, rfl⟩ := ifZero_eq_some.mp h
      have hm := (and_rowMask_eq_iff (by decide) (by decide) (by decide)).mpr ⟨hop, hz⟩
      simpa [opcodeRows, opcodeRowsA, opcodeRowsB, mnemonic, rowMask, fieldMask] using hm

/-- What a word that matches a row decodes to, from the arm of the row's opcode. -/
theorem map_decode_of_match {w : Word} (op hi lo : Nat) {i : Instr}
    (hw : w &&& rowMask hi lo = BitVec.ofNat 32 (op * 2 ^ 24))
    (hrange : (hi < 24 ∧ lo ≤ hi) ∧ op < 256 ∧ op / 8 ≠ 0b00110) (harm : decodeOp op w = ifZero w hi lo i) :
    (decode w).map mnemonic = some (mnemonic i) := by
  obtain ⟨⟨hhi, hlo⟩, hlt, hne⟩ := hrange
  obtain ⟨hop, hz⟩ := (and_rowMask_eq_iff hhi hlo hlt).mp hw
  rw [decode_of_opcode hop hne, harm, ifZero_eq_some.mpr ⟨hz, rfl⟩]
  rfl

/-- Each row of R74: the values of its opcode and of its must-be-zero bits, and the arm they lead to. -/
theorem map_decode_of_row {w : Word} {row : OpcodeRow} (hrow : row ∈ opcodeRows) (hw : w &&& row.mask = row.matchWord)
    (hne : row.mnemonic = "PDIV" → r1 w ≠ r2 w) : (decode w).map mnemonic = some row.mnemonic := by
  simp only [opcodeRows, opcodeRowsA, opcodeRowsB, List.cons_append, List.nil_append, List.mem_cons, List.not_mem_nil,
    or_false] at hrow
  rcases hrow with rfl | rfl | rfl | rfl | rfl | rfl | rfl | rfl | rfl | rfl | rfl | rfl | rfl | rfl |
    rfl | rfl | rfl | rfl | rfl | rfl | rfl | rfl | rfl | rfl | rfl | rfl | rfl
  · exact map_decode_of_match 0x01 23 16 hw (by decide) rfl
  · exact map_decode_of_match 0x10 23 16 hw (by decide) rfl
  · exact map_decode_of_match 0x11 23 16 hw (by decide) rfl
  · exact map_decode_of_match 0x12 23 16 hw (by decide) rfl
  · exact map_decode_of_match 0x13 23 8 hw (by decide) rfl
  · exact map_decode_of_match 0x14 23 16 hw (by decide) rfl
  · exact map_decode_of_match 0x15 23 8 hw (by decide) rfl
  · exact map_decode_of_match 0x20 20 0 hw (by decide) rfl
  · exact map_decode_of_match 0x21 20 8 hw (by decide) rfl
  · exact map_decode_of_match 0x22 20 0 hw (by decide) rfl
  · exact map_decode_of_match 0x23 20 16 hw (by decide) rfl
  · exact map_decode_of_match 0x24 17 0 hw (by decide) rfl
  · exact map_decode_of_match 0x25 17 0 hw (by decide) rfl
  · exact map_decode_of_match 0x26 14 0 hw (by decide) rfl
  · exact map_decode_of_match 0x27 14 0 hw (by decide) rfl
  · exact map_decode_of_match 0x28 11 0 hw (by decide) (if_neg (hne rfl))
  · rw [decode_pmono (and_pmonoMask_eq_iff.mp hw)]
    rfl
  · exact map_decode_of_match 0x40 20 16 hw (by decide) rfl
  · exact map_decode_of_match 0x41 23 16 hw (by decide) rfl
  · exact map_decode_of_match 0x48 23 16 hw (by decide) rfl
  · exact map_decode_of_match 0x49 23 16 hw (by decide) rfl
  · exact map_decode_of_match 0x50 23 0 hw (by decide) rfl
  · exact map_decode_of_match 0x51 23 8 hw (by decide) rfl
  · exact map_decode_of_match 0x52 23 0 hw (by decide) rfl
  · exact map_decode_of_match 0x53 23 16 hw (by decide) rfl
  · exact map_decode_of_match 0x54 23 0 hw (by decide) rfl
  · exact map_decode_of_match 0x55 23 16 hw (by decide) rfl

/-- Settles O4: the arm of a decoded word is its row, and a row that matches is the arm of its opcode. -/
theorem decodeFollowsTheOpcodeMap : Obligations.DecodeFollowsTheOpcodeMap := by
  intro w m
  constructor
  · intro h
    obtain ⟨i, hi, rfl⟩ := Option.map_eq_some_iff.mp h
    exact row_of_decode hi
  · rintro ⟨row, hrow, rfl, hw, hne⟩
    exact map_decode_of_row hrow hw hne

/-- Settles O6: PDIV's arm tests its destinations first; every other command is what its word decodes to. -/
theorem pdivToOneRegisterIsIllegal : Obligations.PdivToOneRegisterIsIllegal := by
  refine ⟨fun w hw h12 => ?_, fun rq rr ra rb hne => decode_encode (bne_iff_ne.mpr hne), fun rd ra rb =>
    ⟨decode_encode rfl, decode_encode rfl, decode_encode rfl, decode_encode rfl⟩⟩
  obtain ⟨hop, -⟩ := (and_rowMask_eq_iff (op := 0x28) (hi := 11) (lo := 0) (by decide) (by decide) (by decide)).mp hw
  rw [decode_of_opcode hop (by decide)]
  exact if_pos h12

end Sys2Proof.Machine
end

section
/-! PROOFS. Runs of the pseudo-commands (30_encoding.md R83): offered commands run one after another, so that what one
command does to `s.offering` carries over to a list of them. -/
namespace Sys2Proof.Machine

/-! ## Steps and runs -/

/-- A failure leaves what the statements call `failed`, by its code (R233). -/
theorem fail_eq_failed (s : State) (f : CmdFault) : s.fail f = s.failed f.code := by
  simp [State.fail, State.failed, State.emit, rspWord, CmdFault.bit]

/-- Settles O8: the step raises the one failure of an illegal word. -/
theorem illegalWordRaisesIllegalCommand : Obligations.IllegalWordRaisesIllegalCommand := by
  intro s w rest hin hd
  simp only [step, hin, hd]
  exact congrArg _ (fail_eq_failed _ .illegalCommand)

/-- The equation of `run` at a step that has a next state. -/
theorem run_succ_of_step {s t : State} (k : Nat) (h : step s = .next t) :
    Sys2Proof.core.run (k + 1) s = Sys2Proof.core.run k t := by
  have hs : Sys2Proof.core.step s = .next t := h
  simp only [Host.Core.run, hs]

/-- A run begins with the execution of the command offered first. -/
theorem run_offering_cons {s t : State} {i : Instr} {cs : List Instr} (k : Nat) (hi : WellFormed i)
    (h : exec i (s.offering cs) = .next (t.offering cs)) :
    Sys2Proof.core.run (k + 1) (s.offering (i :: cs)) = Sys2Proof.core.run k (t.offering cs) :=
  run_succ_of_step k ((stepRunsTheDecodedCommand _ _ _ i rfl (decode_encode hi)).trans h)

/-! ## Loading -/

/-- Commands that append one byte each, run one after another: `st written` is the state in which the bytes `written`
have been appended so far, and at most `cap` of them fit. -/
theorem run_appends {st : List Byte → State} {push : Byte → Instr} {cap : Nat} (hwf : ∀ b, WellFormed (push b))
    (hpush : ∀ written b cs, written.length < cap →
      exec (push b) ((st written).offering cs) = .next ((st (written ++ [b])).offering cs))
    (written bs : List Byte) (hcap : written.length + bs.length ≤ cap) :
    Sys2Proof.core.run bs.length ((st written).offering (bs.map push)) = .next ((st (written ++ bs)).offering []) := by
  induction bs generalizing written with
  | nil =>
    rw [List.append_nil]
    rfl
  | cons b bs ih =>
    rw [List.length_cons] at hcap
    have ih := ih (written ++ [b]) (by rw [List.length_append, List.length_singleton]; omega)
    rw [List.append_assoc, List.singleton_append] at ih
    exact (run_offering_cons bs.length (hwf b) (hpush written b _ (by omega))).trans ih

/-- A sequence that is written over a shorter one leaves nothing of it. -/
theorem write_write (b : Buffer) {x y : List Byte} (h : x.length ≤ y.length) : (b.write x).write y = b.write y := by
  simp [Buffer.write, overwrite, List.drop_append, List.drop_eq_nil_of_le h, Nat.add_sub_cancel' h]

theorem setPoly_setPoly (s : State) (k : Reg) {x y : List Byte} (h : x.length ≤ y.length) :
    (s.setPoly k x).setPoly k y = s.setPoly k y := by
  simp [State.setPoly, write_write _ h]

/-- Appending to a sequence just written is writing the longer one. -/
theorem push_write (b : Buffer) (x : List Byte) (v : Byte) : (b.write x).push v = b.write (x ++ [v]) := by
  rw [Buffer.push, write_value, write_write b (by simp)]

/-- `n` responses of status 0 and value 0 have left. -/
def State.completed (s : State) (n : Nat) : State := { s with rsps := s.rsps ++ List.replicate n 0 }

/-- A command without a value answers one more 0 (R11). -/
theorem done_completed (s : State) (n : Nat) (cs : List Instr) :
    done ((s.completed n).offering cs) = .next ((s.completed (n + 1)).offering cs) := by
  simp [done, respond, State.emit, State.completed, State.offering, List.replicate_succ', rspWord]

/-- What PLOAD has left after its first `bs.length + 1` commands. -/
def State.polyLoaded (s : State) (rd : Reg) (bs : List Byte) : State := (s.setPoly rd bs).completed (bs.length + 1)

/-- What DLOAD has left after its first `bs.length + 1` commands. -/
def State.dataLoaded (s : State) (bs : List Byte) : State :=
  State.completed { s with dbuf := s.dbuf.write bs } (bs.length + 1)

/-- One more PPUSH of a PLOAD (R136). -/
theorem exec_ppush_polyLoaded (s : State) (rd : Reg) (written : List Byte) (b : Byte) (cs : List Instr)
    (h : written.length < s.params.pcap) :
    exec (.ppush rd b) ((s.polyLoaded rd written).offering cs) =
      .next ((s.polyLoaded rd (written ++ [b])).offering cs) := by
  have hlen : (s.setPoly rd written).p[rd].len ≠ s.params.pcap := by simpa using h.ne
  have hset : (s.setPoly rd written).setPoly rd ((s.setPoly rd written).poly rd ++ [b]) =
      s.setPoly rd (written ++ [b]) := by
    rw [setPoly_poly_self, setPoly_setPoly s rd (by simp)]
  calc exec (.ppush rd b) ((s.polyLoaded rd written).offering cs)
      = done ((((s.setPoly rd written).setPoly rd ((s.setPoly rd written).poly rd ++ [b])).completed
          (written.length + 1)).offering cs) := if_neg hlen
    _ = _ := by rw [hset, done_completed, State.polyLoaded, List.length_append, List.length_singleton]

/-- One more DPUSH of a DLOAD (R211). -/
theorem exec_dpush_dataLoaded (s : State) (written : List Byte) (b : Byte) (cs : List Instr)
    (h : written.length < s.params.dcap) :
    exec (.dpush b) ((s.dataLoaded written).offering cs) = .next ((s.dataLoaded (written ++ [b])).offering cs) := by
  calc exec (.dpush b) ((s.dataLoaded written).offering cs)
      = done ((State.completed { s with dbuf := (s.dbuf.write written).push b } (written.length + 1)).offering cs) :=
        if_neg h.ne
    _ = _ := by rw [push_write, done_completed, State.dataLoaded, List.length_append, List.length_singleton]

/-- The run of PLOAD: the register is written as a whole. -/
theorem run_pload (s : State) (rd : Reg) (cs : List Byte) (h : cs.length ≤ s.params.pcap) :
    Sys2Proof.core.run (cs.length + 1) (s.offering (pload rd cs)) = .next ((s.polyLoaded rd cs).offering []) := by
  have hclr : exec (.pclr rd) (s.offering (cs.map (.ppush rd))) =
      .next ((s.polyLoaded rd []).offering (cs.map (.ppush rd))) := rfl
  exact (run_offering_cons _ rfl hclr).trans
    (run_appends (fun _ => rfl) (exec_ppush_polyLoaded s rd) [] cs (by simpa using h))

/-- The run of DLOAD: the data buffer is written as a whole. -/
theorem run_dload (s : State) (ds : List Byte) (h : ds.length ≤ s.params.dcap) :
    Sys2Proof.core.run (ds.length + 1) (s.offering (dload ds)) = .next ((s.dataLoaded ds).offering []) := by
  have hclr : exec .dclr (s.offering (ds.map .dpush)) = .next ((s.dataLoaded []).offering (ds.map .dpush)) := rfl
  exact (run_offering_cons _ rfl hclr).trans
    (run_appends (fun _ => rfl) (exec_dpush_dataLoaded s) [] ds (by simpa using h))

/-- Settles O54: PLOAD writes one register, whatever it held before. -/
theorem ploadLoadsTheRegister : Obligations.PloadLoadsTheRegister := by
  intro s rd cs _ hcap
  exact ⟨_, run_pload s rd cs hcap, rfl, setPoly_poly_self s rd cs, fun k hk => setPoly_p_ne s cs hk, rfl, rfl, rfl⟩

/-- Settles O55: DLOAD writes the data buffer alone. -/
theorem dloadLoadsTheDataBuffer : Obligations.DloadLoadsTheDataBuffer := by
  intro s ds _ hcap
  exact ⟨_, run_dload s ds hcap, rfl, write_value s.dbuf ds, rfl, rfl, rfl, rfl⟩

/-! ## Reading -/

/-- The command `i` answers `v` in s, whatever is offered after it and whatever has been answered before. -/
def Answers (s : State) (i : Instr) (v : Half) : Prop :=
  WellFormed i ∧ ∀ rest sent,
    exec i { s with inbox := rest, rsps := sent } = respond v { s with inbox := rest, rsps := sent }

/-- Reads run one after another answer one after another and change nothing but the channels. -/
theorem run_answers {s : State} {cs : List Instr} {vs : List Half} (h : List.Forall₂ (Answers s) cs vs)
    (sent : List Word) :
    Sys2Proof.core.run cs.length (State.offering { s with rsps := sent } cs) =
      .next { s with inbox := [], rsps := sent ++ vs.map (rspWord 0) } := by
  induction h generalizing sent with
  | nil =>
    rw [List.map_nil, List.append_nil]
    rfl
  | @cons i v cs vs hi _ ih =>
    have ih := ih (sent ++ [rspWord 0 v])
    rw [List.append_assoc, List.singleton_append] at ih
    exact (run_offering_cons (s := { s with rsps := sent }) (t := { s with rsps := sent ++ [rspWord 0 v] }) cs.length
      hi.1 (hi.2 _ sent)).trans ih

theorem rspWord_valueOfNat {n : Nat} (h : n ≤ 65535) : rspWord 0 (valueOfNat n) = BitVec.ofNat 32 n := by
  rw [rspWord_ok, valueOfNat, BitVec.toNat_ofNat, Nat.mod_eq_of_lt (by omega)]

theorem rspWord_valueOfByte (b : Byte) : rspWord 0 (valueOfByte b) = b.setWidth 32 := by
  rw [rspWord_ok, valueOfByte, BitVec.toNat_ofNat, Nat.mod_eq_of_lt (by omega), BitVec.ofNat_toNat]

/-- The value of a buffer, byte by byte. -/
theorem value_eq_map_byteAt {cap : Nat} {b : Buffer} (hb : b.wf cap) :
    b.value = (List.range b.len).map (byteAt b.bytes) := by
  have hl := value_length_of_wf hb
  refine List.ext_getElem? fun i => ?_
  by_cases hi : i < b.len
  · simp [byteAt_value hb hi, hi]
  · rw [List.getElem?_eq_none (by omega), List.getElem?_eq_none (by simpa using hi)]

/-- A command that answers the length of a buffer and commands that answer its bytes, run in index order, answer the
length and then the value. -/
theorem run_readout {s : State} {b : Buffer} {cap : Nat} {lenCmd : Instr} {byteCmd : Half → Instr} (hb : b.wf cap)
    (hcap : cap ≤ 65535) (hlen : Answers s lenCmd (valueOfNat b.len))
    (hbyte : ∀ j : Half, j.toNat < b.len → Answers s (byteCmd j) (valueOfByte (byteAt b.bytes j.toNat))) :
    Sys2Proof.core.run (b.value.length + 1)
        (s.offering (lenCmd :: (List.range b.value.length).map fun i => byteCmd (BitVec.ofNat 16 i))) =
      .next { s with
        inbox := []
        rsps := s.rsps ++ BitVec.ofNat 32 b.value.length :: b.value.map (BitVec.setWidth 32) } := by
  have hfit : b.len ≤ 65535 := (hb.1.trans hb.2).trans hcap
  have hbytes : List.Forall₂ (Answers s) ((List.range b.len).map fun i => byteCmd (BitVec.ofNat 16 i))
      (b.value.map valueOfByte) := by
    rw [value_eq_map_byteAt hb, List.map_map, List.forall₂_map_left_iff, List.forall₂_map_right_iff, List.forall₂_same]
    intro i hi
    have hi : i < b.len := List.mem_range.mp hi
    have hj : (BitVec.ofNat 16 i).toNat = i := by
      rw [BitVec.toNat_ofNat]
      omega
    have h := hbyte (BitVec.ofNat 16 i) (by rwa [hj])
    rwa [hj] at h
  have hrun := run_answers (.cons hlen hbytes) s.rsps
  simp only [List.length_cons, List.length_map, List.length_range, List.map_cons, List.map_map, Function.comp_def,
    rspWord_valueOfNat hfit, rspWord_valueOfByte] at hrun
  rw [value_length_of_wf hb]
  exact hrun

/-- Settles O56: each of the three expansions reads out one buffer. -/
theorem readingPseudoCommandsAnswerTheContents : Obligations.ReadingPseudoCommandsAnswerTheContents := by
  intro s rs hs
  obtain ⟨hp, hpcap, hdc, hc⟩ := hs.params
  refine ⟨?_, ?_, ?_⟩
  · exact run_readout (register_wf hs.memory rs) hpcap ⟨rfl, fun _ _ => rfl⟩ fun j hj =>
      ⟨rfl, fun _ _ => if_neg hj.not_ge⟩
  · exact run_readout (dbuf_wf hs.memory) (by omega) ⟨rfl, fun _ _ => rfl⟩ fun j hj =>
      ⟨rfl, fun _ _ => if_neg hj.not_ge⟩
  · exact run_readout (cbuf_wf hs.memory) (by omega) ⟨rfl, fun _ _ => rfl⟩ fun j hj =>
      ⟨rfl, fun _ _ => if_neg hj.not_ge⟩

end Sys2Proof.Machine
end

section
/-! PROOFS. Multiplication in the field (R113, R114): on bytes `xtime` is linear over XOR, `gf_mul` by x is as many
multiplications by 2 as LOG[x] says, and that is the product over GF(2) reduced by the polynomial. -/
namespace Sys2Proof.Machine

/-! ## Multiplication by 2 is linear -/

theorem xor_mul_two_pow (a b k : Nat) : (a ^^^ b) * 2 ^ k = a * 2 ^ k ^^^ b * 2 ^ k := by
  simp only [← Nat.shiftLeft_eq, Nat.shiftLeft_xor_distrib]

/-- On a byte the test of `xtime` for an overflow is bit 7. -/
theorem xtime_eq_xor {poly v : Nat} (hv : v < 256) :
    xtime poly v = 2 * v ^^^ (if v.testBit 7 then poly else 0) := by
  have hbit : v.testBit 7 = true ↔ ¬ 2 * v < 256 := by
    rw [Nat.testBit_eq_decide_div_mod_eq, decide_eq_true_iff]
    omega
  by_cases h : 2 * v < 256 <;> simp [xtime, hbit, h]

theorem xtime_xor {poly a b : Nat} (ha : a < 256) (hb : b < 256) :
    xtime poly (a ^^^ b) = xtime poly a ^^^ xtime poly b := by
  have hab : a ^^^ b < 256 := Nat.xor_lt_two_pow (n := 8) ha hb
  have h2 : 2 * (a ^^^ b) = 2 * a ^^^ 2 * b := by
    simpa [Nat.mul_comm] using xor_mul_two_pow a b 1
  rw [xtime_eq_xor hab, xtime_eq_xor ha, xtime_eq_xor hb, Nat.testBit_xor, h2]
  cases a.testBit 7 <;> cases b.testBit 7 <;>
    simp [Nat.xor_comm, Nat.xor_left_comm]

theorem iterate_xtime_zero (poly n : Nat) : (xtime poly)^[n] 0 = 0 := Function.iterate_fixed (by simp [xtime]) n

section
variable {poly : Nat} (hlo : 256 ≤ poly) (hhi : poly < 512)
include hlo hhi

theorem iterate_xtime_lt (n : Nat) {v : Nat} (hv : v < 256) : (xtime poly)^[n] v < 256 := by
  induction n with
  | zero => exact hv
  | succ n ih => exact Function.iterate_succ_apply' (xtime poly) n v ▸ xtime_lt hlo hhi ih

theorem iterate_xtime_xor (n : Nat) {a b : Nat} (ha : a < 256) (hb : b < 256) :
    (xtime poly)^[n] (a ^^^ b) = (xtime poly)^[n] a ^^^ (xtime poly)^[n] b := by
  induction n with
  | zero => rfl
  | succ n ih =>
    simp only [Function.iterate_succ_apply', ih]
    exact xtime_xor (iterate_xtime_lt hlo hhi n ha) (iterate_xtime_lt hlo hhi n hb)

end

/-! ## Sums over the bits of a byte -/

/-- The XOR of the `f i` over the bits i of x that are set, as the loop of `gf2Product` adds it up. -/
def xorOverBits (n : Nat) (f : Nat → Nat) (x : Nat) : Nat :=
  forUpto n 0 fun acc i => if x.testBit i then acc ^^^ f i else acc

theorem gf2Product_eq (x y : Nat) : gf2Product x y = xorOverBits 8 (fun i => y * 2 ^ i) x := rfl

theorem xorOverBits_succ (n : Nat) (f : Nat → Nat) (x : Nat) :
    xorOverBits (n + 1) f x = xorOverBits n f x ^^^ (if x.testBit n then f n else 0) := by
  rw [xorOverBits, forUpto_succ, ← xorOverBits]
  split <;> simp

theorem xorOverBits_congr {n x : Nat} {f g : Nat → Nat} (h : ∀ i, i < n → f i = g i) :
    xorOverBits n f x = xorOverBits n g x := by
  induction n with
  | zero => rfl
  | succ n ih => rw [xorOverBits_succ, xorOverBits_succ, ih fun i hi => h i (by omega), h n (by omega)]

/-- A number is the XOR of the powers of 2 at its bits. -/
theorem xorOverBits_two_pow (n x : Nat) : xorOverBits n (2 ^ ·) x = x % 2 ^ n := by
  induction n with
  | zero => simp [xorOverBits, Nat.mod_one]
  | succ n ih =>
    refine Nat.eq_of_testBit_eq fun i => ?_
    rw [xorOverBits_succ, ih, Nat.testBit_xor, Nat.testBit_mod_two_pow, Nat.testBit_mod_two_pow]
    rcases lt_trichotomy i n with hi | rfl | hi
    · have h1 : i < n + 1 := by omega
      have h2 : n ≠ i := by omega
      split <;> simp [hi, h1, Nat.testBit_two_pow_of_ne h2]
    · by_cases hx : x.testBit i <;> simp [hx]
    · have h1 : ¬ i < n + 1 := by omega
      have h2 : n ≠ i := by omega
      split <;> simp [hi.not_gt, h1, Nat.testBit_two_pow_of_ne h2]

/-- A function that is linear on k bits may be applied summand by summand. -/
theorem map_xorOverBits {g f : Nat → Nat} {k n : Nat} (x : Nat) (h0 : g 0 = 0)
    (hg : ∀ a b, a < 2 ^ k → b < 2 ^ k → g (a ^^^ b) = g a ^^^ g b) (hf : ∀ i, i < n → f i < 2 ^ k) :
    g (xorOverBits n f x) = xorOverBits n (fun i => g (f i)) x := by
  have hbound (m : Nat) (hm : m ≤ n) : xorOverBits m f x < 2 ^ k := by
    induction m with
    | zero => exact Nat.two_pow_pos k
    | succ m ih =>
      rw [xorOverBits_succ]
      refine Nat.xor_lt_two_pow (ih (by omega)) ?_
      split
      · exact hf m hm
      · exact Nat.two_pow_pos k
  induction n with
  | zero => exact h0
  | succ n ih =>
    rw [xorOverBits_succ, xorOverBits_succ, ← ih (fun i hi => hf i (by omega)) fun m hm => hbound m (by omega)]
    split
    · exact hg _ _ (hbound n (by omega)) (hf n (by omega))
    · simp

/-! ## Reduction modulo the polynomial -/

/-- The last passes of `gf2Reduce`, those that clear the bits 8 + s - 1 down to 8. -/
def clearBits (poly : Nat) : (s v : Nat) → Nat
  | 0, v => v
  | s + 1, v => clearBits poly s (if v.testBit (8 + s) then v ^^^ poly * 2 ^ s else v)

theorem gf2Reduce_eq (poly v : Nat) : gf2Reduce poly v = clearBits poly 7 v := rfl

theorem clearBits_zero_right (poly s : Nat) : clearBits poly s 0 = 0 := by
  induction s with
  | zero => rfl
  | succ s ih => simpa [clearBits] using ih

theorem clearBits_xor (poly s a b : Nat) :
    clearBits poly s (a ^^^ b) = clearBits poly s a ^^^ clearBits poly s b := by
  induction s generalizing a b with
  | zero => rfl
  | succ s ih =>
    rw [clearBits, clearBits, clearBits, ← ih, Nat.testBit_xor]
    congr 1
    cases a.testBit (8 + s) <;> cases b.testBit (8 + s) <;>
      simp [Nat.xor_assoc, Nat.xor_comm, Nat.xor_left_comm]

/-- There is nothing to clear above the highest bit. -/
theorem clearBits_of_lt {poly s m v : Nat} (hsm : s ≤ m) (hv : v < 2 ^ (8 + s)) :
    clearBits poly m v = clearBits poly s v := by
  induction m, hsm using Nat.le_induction with
  | base => rfl
  | succ m hsm ih =>
    have hbit : v.testBit (8 + m) = false :=
      Nat.testBit_lt_two_pow (hv.trans_le (Nat.pow_le_pow_right (by omega) (by omega)))
    rw [clearBits, hbit]
    exact ih

/-- Clearing the overflow of v * 2^s is s multiplications of v by 2: the first pass does the first of them. -/
theorem clearBits_mul_two_pow {poly s v : Nat} (hlo : 256 ≤ poly) (hhi : poly < 512) (hv : v < 256) :
    clearBits poly s (v * 2 ^ s) = (xtime poly)^[s] v := by
  induction s generalizing v with
  | zero => simp [clearBits]
  | succ s ih =>
    have hbit : (v * 2 ^ (s + 1)).testBit (8 + s) = v.testBit 7 := by
      have hle : s + 1 ≤ 8 + s := by omega
      have hsub : 8 + s - (s + 1) = 7 := by omega
      simp [Nat.testBit_mul_two_pow, hle, hsub]
    rw [clearBits, hbit, Function.iterate_succ_apply, ← ih (xtime_lt hlo hhi hv), xtime_eq_xor hv]
    congr 1
    have hshift : v * 2 ^ (s + 1) = 2 * v * 2 ^ s := by ring
    split <;> simp [hshift, xor_mul_two_pow]

theorem gf2Reduce_mul_two_pow {poly i y : Nat} (hlo : 256 ≤ poly) (hhi : poly < 512) (hi : i ≤ 7) (hy : y < 256) :
    gf2Reduce poly (y * 2 ^ i) = (xtime poly)^[i] y := by
  have hlt : y * 2 ^ i < 2 ^ (8 + i) := by
    rw [Nat.pow_add]
    exact Nat.mul_lt_mul_of_pos_right hy (Nat.two_pow_pos i)
  rw [gf2Reduce_eq, clearBits_of_lt hi hlt, clearBits_mul_two_pow hlo hhi hy]

/-- The reduced product, bit by bit of its first factor. -/
theorem gf2Reduce_gf2Product {poly x y : Nat} (hlo : 256 ≤ poly) (hhi : poly < 512) (hy : y < 256) :
    gf2Reduce poly (gf2Product x y) = xorOverBits 8 (fun i => (xtime poly)^[i] y) x := by
  have hf (i : Nat) (hi : i < 8) : y * 2 ^ i < 2 ^ 16 := by
    have := Nat.pow_le_pow_right (n := 2) (by omega) (Nat.le_of_lt_succ hi)
    calc y * 2 ^ i < 256 * 2 ^ i := Nat.mul_lt_mul_of_pos_right hy (Nat.two_pow_pos i)
      _ ≤ 2 ^ 16 := by omega
  rw [gf2Product_eq, map_xorOverBits (g := gf2Reduce poly) x (clearBits_zero_right poly 7)
    (fun a b _ _ => clearBits_xor poly 7 a b) hf]
  exact xorOverBits_congr fun i hi => gf2Reduce_mul_two_pow hlo hhi (by omega) hy

/-- The first powers of 2 are not reduced. -/
theorem powTwo_of_le_seven (poly : Nat) {i : Nat} (hi : i ≤ 7) : powTwo poly i = 2 ^ i := by
  induction i with
  | zero => rfl
  | succ i ih =>
    have := Nat.pow_le_pow_right (n := 2) (by omega) hi
    rw [powTwo_succ, ih (by omega), xtime, if_pos (by omega), Nat.pow_succ']

/-! ## The product by the tables -/

theorem gfMul_comm (t : Tables) (x y : Byte) : gfMul t x y = gfMul t y x := by
  simp only [gfMul, or_comm, Nat.add_comm]

@[simp] theorem gfMul_zero_right (t : Tables) (x : Byte) : gfMul t x 0#8 = 0#8 := by simp [gfMul]

theorem gfMul_of_ne_zero {t : Tables} {x y : Byte} (hx : x ≠ 0) (hy : y ≠ 0) :
    gfMul t x y = t.expAt (t.logAt x + t.logAt y) := by
  rw [gfMul, if_neg (not_or.mpr ⟨hx, hy⟩)]

section
variable {t : Tables} {poly : Nat} (h : t.Powers poly)
include h

theorem Tables.Powers.exp_mod {i : Nat} (hi : i < 510) : t.expAt (i % 255) = t.expAt i := by
  by_cases hlt : i < 255
  · rw [Nat.mod_eq_of_lt hlt]
  · have hmod : i % 255 = i - 255 := by omega
    rw [hmod, ← h.exp_again (i - 255) (by omega), Nat.sub_add_cancel (by omega)]

theorem Tables.Powers.exp_toNat {i : Nat} (hi : i < 510) : (t.expAt i).toNat = powTwo poly i := by
  by_cases hlt : i < 255
  · exact h.exp i hlt
  · obtain ⟨j, rfl⟩ : ∃ j, i = j + 255 := ⟨i - 255, by omega⟩
    rw [h.exp_again j (by omega), h.exp j (by omega), powTwo_add, h.primitive.last, powTwo]

theorem Tables.Powers.powTwo_log {x : Byte} (hx : x ≠ 0) : powTwo poly (t.logAt x) = x.toNat := by
  obtain ⟨hle, he⟩ := h.exp_log hx
  rw [← h.exp_toNat (by omega), he]

/-- Multiplying by x is multiplying by 2 as often as LOG[x] says. -/
theorem Tables.Powers.mul_toNat {x : Byte} (hx : x ≠ 0) (y : Byte) :
    (gfMul t x y).toNat = (xtime poly)^[t.logAt x] y.toNat := by
  by_cases hy : y = 0
  · simp [hy, iterate_xtime_zero]
  · have hx' := (h.exp_log hx).1
    have hy' := (h.exp_log hy).1
    rw [gfMul_of_ne_zero hx hy, h.exp_toNat (by omega), powTwo_add, h.powTwo_log hy]

theorem Tables.Powers.mul_ne_zero {x y : Byte} (hx : x ≠ 0) (hy : y ≠ 0) : gfMul t x y ≠ 0 := by
  have hx' := (h.exp_log hx).1
  have hy' := (h.exp_log hy).1
  rw [gfMul_of_ne_zero hx hy]
  exact h.exp_ne_zero (by omega)

theorem Tables.Powers.mul_add (x y z : Byte) :
    gfMul t x (gfAdd y z) = gfAdd (gfMul t x y) (gfMul t x z) := by
  by_cases hx : x = 0
  · simp [hx, gfAdd]
  · refine BitVec.eq_of_toNat_eq ?_
    simp only [gfAdd, BitVec.toNat_xor, h.mul_toNat hx]
    exact iterate_xtime_xor h.primitive.lo h.primitive.hi _ y.isLt z.isLt

/-- Multiplying by x and by z are repetitions of one function, so they commute. -/
theorem Tables.Powers.mul_assoc (x y z : Byte) : gfMul t (gfMul t x y) z = gfMul t x (gfMul t y z) := by
  rw [gfMul_comm t _ z, gfMul_comm t y z]
  by_cases hx : x = 0
  · simp [hx]
  by_cases hz : z = 0
  · simp [hz]
  refine BitVec.eq_of_toNat_eq ?_
  simp only [h.mul_toNat hx, h.mul_toNat hz]
  exact Function.Commute.iterate_iterate_self (xtime poly) _ _ _

theorem Tables.Powers.exp_of_le_seven {i : Nat} (hi : i ≤ 7) : t.expAt i = BitVec.ofNat 8 (2 ^ i) := by
  refine BitVec.eq_of_toNat_eq ?_
  have hlt : 2 ^ i < 2 ^ 8 := Nat.pow_lt_pow_right (by omega) (by omega)
  rw [h.exp i (by omega), powTwo_of_le_seven poly hi, BitVec.toNat_ofNat, Nat.mod_eq_of_lt hlt]

theorem Tables.Powers.mul_two_pow_toNat {i : Nat} (hi : i ≤ 7) (y : Byte) :
    (gfMul t (BitVec.ofNat 8 (2 ^ i)) y).toNat = (xtime poly)^[i] y.toNat := by
  rw [← h.exp_of_le_seven hi, h.mul_toNat (h.exp_ne_zero (by omega)), h.log_exp i (by omega)]

/-- Multiplication by y is linear in the bits of x, and the product of 2^i and y is i multiplications of y by 2. -/
theorem Tables.Powers.mul_eq_reduced (x y : Byte) :
    (gfMul t x y).toNat = gf2Reduce poly (gf2Product x.toNat y.toNat) := by
  have hbits : x = BitVec.ofNat 8 (xorOverBits 8 (2 ^ ·) x.toNat) := by
    rw [xorOverBits_two_pow, Nat.mod_eq_of_lt x.isLt, BitVec.ofNat_toNat, BitVec.setWidth_eq]
  have hlinear (a b : Nat) : (gfMul t (BitVec.ofNat 8 (a ^^^ b)) y).toNat =
      (gfMul t (BitVec.ofNat 8 a) y).toNat ^^^ (gfMul t (BitVec.ofNat 8 b) y).toNat := by
    rw [BitVec.ofNat_xor, gfMul_comm, ← gfAdd, h.mul_add, gfAdd, BitVec.toNat_xor, gfMul_comm, gfMul_comm t y]
  calc (gfMul t x y).toNat
      = (gfMul t (BitVec.ofNat 8 (xorOverBits 8 (2 ^ ·) x.toNat)) y).toNat := by rw [← hbits]
    _ = xorOverBits 8 (fun i => (gfMul t (BitVec.ofNat 8 (2 ^ i)) y).toNat) x.toNat :=
        map_xorOverBits (g := fun v => (gfMul t (BitVec.ofNat 8 v) y).toNat) (k := 8) _ (by simp)
          (fun a b _ _ => hlinear a b) fun i hi => Nat.pow_lt_pow_right (by omega) hi
    _ = xorOverBits 8 (fun i => (xtime poly)^[i] y.toNat) x.toNat :=
        xorOverBits_congr fun i hi => h.mul_two_pow_toNat (Nat.le_of_lt_succ hi) y
    _ = gf2Reduce poly (gf2Product x.toNat y.toNat) :=
        (gf2Reduce_gf2Product h.primitive.lo h.primitive.hi y.isLt).symm

/-! ## Inverse, exponent and logarithm -/

theorem Tables.Powers.mul_inv {x : Byte} (hx : x ≠ 0) : gfMul t x (gfInv t x) = 1 := by
  have hle := (h.exp_log hx).1
  refine BitVec.eq_of_toNat_eq ?_
  rw [h.mul_toNat hx, gfInv, if_neg hx, h.exp_toNat (by omega), ← powTwo_add, Nat.add_sub_cancel' (by omega)]
  exact h.primitive.last

/-- With w the inverse of x, the inverse of w is x times w times the inverse of w. -/
theorem Tables.Powers.inv_inv (x : Byte) : gfInv t (gfInv t x) = x := by
  by_cases hx : x = 0
  · simp [gfInv, hx]
  have hw : gfInv t x ≠ 0 := by
    rw [gfInv, if_neg hx]
    exact h.exp_ne_zero (by omega)
  calc gfInv t (gfInv t x)
      = gfMul t (gfMul t x (gfInv t x)) (gfInv t (gfInv t x)) := by rw [h.mul_inv hx, h.one_mul]
    _ = x := by rw [h.mul_assoc, h.mul_inv hw, h.mul_one]

end

theorem gfExp_natCast (t : Tables) (n : Nat) : gfExp t (n : Int) = t.expAt (n % 255) := by
  rw [gfExp, if_neg (by omega), Int.toNat_natCast]

section
variable {t : Tables} {poly : Nat} (h : t.Powers poly)
include h

theorem Tables.Powers.exp_of_log {x : Byte} (hx : x ≠ 0) : gfExp t (gfLog t x) = x := by
  obtain ⟨hle, he⟩ := h.exp_log hx
  rw [gfLog, if_neg hx, gfExp_natCast, Nat.mod_eq_of_lt (by omega), he]

theorem Tables.Powers.log_of_exp {n : Nat} (hn : n < 255) : gfLog t (gfExp t (n : Int)) = n := by
  rw [gfExp_natCast, Nat.mod_eq_of_lt hn, gfLog, if_neg (h.exp_ne_zero (by omega)), h.log_exp n hn]

theorem Tables.Powers.exp_log_add_log {x y : Byte} (hx : x ≠ 0) (hy : y ≠ 0) :
    gfExp t ((t.logAt x : Int) + (t.logAt y : Int)) = gfMul t x y := by
  have hx' := (h.exp_log hx).1
  have hy' := (h.exp_log hy).1
  rw [← Int.natCast_add, gfExp_natCast, gfMul_of_ne_zero hx hy, h.exp_mod (by omega)]

end

/-- The exponent counts modulo 255. -/
theorem gfExp_add_255 (t : Tables) {e : Int} (he : 0 ≤ e) : gfExp t e = gfExp t (e + 255) := by
  obtain ⟨n, rfl⟩ := Int.eq_ofNat_of_zero_le he
  rw [gfExp_natCast]
  exact (congrArg t.expAt (Nat.add_mod_right n 255)).symm.trans (gfExp_natCast t (n + 255)).symm

/-! ## The laws of the field -/

/-- Settles O20, from the linearity of multiplication and the tables as inverse functions. -/
theorem fieldAlgebraHolds : Obligations.FieldAlgebraHolds := by
  intro s hs hf x y z
  obtain ⟨poly, h⟩ := hs.powers hf
  refine ⟨BitVec.xor_comm x y, BitVec.xor_zero, BitVec.xor_self, h.mul_inv, h.exp_of_log, fun e he he' => ?_,
    h.mul_add x y z⟩
  obtain ⟨n, rfl⟩ := Int.eq_ofNat_of_zero_le he
  exact h.log_of_exp (by omega)

/-- Settles O21, for the polynomial that the invariant gives. -/
theorem fieldProductIsTheReducedProduct : Obligations.FieldProductIsTheReducedProduct := by
  intro s hs hf
  obtain ⟨poly, hlo, hhi, hb⟩ := hs.field hf
  have h := buildTables_powers hlo hhi hb
  refine ⟨poly, hlo, hhi, hb, fun x y z => ⟨h.mul_eq_reduced x y, gfMul_comm _ x y, h.mul_assoc x y z, h.one_mul x,
    h.mul_one x, fun h0 => ?_, h.mul_two_pow_toNat (i := 1) (by omega) x, fun _ => gfExp_add_255 _, h.inv_inv x,
    h.exp_log_add_log⟩⟩
  by_contra! hne
  exact h.mul_ne_zero hne.1 hne.2 h0

end Sys2Proof.Machine
end

section
/-! PROOFS. The commands of the field block (R106 to R111), and which polynomials FINIT accepts (R116): the loop of
`build_tables` fails when a power of 2 comes back to 1 before pass 255. -/
namespace Sys2Proof.Machine

/-! ## How the commands end, in the statements' words -/

theorem respond_eq_answered (v : Half) (s : State) : respond v s = .next (s.answered v.toNat) := by
  rw [respond, rspWord_ok]
  rfl

theorem done_eq_answered (s : State) : done s = .next (s.answered 0) := respond_eq_answered 0 s

theorem raise_eq_failed (f : CmdFault) (s : State) : raise f s = .next (s.failed f.code) := by
  rw [raise, fail_eq_failed]

theorem respond_valueOfByte (b : Byte) (s : State) : respond (valueOfByte b) s = .next (s.answered b.toNat) := by
  rw [respond_eq_answered, valueOfByte, BitVec.toNat_ofNat, Nat.mod_eq_of_lt (by omega)]

/-- A signed 16-bit operand is the integer of its bits (R6). -/
theorem sext16_eq_toInt (e : Half) : sext16 e = e.toInt := by
  rw [sext16, BitVec.toInt_eq_toNat_cond]
  split <;> split <;> omega

theorem toNat_valueOfInt_gfLog (t : Tables) (x : Byte) :
    (valueOfInt (gfLog t x)).toNat = if x = 0 then 0xFFFF else t.logAt x := by
  by_cases hx : x = 0
  · simp [hx, gfLog, valueOfInt]
  · have hlt : t.logAt x < 2 ^ 16 := (t.logByte x).isLt.trans (by decide)
    rw [if_neg hx, gfLog, if_neg hx, valueOfInt, BitVec.ofInt_natCast, BitVec.toNat_ofNat, Nat.mod_eq_of_lt hlt]

/-! ## The scalar commands -/

theorem toNat_gfMul (t : Tables) (x y : Byte) : (gfMul t x y).toNat =
    if x = 0 ∨ y = 0 then 0 else (t.expAt (t.logAt x + t.logAt y)).toNat := by
  rw [gfMul]
  split <;> rfl

theorem toNat_gfInv (t : Tables) (x : Byte) : (gfInv t x).toNat =
    if x = 0 then 0 else (t.expAt (255 - t.logAt x)).toNat := by
  rw [gfInv]
  split <;> rfl

theorem toNat_gfExp_toInt (t : Tables) (e : Half) : (gfExp t e.toInt).toNat =
    if e.toInt < 0 then 0 else (t.expAt (e.toNat % 255)).toNat := by
  rw [gfExp]
  split
  next => rfl
  next hneg =>
    have he : e.toInt.toNat = e.toNat := by
      rw [BitVec.toInt_eq_toNat_cond] at hneg ⊢
      omega
    rw [he]

/-- Settles O22: each of the five needs the field and answers one function's value. -/
theorem fieldCommandsFollowTheirRules : Obligations.FieldCommandsFollowTheirRules := by
  intro s x y e
  refine ⟨⟨encode_toNat _, encode_toNat _, encode_toNat _, encode_toNat _, encode_toNat _⟩, fun hf => ?_, fun hf => ?_⟩
  · have hfail (k : Result) : needField s k = .next (s.failed 9) :=
      (needField_not_ready k hf).trans (congrArg _ (fail_eq_failed s .fieldNotReady))
    exact ⟨hfail _, hfail _, hfail _, hfail _, hfail _⟩
  · have hbyte {b : Byte} {v : Nat} (h : b.toNat = v) :
        needField s (respond (valueOfByte b) s) = .next (s.answered v) := by
      rw [needField_ready _ hf, respond_valueOfByte, h]
    refine ⟨hbyte rfl, hbyte (toNat_gfMul s.tbl x y), hbyte (toNat_gfInv s.tbl x),
      hbyte (sext16_eq_toInt e ▸ toNat_gfExp_toInt s.tbl e), ?_⟩
    rw [← toNat_valueOfInt_gfLog, ← respond_eq_answered]
    exact needField_ready _ hf

/-! ## FINIT -/

theorem exec_finit (poly : Half) (s : State) : exec (.finit poly) s = execFinit poly s := rfl

theorem exec_finit_out_of_range {s : State} {poly : Half} (h : poly.toNat < 256 ∨ 512 ≤ poly.toNat) :
    exec (.finit poly) s = .next (s.failed 1) := by
  rw [exec_finit, execFinit, if_pos h]
  exact raise_eq_failed .invalidFieldPolynomial s

theorem exec_finit_of_none {s : State} {poly : Half} (hlo : 256 ≤ poly.toNat) (hhi : poly.toNat < 512)
    (hb : buildTables poly.toNat = none) : exec (.finit poly) s = .next (s.failed 2) := by
  rw [exec_finit, execFinit, if_neg (by omega), hb]
  exact raise_eq_failed .reduciblePolynomial s

theorem exec_finit_of_some {s : State} {poly : Half} {t : Tables} (hlo : 256 ≤ poly.toNat) (hhi : poly.toNat < 512)
    (hb : buildTables poly.toNat = some t) : exec (.finit poly) s =
      .next ({ s with tbl := t, fvalid := true, evalid := false, checkCount := 0 }.answered 0) := by
  rw [exec_finit, execFinit, if_neg (by omega), hb]
  exact done_eq_answered _

/-- Settles O17, one clause per way through the tests of FINIT. -/
theorem finitFollowsItsRule : Obligations.FinitFollowsItsRule := fun _ _ =>
  ⟨encode_toNat _, exec_finit_out_of_range, exec_finit_of_none, fun _ => exec_finit_of_some⟩

/-! ## When the table build succeeds -/

/-- What one pass of the loop of R100 makes of its variables when it does not fail. -/
def Build.pass (poly i : Nat) (b : Build) : Build :=
  { x := xtime poly b.x
    exp := (b.exp.set i (BitVec.ofNat 8 b.x)).set (i + 255) (BitVec.ofNat 8 b.x)
    log := b.log.set b.x (BitVec.ofNat 8 i) }

theorem buildLoop_succ (poly left i : Nat) (b : Build) : buildLoop poly (left + 1) i b =
    if i ≠ 0 ∧ b.x = 1 then none else buildLoop poly left (i + 1) (b.pass poly i) := rfl

/-- x runs through the powers of 2 whatever the tables hold, and the loop fails when one of them but the first is 1. -/
theorem buildLoop_cases (poly left i : Nat) (b : Build) (hb : b.x = powTwo poly i) :
    (buildLoop poly left i b = none ∧ ∃ j, j ≠ 0 ∧ j < i + left ∧ powTwo poly j = 1) ∨
    ∃ b', buildLoop poly left i b = some b' ∧ b'.x = powTwo poly (i + left) ∧
      ∀ j, i ≤ j → j < i + left → j ≠ 0 → powTwo poly j ≠ 1 := by
  induction left generalizing i b with
  | zero => exact .inr ⟨b, rfl, hb, fun j _ _ => by omega⟩
  | succ left ih =>
    rw [buildLoop_succ]
    split
    next hfail => exact .inl ⟨rfl, i, hfail.1, by omega, hb ▸ hfail.2⟩
    next hgo =>
      rw [hb] at hgo
      obtain ⟨hnone, j, h0, hlt, h1⟩ | ⟨b', hsome, hx, hne⟩ := ih (i + 1) (b.pass poly i) (by rw [powTwo_succ, ← hb]; rfl)
      · exact .inl ⟨hnone, j, h0, by omega, h1⟩
      · refine .inr ⟨b', hsome, hx.trans (congrArg _ (by omega)), fun j hij hlt h0 h1 => ?_⟩
        rcases hij.eq_or_lt with rfl | hij
        · exact hgo ⟨h0, h1⟩
        · exact hne j hij (by omega) h0 h1

/-- The variables of the loop of R100 before its first pass. -/
def Build.start : Build := { x := 1, exp := List.replicate 510 0, log := List.replicate 256 0 }

theorem buildLoop_eq_none_iff (poly : Nat) :
    buildLoop poly 255 0 Build.start = none ↔ ∃ j, j ≠ 0 ∧ j < 255 ∧ powTwo poly j = 1 := by
  obtain ⟨hnone, j, hj⟩ | ⟨b, hsome, -, hne⟩ := buildLoop_cases poly 255 0 Build.start rfl
  · exact ⟨fun _ => ⟨j, by simpa using hj⟩, fun _ => hnone⟩
  · refine ⟨fun h => absurd (hsome.symm.trans h) (by simp), fun ⟨j, h0, hlt, h1⟩ => ?_⟩
    exact absurd h1 (hne j (Nat.zero_le j) (by omega) h0)

theorem buildTables_of_primitive {poly : Nat} (h : Primitive poly) : ∃ t, buildTables poly = some t := by
  obtain ⟨-, j, h0, hlt, h1⟩ | ⟨b, hsome, hx, -⟩ := buildLoop_cases poly 255 0 Build.start rfl
  · exact absurd h1 (h.ne_one j (by omega) h0)
  · rw [Nat.zero_add, h.last] at hx
    refine ⟨{ exp := b.exp, log := b.log.drop 1 }, ?_⟩
    unfold buildTables
    split
    next hnone => exact absurd (hsome.symm.trans hnone) (by simp)
    next hb =>
      cases hsome.symm.trans hb
      exact if_neg (not_not.mpr hx)

theorem buildTables_of_not_primitive {poly : Nat} (hlo : 256 ≤ poly) (hhi : poly < 512) (h : ¬ Primitive poly) :
    buildTables poly = none := by
  cases hb : buildTables poly with
  | none => rfl
  | some t => exact absurd (buildTables_powers hlo hhi hb).primitive h

/-! ## Even and odd polynomials -/

/-- With an even polynomial every power of 2 but the first is even, so x is never 1 again. -/
theorem powTwo_ne_one_of_even {poly j : Nat} (he : poly % 2 = 0) (hj : j ≠ 0) : powTwo poly j ≠ 1 := by
  obtain ⟨i, rfl⟩ := Nat.exists_eq_succ_of_ne_zero hj
  intro h1
  rw [powTwo_succ, xtime] at h1
  split at h1
  · omega
  · have := congrArg (· % 2 = 1) h1
    simp [he] at this

theorem xtime_eq_zero_of_odd {poly v : Nat} (hodd : poly % 2 = 1) (h : xtime poly v = 0) : v = 0 := by
  rw [xtime] at h
  split at h
  · omega
  · have := congrArg (· % 2 = 1) h
    simp [hodd] at this

/-- With an odd polynomial `xtime` loses nothing: it is linear, and only 0 goes to 0. -/
theorem xtime_injective_of_odd {poly a b : Nat} (hodd : poly % 2 = 1) (ha : a < 256) (hb : b < 256)
    (h : xtime poly a = xtime poly b) : a = b := by
  have h0 : xtime poly (a ^^^ b) = 0 := by rw [xtime_xor ha hb, h, Nat.xor_self]
  exact Nat.xor_eq_zero_iff.mp (xtime_eq_zero_of_odd hodd h0)

theorem powTwo_sub_eq_one {poly i j : Nat} (hlo : 256 ≤ poly) (hhi : poly < 512) (hodd : poly % 2 = 1) (hij : i ≤ j)
    (h : powTwo poly i = powTwo poly j) : powTwo poly (j - i) = 1 := by
  induction i generalizing j with
  | zero => exact h.symm
  | succ i ih =>
    obtain ⟨k, rfl⟩ : ∃ k, j = k + 1 := ⟨j - 1, by omega⟩
    rw [powTwo_succ, powTwo_succ] at h
    rw [Nat.add_sub_add_right]
    exact ih (by omega) (xtime_injective_of_odd hodd (powTwo_lt hlo hhi i) (powTwo_lt hlo hhi k) h)

theorem powTwo_ne_zero_of_odd {poly : Nat} (hodd : poly % 2 = 1) (i : Nat) : powTwo poly i ≠ 0 := by
  induction i with
  | zero => exact one_ne_zero
  | succ i ih => exact fun h => ih (xtime_eq_zero_of_odd hodd (powTwo_succ poly i ▸ h))

/-- With an odd polynomial the powers 0 to 255 are nonzero bytes, so two agree, and a power up to 255 is 1. -/
theorem exists_powTwo_eq_one_of_odd {poly : Nat} (hlo : 256 ≤ poly) (hhi : poly < 512) (hodd : poly % 2 = 1) :
    ∃ j, j ≠ 0 ∧ j ≤ 255 ∧ powTwo poly j = 1 := by
  have hmaps (i : Nat) (_ : i ∈ Finset.range 256) : powTwo poly i ∈ Finset.Icc 1 255 := by
    have := powTwo_lt hlo hhi i
    have := powTwo_ne_zero_of_odd hodd i
    rw [Finset.mem_Icc]
    omega
  obtain ⟨i, hi, j, hj, hne, he⟩ := Finset.exists_ne_map_eq_of_card_lt_of_maps_to (by simp) hmaps
  rw [Finset.mem_range] at hi hj
  rcases hne.lt_or_gt with hij | hij
  · exact ⟨j - i, by omega, by omega, powTwo_sub_eq_one hlo hhi hodd hij.le he⟩
  · exact ⟨i - j, by omega, by omega, powTwo_sub_eq_one hlo hhi hodd hij.le he.symm⟩

/-- A polynomial that FINIT refuses fails inside the loop exactly when it is odd. -/
theorem buildLoop_eq_none_iff_odd {poly : Nat} (hlo : 256 ≤ poly) (hhi : poly < 512) (hp : ¬ Primitive poly) :
    buildLoop poly 255 0 Build.start = none ↔ poly % 2 = 1 := by
  rw [buildLoop_eq_none_iff]
  refine ⟨fun ⟨j, h0, _, h1⟩ => ?_, fun hodd => ?_⟩
  · by_contra he
    exact powTwo_ne_one_of_even (by omega) h0 h1
  · by_contra! hne
    obtain ⟨j, h0, hle, h1⟩ := exists_powTwo_eq_one_of_odd hlo hhi hodd
    have hlast : j = 255 := by
      by_contra hj
      exact hne j h0 (by omega) h1
    exact hp ⟨hlo, hhi, hlast ▸ h1, fun j hj h0 => hne j h0 hj⟩

/-! ## The sixteen polynomials -/

/-- A proper divisor of 255 = 3 * 5 * 17 divides one of the three quotients by a prime. -/
theorem proper_dvd_255 {d : Nat} (hd : d ∣ 255) (hlt : d < 255) : d ∣ 85 ∨ d ∣ 51 ∨ d ∣ 15 := by
  have hall : ∀ d < 255, d ∣ 255 → d ∣ 85 ∨ d ∣ 51 ∨ d ∣ 15 := by decide +kernel
  exact hall d hlt hd

/-- A polynomial with which the powers of 2 have a period that divides 255 and none of its proper divisors, which four
powers tell. That it is odd follows, and is tested first because it spares half of the polynomials the other tests. -/
abbrev PassesPeriodTests (poly : Nat) : Prop :=
  poly % 2 = 1 ∧ powTwo poly 255 = 1 ∧ powTwo poly 85 ≠ 1 ∧ powTwo poly 51 ≠ 1 ∧ powTwo poly 15 ≠ 1

theorem primitive_iff {poly : Nat} (hlo : 256 ≤ poly) (hhi : poly < 512) :
    Primitive poly ↔ PassesPeriodTests poly := by
  refine ⟨fun h => ⟨?_, h.last, h.ne_one 85 (by omega) (by omega), h.ne_one 51 (by omega) (by omega),
    h.ne_one 15 (by omega) (by omega)⟩,
    fun ⟨_, hlast, h85, h51, h15⟩ => ⟨hlo, hhi, hlast, fun j hj h0 h1 => ?_⟩⟩
  · by_contra he
    exact powTwo_ne_one_of_even (by omega) (by omega) h.last
  have hper : Function.IsPeriodicPt (xtime poly) (j.gcd 255) 1 :=
    Function.IsPeriodicPt.gcd (show Function.IsPeriodicPt (xtime poly) j 1 from h1) hlast
  have hlt : j.gcd 255 < 255 := (Nat.gcd_le_left 255 (by omega)).trans_lt hj
  obtain hd | hd | hd := proper_dvd_255 (Nat.gcd_dvd_right j 255) hlt
  · exact h85 (hper.trans_dvd hd)
  · exact h51 (hper.trans_dvd hd)
  · exact h15 (hper.trans_dvd hd)

theorem mem_primitivePolynomials_iff {poly : Nat} (hlo : 256 ≤ poly) (hhi : poly < 512) :
    poly ∈ primitivePolynomials ↔ Primitive poly := by
  have hall : ∀ p ∈ List.range' 256 256, p ∈ primitivePolynomials ↔ PassesPeriodTests p := by decide +kernel
  rw [primitive_iff hlo hhi]
  exact hall poly (List.mem_range'_1.mpr ⟨hlo, hhi⟩)

theorem range_of_mem_primitivePolynomials {poly : Nat} (h : poly ∈ primitivePolynomials) :
    256 ≤ poly ∧ poly < 512 := by
  have hall : ∀ p ∈ primitivePolynomials, 256 ≤ p ∧ p < 512 := by decide
  exact hall poly h

/-- Settles O18: the listed polynomials are the primitive ones, and of the others the odd ones come back to 1 early. -/
theorem finitAcceptsExactlySixteenPolynomials : Obligations.FinitAcceptsExactlySixteenPolynomials := by
  refine ⟨fun s poly hmem => ?_, fun s poly hlo hhi hmem => ?_, by decide, by decide, by decide +kernel,
    by decide +kernel⟩
  · obtain ⟨hlo, hhi⟩ := range_of_mem_primitivePolynomials hmem
    obtain ⟨t, ht⟩ := buildTables_of_primitive ((mem_primitivePolynomials_iff hlo hhi).mp hmem)
    exact ⟨t, exec_finit_of_some hlo hhi ht⟩
  · have hp : ¬ Primitive poly.toNat := (mem_primitivePolynomials_iff hlo hhi).not.mp hmem
    exact ⟨exec_finit_of_none hlo hhi (buildTables_of_not_primitive hlo hhi hp), buildLoop_eq_none_iff_odd hlo hhi hp⟩

end Sys2Proof.Machine
end

section
/-! PROOFS. Polynomials through their coefficients (R130 to R133): a normalized sequence is fixed by its coefficients,
`p_add` XORs them and `p_mul` is their convolution, so that what follows about sequences is proved about coefficients. -/
namespace Sys2Proof.Machine

/-! ## Normalized sequences -/

theorem pNorm_eq_rdropWhile (p : List Byte) : pNorm p = p.rdropWhile (· == 0) := rfl

theorem pNorm_concat (p : List Byte) (b : Byte) : pNorm (p ++ [b]) = if b = 0 then pNorm p else p ++ [b] := by
  simp only [pNorm_eq_rdropWhile, List.rdropWhile_concat, beq_iff_eq]

theorem normalized_concat (p : List Byte) (b : Byte) : Normalized (p ++ [b]) ↔ b ≠ 0 := by
  simp [Normalized]

/-- Normalized is: the coefficient at the highest index is not zero. -/
theorem normalized_iff {p : List Byte} (hp : p ≠ []) : Normalized p ↔ coef p (p.length - 1) ≠ 0 := by
  have hl : p.length - 1 < p.length := Nat.sub_one_lt (by simpa using hp)
  rw [Normalized, List.getLast?_eq_getElem?, List.getElem?_eq_getElem hl, coef_eq_getElem hl, Ne, Option.some_inj]

theorem normalized_pNorm (p : List Byte) : Normalized (pNorm p) := by
  induction p using List.reverseRecOn with
  | nil => simp [Normalized, pNorm]
  | append_singleton p b ih =>
    rw [pNorm_concat]
    split
    · exact ih
    · exact (normalized_concat p b).mpr ‹_›

theorem coef_concat_zero (p : List Byte) (i : Nat) : coef (p ++ [0]) i = coef p i := by
  induction p generalizing i with
  | nil => cases i <;> rfl
  | cons a p ih =>
    cases i with
    | zero => rfl
    | succ i => exact ih i

theorem coef_pNorm (p : List Byte) (i : Nat) : coef (pNorm p) i = coef p i := by
  induction p using List.reverseRecOn with
  | nil => rfl
  | append_singleton p b ih =>
    rw [pNorm_concat]
    split
    next hb => rw [ih, hb, coef_concat_zero]
    next => rfl

/-- A normalized sequence is no longer than its coefficients need. -/
theorem Normalized.length_le {p : List Byte} {n : Nat} (hp : Normalized p) (h : ∀ i, n ≤ i → coef p i = 0) :
    p.length ≤ n := by
  by_contra hlt
  have hne : p ≠ [] := List.ne_nil_of_length_pos (by omega)
  exact (normalized_iff hne).mp hp (h _ (by omega))

/-- Normalized sequences with the same coefficients are equal. -/
theorem Normalized.eq_of_coef {p q : List Byte} (hp : Normalized p) (hq : Normalized q)
    (h : ∀ i, coef p i = coef q i) : p = q := by
  refine Machine.eq_of_coef (le_antisymm ?_ ?_) h
  · exact hp.length_le fun i hi => (h i).trans (coef_of_le hi)
  · exact hq.length_le fun i hi => (h i).symm.trans (coef_of_le hi)

theorem pNorm_eq_nil_iff (p : List Byte) : pNorm p = [] ↔ ∀ b ∈ p, b = 0 := by
  rw [pNorm_eq_rdropWhile, List.rdropWhile_eq_nil_iff]
  simp

theorem exists_pNorm_eq_take (p : List Byte) : ∃ n, pNorm p = p.take n :=
  ⟨_, List.prefix_iff_eq_take.mp (List.rdropWhile_prefix _ p)⟩

/-- Settles O26: a second `p_norm` meets a sequence that is normalized already and has the same coefficients. -/
theorem normalizeStripsTrailingZeros : Obligations.NormalizeStripsTrailingZeros := by
  intro p
  refine ⟨normalized_pNorm p, exists_pNorm_eq_take p, coef_pNorm p, ?_, pNorm_eq_nil_iff p⟩
  exact (normalized_pNorm _).eq_of_coef (normalized_pNorm p) (coef_pNorm _)

/-! ## Addition -/

theorem coef_map_range (f : Nat → Byte) (n i : Nat) : coef ((List.range n).map f) i = if i < n then f i else 0 := by
  split
  next h => rw [coef_eq_getElem (by simpa using h), List.getElem_map, List.getElem_range]
  next h => exact coef_of_le (by simpa using h)

theorem coef_pAdd (x y : List Byte) (i : Nat) : coef (pAdd x y) i = coef x i ^^^ coef y i := by
  rw [pAdd, coef_pNorm, coef_map_range]
  split
  · rfl
  · rw [coef_of_le (p := x) (by omega), coef_of_le (p := y) (by omega)]
    rfl

theorem normalized_pAdd (x y : List Byte) : Normalized (pAdd x y) := normalized_pNorm _

/-- A normalized sequence with the coefficients of the sum is the sum. -/
theorem pAdd_eq_of_coef {x y z : List Byte} (hz : Normalized z) (h : ∀ i, coef x i ^^^ coef y i = coef z i) :
    pAdd x y = z :=
  (normalized_pAdd x y).eq_of_coef hz fun i => (coef_pAdd x y i).trans (h i)

/-- Adding a shorter sequence leaves the highest coefficient. -/
theorem length_pAdd_of_lt {x y : List Byte} (hx : Normalized x) (hlt : y.length < x.length) :
    (pAdd x y).length = x.length := by
  have hne : x ≠ [] := List.ne_nil_of_length_pos (by omega)
  refine le_antisymm ((pAdd_length_le x y).trans (by omega)) ?_
  by_contra hshort
  have htop := coef_pAdd x y (x.length - 1)
  rw [coef_of_le (p := pAdd x y) (by omega), coef_of_le (p := y) (by omega)] at htop
  exact (normalized_iff hne).mp hx (by simpa using htop.symm)

/-- Settles O27: both sides of each equation are normalized and have the same coefficients. -/
theorem addIsTheXorOfTheCoefficients : Obligations.AddIsTheXorOfTheCoefficients := by
  intro x y
  refine ⟨coef_pAdd x y, normalized_pAdd x y, ?_, ?_, ?_⟩
  · exact pAdd_eq_of_coef (normalized_pAdd y x) fun i => by rw [coef_pAdd, BitVec.xor_comm]
  · exact pAdd_eq_of_coef (by simp [Normalized]) fun i => BitVec.xor_self
  · exact pAdd_eq_of_coef (normalized_pNorm x) fun i => by simp [coef_pNorm]

/-! ## Sums of coefficients -/

/-- The XOR of the `f i` for i < n, in the order in which `convolution` adds them. -/
def xorSum (n : Nat) (f : Nat → Byte) : Byte := ((List.range n).map f).foldl (· ^^^ ·) 0

@[simp] theorem xorSum_zero (f : Nat → Byte) : xorSum 0 f = 0 := rfl

theorem xorSum_succ (n : Nat) (f : Nat → Byte) : xorSum (n + 1) f = xorSum n f ^^^ f n := by
  simp [xorSum, List.range_succ]

theorem xorSum_congr {n : Nat} {f g : Nat → Byte} (h : ∀ i, i < n → f i = g i) : xorSum n f = xorSum n g := by
  induction n with
  | zero => rfl
  | succ n ih => rw [xorSum_succ, xorSum_succ, ih fun i hi => h i (by omega), h n (by omega)]

theorem xorSum_xor (n : Nat) (f g : Nat → Byte) :
    xorSum n (fun i => f i ^^^ g i) = xorSum n f ^^^ xorSum n g := by
  induction n with
  | zero => simp
  | succ n ih =>
    simp only [xorSum_succ, ih]
    ac_rfl

/-- Terms that are zero may be added or left out at the end. -/
theorem xorSum_eq_of_zero_from {n m : Nat} {f : Nat → Byte} (hn : ∀ i, n ≤ i → f i = 0)
    (hm : ∀ i, m ≤ i → f i = 0) : xorSum n f = xorSum m f := by
  have extend {n : Nat} (hn : ∀ i, n ≤ i → f i = 0) (j : Nat) : xorSum (n + j) f = xorSum n f := by
    induction j with
    | zero => rfl
    | succ j ih => simp [← Nat.add_assoc, xorSum_succ, ih, hn _ (Nat.le_add_right n j)]
  rw [← extend hn m, Nat.add_comm, extend hm n]

theorem xorSum_eq_zero {n : Nat} {f : Nat → Byte} (h : ∀ i, i < n → f i = 0) : xorSum n f = 0 := by
  induction n with
  | zero => rfl
  | succ n ih => simp [xorSum_succ, ih fun i hi => h i (by omega), h n (by omega)]

/-- A sum with one nonzero term is that term. -/
theorem xorSum_eq_single {n j : Nat} {f : Nat → Byte} (hj : j < n) (h : ∀ i, i ≠ j → f i = 0) : xorSum n f = f j := by
  rw [xorSum_eq_of_zero_from (m := j + 1) (fun i hi => h i (by omega)) fun i hi => h i (by omega), xorSum_succ,
    xorSum_eq_zero fun i hi => h i hi.ne]
  simp

/-! ## The convolution -/

theorem convolution_eq_xorSum (t : Tables) (x y : List Byte) (k : Nat) :
    convolution t x y k = xorSum (k + 1) fun i => gfMul t (coef x i) (coef y (k - i)) := rfl

/-- The convolution of two polynomials depends on their coefficients alone. -/
theorem convolution_congr_right {t : Tables} {x y y' : List Byte} (h : ∀ i, coef y i = coef y' i) (k : Nat) :
    convolution t x y k = convolution t x y' k :=
  xorSum_congr fun i _ => by rw [h]

theorem convolution_nil_left (t : Tables) (y : List Byte) (k : Nat) : convolution t [] y k = 0 :=
  xorSum_eq_zero fun _ _ => gfMul_zero_left t _

theorem convolution_nil_right (t : Tables) (x : List Byte) (k : Nat) : convolution t x [] k = 0 :=
  xorSum_eq_zero fun _ _ => gfMul_zero_right t _

theorem coef_pMono (c : Byte) (d i : Nat) : coef (pMono c d) i = if i = d then c else 0 := by
  rcases lt_trichotomy i d with h | rfl | h
  · rw [if_neg h.ne, coef_eq_getElem (by rw [pMono_length]; omega)]
    simp [pMono, zeros, h]
  · rw [if_pos rfl, coef_eq_getElem (by rw [pMono_length]; omega)]
    simp [pMono, zeros]
  · rw [if_neg h.ne', coef_of_le (by rw [pMono_length]; omega)]

/-- Multiplying by the monomial c x^d multiplies the coefficients by c and moves them d places up. -/
theorem convolution_pMono (t : Tables) (c : Byte) (d : Nat) (y : List Byte) (k : Nat) :
    convolution t (pMono c d) y k = if d ≤ k then gfMul t c (coef y (k - d)) else 0 := by
  rw [convolution_eq_xorSum]
  split
  next hd => rw [xorSum_eq_single (j := d) (by omega) fun i hi => by simp [coef_pMono, hi], coef_pMono, if_pos rfl]
  next hd => exact xorSum_eq_zero fun i hi => by simp [coef_pMono, show i ≠ d by omega]

/-- The highest coefficient of a product is the product of the highest coefficients. -/
theorem convolution_top (t : Tables) {x y : List Byte} (hx : x ≠ []) (hy : y ≠ []) :
    convolution t x y (x.length + y.length - 2) = gfMul t (coef x (x.length - 1)) (coef y (y.length - 1)) := by
  have hxl := List.length_pos_iff.mpr hx
  have hyl := List.length_pos_iff.mpr hy
  rw [convolution_eq_xorSum, xorSum_eq_single (j := x.length - 1) (by omega)]
  · rw [show x.length + y.length - 2 - (x.length - 1) = y.length - 1 by omega]
  · intro i hi
    rcases Nat.lt_or_gt_of_ne hi with hlt | hgt
    · rw [coef_of_le (p := y) (by omega)]
      exact gfMul_zero_right t _
    · rw [coef_of_le (p := x) (by omega)]
      exact gfMul_zero_left t _

/-! ## Multiplication -/

theorem coef_map_gfMul (t : Tables) (a : Byte) (y : List Byte) (i : Nat) :
    coef (y.map (gfMul t a)) i = gfMul t a (coef y i) := by
  by_cases h : i < y.length
  · rw [coef_eq_getElem (by simpa using h), coef_eq_getElem h, List.getElem_map]
  · rw [coef_of_le (by simpa using h), coef_of_le (by simpa using h)]
    exact (gfMul_zero_right t a).symm

/-- Where the whole row fits, every coefficient of it is XORed in at its place. -/
theorem coef_xorRow_of_fits {r row : List Byte} {i : Nat} (h : i + row.length ≤ r.length) (k : Nat) :
    coef (xorRow r i row) k = coef r k ^^^ (if i ≤ k then coef row (k - i) else 0) := by
  rw [coef_xorRow]
  by_cases hik : i ≤ k
  · by_cases hk : k < r.length
    · simp [hk, hik]
    · simp [hk, hik, coef_of_le (p := row) (i := k - i) (by omega)]
  · simp [hik]

/-- What pass i of the loop of R133 adds to coefficient k of the product. -/
def productTerm (t : Tables) (x y : List Byte) (k i : Nat) : Byte :=
  if i ≤ k then gfMul t (coef x i) (coef y (k - i)) else 0

/-- The passes i > k and those from len(x) up add nothing to coefficient k. -/
theorem xorSum_productTerm (t : Tables) (x y : List Byte) (k : Nat) :
    xorSum x.length (productTerm t x y k) = convolution t x y k := by
  rw [xorSum_eq_of_zero_from (m := k + 1), convolution_eq_xorSum]
  · exact xorSum_congr fun i hi => if_pos (by omega)
  · intro i hi
    simp [productTerm, coef_of_le hi]
  · exact fun i hi => if_neg (by omega)

/-- After n passes of the loop of R133 the terms with i < n have been added. -/
theorem coef_pMul_of_ne_nil (t : Tables) {x y : List Byte} (hx : x ≠ []) (hy : y ≠ []) (k : Nat) :
    coef (pMul t x y) k = convolution t x y k := by
  rw [pMul, if_neg (by simp [hx, hy]), ← xorSum_productTerm]
  refine (forUpto_invariant (fun n (r : List Byte) =>
    r.length = x.length + y.length - 1 ∧ coef r k = xorSum n (productTerm t x y k)) ⟨by simp, coef_zeros _ k⟩ ?_).2
  intro i r hi ⟨hr, hc⟩
  refine ⟨by rw [xorRow_length, hr], ?_⟩
  rw [coef_xorRow_of_fits (by rw [List.length_map]; omega), hc, coef_map_gfMul, xorSum_succ, productTerm]

/-- The coefficients of `p_mul` are the convolution, of empty operands too. -/
theorem coef_pMul (t : Tables) (x y : List Byte) (k : Nat) : coef (pMul t x y) k = convolution t x y k := by
  by_cases hx : x = []
  · rw [hx, convolution_nil_left]
    rfl
  by_cases hy : y = []
  · rw [hy, convolution_nil_right, pMul, if_pos (.inr rfl)]
    rfl
  exact coef_pMul_of_ne_nil t hx hy k

/-- Settles O28, by the loop of R133. -/
theorem multiplyIsTheConvolution : Obligations.MultiplyIsTheConvolution := by
  exact fun t x y => ⟨fun h => if_pos (by simpa using h), fun hx hy => ⟨pMul_length hx hy, coef_pMul t x y⟩⟩

/-- Bytes that are not zero have a product that is not zero, so the highest coefficient stays. -/
theorem Tables.Powers.normalized_pMul {t : Tables} {poly : Nat} (h : t.Powers poly) {x y : List Byte}
    (hx : x ≠ []) (hy : y ≠ []) (hnx : Normalized x) (hny : Normalized y) : Normalized (pMul t x y) := by
  by_cases he : pMul t x y = []
  · simp [he, Normalized]
  · rw [normalized_iff he, pMul_length hx hy, coef_pMul, Nat.sub_sub, convolution_top t hx hy]
    exact h.mul_ne_zero ((normalized_iff hx).mp hnx) ((normalized_iff hy).mp hny)

/-- The generator is monic. -/
theorem Tables.Powers.normalized_gen {t : Tables} {poly : Nat} (h : t.Powers poly) (e : Nat) :
    Normalized (gen t e) := by
  have hmonic := (gen_top_coefficients h.one_mul h.mul_one e).1
  rw [normalized_iff (List.ne_nil_of_length_eq_add_one (gen_length t e)), gen_length, Nat.add_sub_cancel, hmonic]
  decide

/-- Settles O31, by the highest coefficients. -/
theorem productsOfNormalizedAreNormalized : Obligations.ProductsOfNormalizedAreNormalized := by
  intro s hs hf
  obtain ⟨poly, h⟩ := hs.powers hf
  exact ⟨fun x y hx hy hnx hny => ⟨h.normalized_pMul hx hy hnx hny, pMul_length hx hy⟩, h.normalized_gen⟩

end Sys2Proof.Machine
end

section
/-! PROOFS. Division with remainder (R134, R145, R146): every pass keeps the division identity coefficient by coefficient
and shortens the remainder, and the identity alone fixes the length of the quotient. -/
namespace Sys2Proof.Machine

/-! ## The identity -/

/-- What every pass of the loop of R134 keeps, for the dividend x and the divisor d: the coefficients of q * d + r are
those of x, and both results so far are normalized. -/
structure Dividing (t : Tables) (x d : List Byte) (qr : List Byte × List Byte) : Prop where
  identity : ∀ k, convolution t qr.1 d k ^^^ coef qr.2 k = coef x k
  quotient : Normalized qr.1
  remainder : Normalized qr.2

/-- At the start the quotient is the zero polynomial and the remainder the whole dividend. -/
theorem Dividing.start (t : Tables) (x d : List Byte) : Dividing t x d ([], pNorm x) :=
  ⟨fun k => by simp [convolution_nil_left, coef_pNorm], by simp [Normalized], normalized_pNorm x⟩

/-- The identity for sequences: with any sequence y of the divisor's coefficients, q * y + r is the
dividend, normalized. -/
theorem Dividing.pAdd_pMul {t : Tables} {x d y : List Byte} {qr : List Byte × List Byte} (hqr : Dividing t x d qr)
    (hy : ∀ i, coef d i = coef y i) : pAdd (pMul t qr.1 y) qr.2 = pNorm x :=
  pAdd_eq_of_coef (normalized_pNorm x) fun k => by
    rw [coef_pMul, ← convolution_congr_right hy, hqr.identity, coef_pNorm]

/-- The factor of the monomial that one pass adds to the quotient: the highest coefficient of the remainder over that of
the divisor. -/
def leadingQuotient (t : Tables) (d r : List Byte) : Byte :=
  gfMul t (coef r (r.length - 1)) (gfInv t (coef d (d.length - 1)))

theorem divPass_eq (t : Tables) (d q r : List Byte) : divPass t d (q, r) =
    (pAdd q (pMono (leadingQuotient t d r) (r.length - d.length)),
      pAdd r (pMul t (pMono (leadingQuotient t d r) (r.length - d.length)) d)) := rfl

/-- A remainder shorter than the divisor ends the loop. -/
theorem divLoop_of_lt {t : Tables} {d : List Byte} {qr : List Byte × List Byte} (hlt : qr.2.length < d.length)
    (fuel : Nat) : divLoop t d fuel qr = qr := by
  cases fuel with
  | zero => rfl
  | succ fuel => rw [divLoop, if_neg (by omega)]

section
variable {t : Tables} {poly : Nat} (h : t.Powers poly)
include h

theorem Tables.Powers.convolution_pAdd_left (x x' y : List Byte) (k : Nat) :
    convolution t (pAdd x x') y k = convolution t x y k ^^^ convolution t x' y k := by
  have hmul (a b c : Byte) : gfMul t (a ^^^ b) c = gfMul t a c ^^^ gfMul t b c := by
    simpa only [gfAdd, gfMul_comm t _ c] using h.mul_add c a b
  simp only [convolution_eq_xorSum, coef_pAdd, hmul, xorSum_xor]

/-- The monomial times the divisor is added on both sides. -/
theorem Dividing.pass {x d : List Byte} {qr : List Byte × List Byte} (hqr : Dividing t x d qr) :
    Dividing t x d (divPass t d qr) := by
  obtain ⟨q, r⟩ := qr
  rw [divPass_eq]
  refine ⟨fun k => ?_, normalized_pAdd _ _, normalized_pAdd _ _⟩
  rw [← hqr.identity k, h.convolution_pAdd_left, coef_pAdd, coef_pMul, BitVec.xor_assoc]
  congr 1
  simp [BitVec.xor_comm (coef r k)]

theorem Dividing.loop {x d : List Byte} {fuel : Nat} {qr : List Byte × List Byte} (hqr : Dividing t x d qr) :
    Dividing t x d (divLoop t d fuel qr) := by
  induction fuel generalizing qr with
  | zero => exact hqr
  | succ fuel ih =>
    rw [divLoop]
    split
    · exact ih (hqr.pass h)
    · exact hqr

/-! ## The passes -/

/-- The factor is chosen so that the divisor's highest coefficient becomes the remainder's. -/
theorem Tables.Powers.leadingQuotient_mul {d r : List Byte} (hd : coef d (d.length - 1) ≠ 0) :
    gfMul t (leadingQuotient t d r) (coef d (d.length - 1)) = coef r (r.length - 1) := by
  rw [leadingQuotient, h.mul_assoc, gfMul_comm t (gfInv t _), h.mul_inv hd, h.mul_one]

/-- A pass clears the highest coefficient of the remainder and sets none above it. -/
theorem Tables.Powers.divPass_shortens {d : List Byte} {qr : List Byte × List Byte} (hd : d ≠ []) (hnd : Normalized d)
    (hge : qr.2.length ≥ d.length) : (divPass t d qr).2.length ≤ qr.2.length - 1 := by
  obtain ⟨q, r⟩ := qr
  dsimp only at hge ⊢
  have hdl := List.length_pos_iff.mpr hd
  rw [divPass_eq]
  refine (normalized_pAdd _ _).length_le fun i hi => ?_
  rw [coef_pAdd, coef_pMul, convolution_pMono, if_pos (by omega)]
  rcases hi.eq_or_lt with rfl | hi
  · rw [show r.length - 1 - (r.length - d.length) = d.length - 1 by omega,
      h.leadingQuotient_mul ((normalized_iff hd).mp hnd), BitVec.xor_self]
    rfl
  · rw [coef_of_le (p := r) (by omega), coef_of_le (p := d) (by omega)]
    simp

/-- With n - m + 1 passes the loop ends because the remainder is shorter than the divisor. -/
theorem Tables.Powers.divLoop_ends {d : List Byte} {fuel : Nat} {qr : List Byte × List Byte} (hd : d ≠ [])
    (hnd : Normalized d) (hfuel : qr.2.length + 1 - d.length ≤ fuel) :
    (divLoop t d fuel qr).2.length < d.length := by
  have hdl := List.length_pos_iff.mpr hd
  induction fuel generalizing qr with
  | zero =>
    have hlt : qr.2.length < d.length := by omega
    rwa [divLoop_of_lt hlt]
  | succ fuel ih =>
    rw [divLoop]
    split
    next hge =>
      have := h.divPass_shortens hd hnd hge
      exact ih (by omega)
    next hlt => exact Nat.lt_of_not_ge hlt

/-- More passes than that change nothing. -/
theorem Tables.Powers.divLoop_fuel {d : List Byte} {fuel fuel' : Nat} {qr : List Byte × List Byte} (hd : d ≠ [])
    (hnd : Normalized d) (hfuel : qr.2.length + 1 - d.length ≤ fuel) (hfuel' : qr.2.length + 1 - d.length ≤ fuel') :
    divLoop t d fuel qr = divLoop t d fuel' qr := by
  have hdl := List.length_pos_iff.mpr hd
  induction fuel generalizing qr fuel' with
  | zero => rw [divLoop_of_lt (by omega), divLoop_of_lt (by omega)]
  | succ fuel ih =>
    by_cases hlt : qr.2.length < d.length
    · rw [divLoop_of_lt hlt, divLoop_of_lt hlt]
    · obtain ⟨n, rfl⟩ : ∃ n, fuel' = n + 1 := ⟨fuel' - 1, by omega⟩
      have := h.divPass_shortens hd hnd (Nat.le_of_not_lt hlt)
      rw [divLoop, divLoop, if_pos (by omega), if_pos (by omega)]
      exact ih (by omega) (by omega)

/-! ## What a division gives -/

theorem Tables.Powers.divBy_dividing (x d : List Byte) : Dividing t x d (divBy t x d) :=
  (Dividing.start t x d).loop h

/-- The bound that the model puts on the passes is enough (log 7). -/
theorem Tables.Powers.divBy_remainder_lt (x : List Byte) {d : List Byte} (hd : d ≠ []) (hnd : Normalized d) :
    (divBy t x d).2.length < d.length := by
  have hdl := List.length_pos_iff.mpr hd
  exact h.divLoop_ends hd hnd (by dsimp only; omega)

/-- A remainder shorter than the divisor leaves the highest coefficient of the dividend to the product, so that the
identity fixes the length of the quotient. -/
theorem Dividing.quotient_length {x d q r : List Byte} (hqr : Dividing t x d (q, r)) (hd : d ≠ []) (hnd : Normalized d)
    (hlt : r.length < d.length) :
    q.length = if d.length ≤ (pNorm x).length then (pNorm x).length - d.length + 1 else 0 := by
  have hsum := congrArg List.length (hqr.pAdd_pMul fun _ => rfl)
  dsimp only at hsum
  by_cases hq : q = []
  · have hle := pAdd_length_le (pMul t q d) r
    have hp : (pMul t q d).length = 0 := by simp [pMul, hq]
    rw [hq, List.length_nil, if_neg (by omega)]
  · have hdl := List.length_pos_iff.mpr hd
    have hql := List.length_pos_iff.mpr hq
    have hp := pMul_length (t := t) hq hd
    rw [length_pAdd_of_lt (h.normalized_pMul hq hd hqr.quotient hnd) (by omega)] at hsum
    rw [if_pos (by omega)]
    omega

end

theorem pDiv_of_ne_nil (t : Tables) (x : List Byte) {y : List Byte} (hy : pNorm y ≠ []) :
    pDiv t x y = some (divBy t x (pNorm y)) :=
  if_neg (by simpa using hy)

theorem pDiv_eq_some {t : Tables} {x y : List Byte} {qr : List Byte × List Byte} (h : pDiv t x y = some qr) :
    pNorm y ≠ [] ∧ divBy t x (pNorm y) = qr := by
  have hy : pNorm y ≠ [] := fun hy => by simp [pDiv, hy] at h
  exact ⟨hy, Option.some_inj.mp ((pDiv_of_ne_nil t x hy).symm.trans h)⟩

/-- Settles O29: the identity that every pass keeps, for the divisor before it is normalized. -/
theorem divisionIdentityHolds : Obligations.DivisionIdentityHolds := by
  intro s hs hf x y hy
  obtain ⟨poly, h⟩ := hs.powers hf
  exact ⟨_, _, pDiv_of_ne_nil s.tbl x hy, (h.divBy_dividing x (pNorm y)).pAdd_pMul (coef_pNorm y),
    h.divBy_remainder_lt x hy (normalized_pNorm y)⟩

/-- Settles O30: the identity gives the length, and each pass shortens the remainder. -/
theorem divisionTerminatesWithinItsBound : Obligations.DivisionTerminatesWithinItsBound := by
  intro s hs hf x y q r hqr
  obtain ⟨poly, h⟩ := hs.powers hf
  obtain ⟨hy, hqr⟩ := pDiv_eq_some hqr
  have hdiv := h.divBy_dividing x (pNorm y)
  have hlt := h.divBy_remainder_lt x hy (normalized_pNorm y)
  have hyl := List.length_pos_iff.mpr hy
  rw [hqr] at hdiv hlt
  refine ⟨hdiv.quotient_length h hy (normalized_pNorm y) hlt, hdiv.quotient, hdiv.remainder, fun fuel hfuel => ?_⟩
  exact (h.divLoop_fuel hy (normalized_pNorm y) hfuel (by dsimp only; omega)).trans hqr

end Sys2Proof.Machine
end

section
/-! PROOFS. The commands of the polynomial block (R135 to R144), in the statements' words: `answered` and `failed`. -/
namespace Sys2Proof.Machine

/-! ## The commands that load, copy and read registers -/

theorem execPpush_full {s : State} {rd : Reg} (b : Byte) (hm : Memory.wf s) (h : (s.poly rd).length = s.params.pcap) :
    execPpush rd b s = .next (s.failed 11) := by
  rw [execPpush, if_pos (poly_length hm rd ▸ h)]
  exact raise_eq_failed .capacityExceeded s

theorem execPpush_appends {s : State} {rd : Reg} (b : Byte) (hm : Memory.wf s)
    (h : (s.poly rd).length < s.params.pcap) :
    execPpush rd b s = .next ((s.setPoly rd (s.poly rd ++ [b])).answered 0) := by
  rw [execPpush, if_neg (poly_length hm rd ▸ h.ne), done_eq_answered]

/-- A length fits the 16 bits of a response (R5, R76). -/
theorem execPrdl_answers {s : State} (ra : Reg) (hs : s.Inv) :
    execPrdl ra s = .next (s.answered (s.poly ra).length) := by
  have hle := poly_length_le hs.memory ra
  have hcap := hs.params.2.1
  rw [execPrdl, respond_eq_answered, ← poly_length hs.memory ra, valueOfNat, BitVec.toNat_ofNat,
    Nat.mod_eq_of_lt (by omega)]

theorem execPrdc_beyond {s : State} {ra : Reg} {i : Half} (hm : Memory.wf s) (h : (s.poly ra).length ≤ i.toNat) :
    execPrdc ra i s = .next (s.failed 12) := by
  rw [execPrdc, if_pos (poly_length hm ra ▸ h)]
  exact raise_eq_failed .indexOutOfRange s

theorem execPrdc_answers {s : State} {ra : Reg} {i : Half} {c : Byte} (hm : Memory.wf s)
    (h : (s.poly ra)[i.toNat]? = some c) : execPrdc ra i s = .next (s.answered c.toNat) := by
  have hi : i.toNat < s.p[ra].len := by
    rw [← poly_length hm ra]
    exact (List.getElem?_eq_some_iff.mp h).1
  have hc : byteAt s.p[ra].bytes i.toNat = c :=
    Option.some_inj.mp ((byteAt_value (register_wf hm ra) hi).symm.trans h)
  rw [execPrdc, if_neg hi.not_ge, respond_valueOfByte, hc]

/-- Settles O23, one lemma per test of the five commands. -/
theorem loadCommandsFollowTheirRules : Obligations.LoadCommandsFollowTheirRules := by
  intro s rd ra b i hs
  have hm := hs.memory
  exact ⟨⟨encode_toNat _, encode_toNat _, encode_toNat _, encode_toNat _, encode_toNat _⟩, done_eq_answered _,
    execPpush_full b hm, execPpush_appends b hm, execPrdl_answers ra hs, execPrdc_beyond hm,
    fun _ => execPrdc_answers hm, done_eq_answered _⟩

/-! ## The commands that need the field -/

theorem needField_failed {s : State} (k : Result) (hf : s.fvalid = false) : needField s k = .next (s.failed 9) := by
  rw [needField_not_ready k hf, fail_eq_failed]
  rfl

theorem needField_done {s : State} (u : State) (hf : s.fvalid = true) :
    needField s (done u) = .next (u.answered 0) := by
  rw [needField_ready _ hf, done_eq_answered]

theorem execPmono_too_long {s : State} (rd : Reg) (c : Byte) {n : Half} (hf : s.fvalid = true)
    (h : s.params.pcap < n.toNat + 1) : execPmono rd c n s = .next (s.failed 11) := by
  rw [execPmono, needField_ready _ hf, if_pos h]
  exact raise_eq_failed .capacityExceeded s

theorem execPmono_writes {s : State} (rd : Reg) (c : Byte) {n : Half} (hf : s.fvalid = true)
    (h : n.toNat + 1 ≤ s.params.pcap) :
    execPmono rd c n s = .next ((s.setPoly rd (pMono c n.toNat)).answered 0) := by
  rw [execPmono, needField_ready _ hf, if_neg h.not_gt, done_eq_answered]

theorem execPmul_too_long {s : State} (rd : Reg) {ra rb : Reg} (hf : s.fvalid = true) (ha : s.poly ra ≠ [])
    (hb : s.poly rb ≠ []) (h : s.params.pcap < (s.poly ra).length + (s.poly rb).length - 1) :
    execPmul rd ra rb s = .next (s.failed 11) := by
  rw [execPmul, needField_ready _ hf]
  exact (if_pos ⟨List.length_pos_iff.mpr ha, List.length_pos_iff.mpr hb, h⟩).trans
    (raise_eq_failed .capacityExceeded s)

theorem execPmul_writes {s : State} (rd : Reg) {ra rb : Reg} (hf : s.fvalid = true)
    (h : s.poly ra = [] ∨ s.poly rb = [] ∨ (s.poly ra).length + (s.poly rb).length - 1 ≤ s.params.pcap) :
    execPmul rd ra rb s = .next ((s.setPoly rd (pMul s.tbl (s.poly ra) (s.poly rb))).answered 0) := by
  rw [execPmul, needField_ready _ hf]
  refine (if_neg ?_).trans (done_eq_answered _)
  simp only [← List.length_eq_zero_iff] at h
  omega

/-- Settles O24, one lemma per test of the four commands. -/
theorem algebraCommandsFollowTheirRules : Obligations.AlgebraCommandsFollowTheirRules := by
  intro s rd ra rb c n
  refine ⟨⟨encode_toNat _, encode_toNat _, encode_toNat _, encode_toNat _⟩, fun hf => ?_, fun hf => ?_⟩
  · exact ⟨needField_failed _ hf, needField_failed _ hf, needField_failed _ hf, needField_failed _ hf⟩
  · exact ⟨needField_done _ hf, needField_done _ hf, execPmono_too_long rd c hf, execPmono_writes rd c hf,
      execPmul_too_long rd hf, execPmul_writes rd hf⟩

/-! ## PDIV -/

theorem execPdiv_one_destination {s : State} {rq rr : Reg} (ra rb : Reg) (h : rq = rr) :
    execPdiv rq rr ra rb s = .next (s.failed 8) := by
  rw [execPdiv, if_pos h]
  exact raise_eq_failed .illegalCommand s

theorem execPdiv_by_zero {s : State} {rq rr rb : Reg} (ra : Reg) (hne : rq ≠ rr) (hf : s.fvalid = true)
    (hb : pNorm (s.poly rb) = []) : execPdiv rq rr ra rb s = .next (s.failed 3) := by
  rw [execPdiv, if_neg hne, needField_ready _ hf, pDiv, if_pos (List.length_eq_zero_iff.mpr hb)]
  exact raise_eq_failed .divideByZeroPolynomial s

theorem execPdiv_writes {s : State} {rq rr ra rb : Reg} {q r : List Byte} (hne : rq ≠ rr) (hf : s.fvalid = true)
    (hqr : pDiv s.tbl (s.poly ra) (s.poly rb) = some (q, r)) :
    execPdiv rq rr ra rb s = .next (((s.setPoly rq q).setPoly rr r).answered 0) := by
  rw [execPdiv, if_neg hne, needField_ready _ hf, hqr]
  exact done_eq_answered _

/-- Settles O25, one lemma per test of PDIV. -/
theorem pdivFollowsItsRule : Obligations.PdivFollowsItsRule := by
  intro s rq rr ra rb
  refine ⟨encode_toNat _, execPdiv_one_destination ra rb, fun hne hf => ?_, execPdiv_by_zero ra,
    fun hne hf hb => ?_⟩
  · exact (if_neg hne).trans (needField_failed _ hf)
  · have hqr := pDiv_of_ne_nil s.tbl (s.poly ra) hb
    exact ⟨_, _, hqr, execPdiv_writes hne hf hqr⟩

end Sys2Proof.Machine
end

section
/-! PROOFS. The value of a polynomial at a point: it depends on the coefficients alone, and the value of a sum or a
product is the sum or product of the values. -/
namespace Sys2Proof.Machine

/-! ## Horner's rule, one coefficient at a time -/

theorem evalAt_cons (t : Tables) (c : Byte) (p : List Byte) (a : Byte) :
    evalAt t (c :: p) a = c ^^^ gfMul t a (evalAt t p a) := rfl

theorem evalAt_eq_head_tail (t : Tables) (p : List Byte) (a : Byte) :
    evalAt t p a = coef p 0 ^^^ gfMul t a (evalAt t p.tail a) := by
  cases p with
  | nil => simp [evalAt]
  | cons c p => rfl

theorem coef_tail (p : List Byte) (i : Nat) : coef p.tail i = coef p (i + 1) := by
  cases p <;> rfl

/-! ## The convolution with a first coefficient split off -/

theorem xorSum_succ_left (n : Nat) (f : Nat → Byte) : xorSum (n + 1) f = f 0 ^^^ xorSum n fun i => f (i + 1) := by
  induction n with
  | zero => simp [xorSum_succ]
  | succ n ih => rw [xorSum_succ, ih, xorSum_succ, BitVec.xor_assoc]

theorem convolution_cons_left (t : Tables) (c : Byte) (x y : List Byte) (k : Nat) :
    convolution t (c :: x) y k = gfMul t c (coef y k) ^^^ coef (0 :: pMul t x y) k := by
  rw [convolution_eq_xorSum, xorSum_succ_left]
  congr 1
  cases k with
  | zero => rfl
  | succ k =>
    rw [coef_cons_succ, coef_pMul, convolution_eq_xorSum]
    exact xorSum_congr fun i _ => by rw [coef_cons_succ, Nat.add_sub_add_right]

section
variable {t : Tables} {poly : Nat} (h : t.Powers poly)
include h

theorem Tables.Powers.mul_xor (x y z : Byte) : gfMul t x (y ^^^ z) = gfMul t x y ^^^ gfMul t x z :=
  h.mul_add x y z

theorem Tables.Powers.xor_mul (x y z : Byte) : gfMul t (x ^^^ y) z = gfMul t x z ^^^ gfMul t y z := by
  rw [gfMul_comm, h.mul_xor, gfMul_comm t z, gfMul_comm t z]

/-! ## Sums, multiples and products -/

/-- By induction on a bound of the three lengths, with the constant terms split off. -/
theorem Tables.Powers.evalAt_of_coef_xor {x y z : List Byte} (hz : ∀ i, coef z i = coef x i ^^^ coef y i) (a : Byte) :
    evalAt t z a = evalAt t x a ^^^ evalAt t y a := by
  obtain ⟨n, hxn, hyn, hzn⟩ : ∃ n, x.length ≤ n ∧ y.length ≤ n ∧ z.length ≤ n :=
    ⟨x.length + y.length + z.length, by omega, by omega, by omega⟩
  induction n generalizing x y z with
  | zero =>
    rw [List.length_eq_zero_iff.mp (Nat.le_zero.mp hxn), List.length_eq_zero_iff.mp (Nat.le_zero.mp hyn),
      List.length_eq_zero_iff.mp (Nat.le_zero.mp hzn)]
    exact BitVec.xor_self.symm
  | succ n ih =>
    have htail : evalAt t z.tail a = evalAt t x.tail a ^^^ evalAt t y.tail a := by
      refine ih (fun i => ?_) ?_ ?_ ?_
      · simpa only [coef_tail] using hz (i + 1)
      all_goals rw [List.length_tail]; omega
    rw [evalAt_eq_head_tail t x, evalAt_eq_head_tail t y, evalAt_eq_head_tail t z, htail, hz, h.mul_xor]
    ac_rfl

theorem Tables.Powers.evalAt_congr {x y : List Byte} (hxy : ∀ i, coef x i = coef y i) (a : Byte) :
    evalAt t x a = evalAt t y a := by
  rw [h.evalAt_of_coef_xor (x := y) (y := []) (fun i => by simp [hxy i])]
  exact BitVec.xor_zero

theorem Tables.Powers.evalAt_map_gfMul (c : Byte) (y : List Byte) (a : Byte) :
    evalAt t (y.map (gfMul t c)) a = gfMul t c (evalAt t y a) := by
  induction y with
  | nil => exact (gfMul_zero_right t c).symm
  | cons b y ih =>
    rw [List.map_cons, evalAt_cons, evalAt_cons, ih, h.mul_xor, ← h.mul_assoc a c, gfMul_comm t a c, h.mul_assoc]

/-- The value of a product is the product of the values: (c + x * x') * y = c * y + x * (x' * y). -/
theorem Tables.Powers.evalAt_pMul (x y : List Byte) (a : Byte) :
    evalAt t (pMul t x y) a = gfMul t (evalAt t x a) (evalAt t y a) := by
  induction x with
  | nil => exact (gfMul_zero_left t _).symm
  | cons c x ih =>
    have hcoef (k : Nat) : coef (pMul t (c :: x) y) k = coef (y.map (gfMul t c)) k ^^^ coef (0 :: pMul t x y) k := by
      rw [coef_pMul, convolution_cons_left, coef_map_gfMul]
    calc evalAt t (pMul t (c :: x) y) a
        = gfMul t c (evalAt t y a) ^^^ evalAt t (0 :: pMul t x y) a := by
          rw [h.evalAt_of_coef_xor hcoef, h.evalAt_map_gfMul]
      _ = gfMul t c (evalAt t y a) ^^^ gfMul t a (gfMul t (evalAt t x a) (evalAt t y a)) := by
          rw [evalAt_cons, ih]
          exact congrArg _ BitVec.zero_xor
      _ = gfMul t (evalAt t (c :: x) a) (evalAt t y a) := by rw [evalAt_cons, h.xor_mul, h.mul_assoc]

end

end Sys2Proof.Machine
end

section
/-! PROOFS. Generator synthesis (R170, R171, R173): the generator of degree e + 1 is that of degree e with one more
factor, which multiplies the constant term by 2^e and adds the root 2^e. -/
namespace Sys2Proof.Machine

/-! ## The constant term and the roots -/

theorem gen_ne_nil (t : Tables) (e : Nat) : gen t e ≠ [] :=
  List.ne_nil_of_length_eq_add_one (gen_length t e)

section
variable {t : Tables} {poly : Nat} (h : t.Powers poly)
include h

/-- The exponents of a product add up. -/
theorem Tables.Powers.gfExp_mul_gfExp (m n : Nat) :
    gfMul t (gfExp t (m : Int)) (gfExp t (n : Int)) = gfExp t ((m + n : Nat) : Int) := by
  have hm : m % 255 < 255 := Nat.mod_lt _ (by omega)
  have hn : n % 255 < 255 := Nat.mod_lt _ (by omega)
  rw [gfExp_natCast, gfExp_natCast, gfExp_natCast,
    gfMul_of_ne_zero (h.exp_ne_zero (by omega)) (h.exp_ne_zero (by omega)), h.log_exp _ hm, h.log_exp _ hn,
    ← h.exp_mod (by omega), ← Nat.add_mod]

theorem Tables.Powers.gen_constant_term (e : Nat) :
    coef (gen t e) 0 = gfExp t ((e * (e - 1) / 2 : Nat) : Int) := by
  induction e with
  | zero => exact h.exp_zero.symm
  | succ e ih =>
    rw [gen, (pMul_pair (gen_ne_nil t e) _ _).2, if_pos rfl, ih, h.gfExp_mul_gfExp, ← Nat.triangle_succ]
    exact BitVec.xor_zero

/-- The factor x + r has the value 0 at r. -/
theorem Tables.Powers.evalAt_factor (r a : Byte) : evalAt t [r, 1] a = r ^^^ a := by
  calc evalAt t [r, 1] a
      = r ^^^ gfMul t a 1 := by simp [evalAt]
    _ = r ^^^ a := by rw [h.mul_one]

theorem Tables.Powers.gen_root {e i : Nat} (hi : i < e) : evalAt t (gen t e) (gfExp t (i : Int)) = 0 := by
  induction e with
  | zero => omega
  | succ e ih =>
    rw [gen, h.evalAt_pMul, h.evalAt_factor]
    rcases Nat.lt_succ_iff_lt_or_eq.mp hi with hlt | rfl
    · rw [ih hlt]
      exact gfMul_zero_left t _
    · rw [BitVec.xor_self]
      exact gfMul_zero_right t _

/-- The first 255 powers of 2 have their exponents as logarithms. -/
theorem Tables.Powers.gfExp_ne_of_lt {i j : Nat} (hij : i < j) (hj : j < 255) :
    gfExp t (i : Int) ≠ gfExp t (j : Int) := fun heq => by
  have hlog := congrArg (gfLog t) heq
  rw [h.log_of_exp (hij.trans hj), h.log_of_exp hj] at hlog
  omega

end

/-- Settles O33, by the factors that `gen` multiplies up. -/
theorem generatorHasItsRoots : Obligations.GeneratorHasItsRoots := by
  intro s hs hf e
  obtain ⟨poly, h⟩ := hs.powers hf
  exact ⟨gen_length s.tbl e, (gen_top_coefficients h.one_mul h.mul_one e).1, h.gen_constant_term e,
    fun i => h.gen_root, fun he i j hij hj => h.gfExp_ne_of_lt hij (hj.trans_le he)⟩

/-! ## GEN -/

theorem execGen_too_long {s : State} (rd : Reg) {e : Half} (hf : s.fvalid = true) (h : s.params.pcap < e.toNat + 1) :
    execGen rd e s = .next (s.failed 11) := by
  rw [execGen, needField_ready _ hf, if_pos h]
  exact raise_eq_failed .capacityExceeded s

theorem execGen_writes {s : State} (rd : Reg) {e : Half} (hf : s.fvalid = true) (h : e.toNat + 1 ≤ s.params.pcap) :
    execGen rd e s = .next ((s.setPoly rd (gen s.tbl e.toNat)).answered 0) := by
  rw [execGen, needField_ready _ hf, if_neg h.not_gt, done_eq_answered]

/-- Settles O32, one lemma per test of GEN. -/
theorem genFollowsItsRule : Obligations.GenFollowsItsRule := by
  intro s rd e
  exact ⟨encode_toNat _, needField_failed _, execGen_too_long rd, execGen_writes rd⟩

end Sys2Proof.Machine
end

section
/-! PROOFS. Reference check bytes (R172, R174, R175): the remainder of a division is unique, so that the check bytes are
the one sequence that makes the shifted data a multiple of the generator. -/
namespace Sys2Proof.Machine

/-! ## Sequences with the same coefficients -/

theorem pNorm_congr {x y : List Byte} (hxy : ∀ i, coef x i = coef y i) : pNorm x = pNorm y :=
  (normalized_pNorm x).eq_of_coef (normalized_pNorm y) fun i => by rw [coef_pNorm, coef_pNorm, hxy]

theorem Normalized.pNorm_eq {x : List Byte} (hx : Normalized x) : pNorm x = x :=
  (normalized_pNorm x).eq_of_coef hx (coef_pNorm x)

theorem coef_append (x y : List Byte) (i : Nat) :
    coef (x ++ y) i = if i < x.length then coef x i else coef y (i - x.length) := by
  split
  · exact List.getD_append x y 0 i ‹_›
  · exact List.getD_append_right x y 0 i (by omega)

theorem coef_reverse {x : List Byte} {i : Nat} (hi : i < x.length) : coef x.reverse i = coef x (x.length - 1 - i) := by
  rw [coef_eq_getElem (by simpa using hi), coef_eq_getElem (by omega), List.getElem_reverse]

theorem coef_zipWith_xor {x y : List Byte} (hl : x.length = y.length) (i : Nat) :
    coef (List.zipWith (· ^^^ ·) x y) i = coef x i ^^^ coef y i := by
  have hz : (List.zipWith (· ^^^ ·) x y).length = x.length := by rw [List.length_zipWith, hl, min_self]
  by_cases hi : i < x.length
  · rw [coef_eq_getElem (hz ▸ hi), List.getElem_zipWith, coef_eq_getElem hi, coef_eq_getElem (hl ▸ hi)]
  · rw [coef_of_le (by omega), coef_of_le (by omega), coef_of_le (by omega)]
    rfl

theorem coef_reverse_zipWith_xor {x y : List Byte} (hl : x.length = y.length) (i : Nat) :
    coef (List.zipWith (· ^^^ ·) x y).reverse i = coef x.reverse i ^^^ coef y.reverse i := by
  rw [List.reverse_zipWith hl, coef_zipWith_xor (by simpa using hl)]

/-! ## Division identities -/

section
variable {t : Tables} {d : List Byte}

/-- A division depends on the coefficients of the dividend alone. -/
theorem divBy_congr {x x' : List Byte} (hx : ∀ i, coef x i = coef x' i) : divBy t x d = divBy t x' d := by
  rw [divBy, divBy, pNorm_congr hx]

theorem Dividing.congr {x x' : List Byte} {qr : List Byte × List Byte} (hqr : Dividing t x d qr)
    (hx : ∀ i, coef x i = coef x' i) : Dividing t x' d qr :=
  ⟨fun k => (hqr.identity k).trans (hx k), hqr.quotient, hqr.remainder⟩

variable {poly : Nat} (h : t.Powers poly)
include h

/-- Divisions by one divisor add up. -/
theorem Dividing.add {x x' q q' r r' : List Byte} (hqr : Dividing t x d (q, r)) (hqr' : Dividing t x' d (q', r')) :
    Dividing t (pAdd x x') d (pAdd q q', pAdd r r') := by
  refine ⟨fun k => ?_, normalized_pAdd _ _, normalized_pAdd _ _⟩
  rw [h.convolution_pAdd_left, coef_pAdd, coef_pAdd, ← hqr.identity, ← hqr'.identity]
  ac_rfl

/-- With remainders shorter than the divisor, the sum of two divisions of one dividend is a division of zero, whose
quotient is empty. -/
theorem Dividing.remainder_unique {x q q' r r' : List Byte} (hqr : Dividing t x d (q, r))
    (hqr' : Dividing t x d (q', r')) (hd : d ≠ []) (hnd : Normalized d) (hr : r.length < d.length)
    (hr' : r'.length < d.length) : r = r' := by
  have hsum := hqr.add h hqr'
  have hzero : pNorm (pAdd x x) = [] := by
    rw [pAdd_eq_of_coef (z := []) (by simp [Normalized]) fun i => BitVec.xor_self]
    rfl
  have hlen := hsum.quotient_length h hd hnd ((pAdd_length_le r r').trans_lt (max_lt hr hr'))
  have hdl := List.length_pos_iff.mpr hd
  rw [hzero, List.length_nil, if_neg (by omega), List.length_eq_zero_iff] at hlen
  refine hqr.remainder.eq_of_coef hqr'.remainder fun k => ?_
  have hk := hsum.identity k
  dsimp only at hk
  rw [hlen, convolution_nil_left, coef_pAdd, coef_pAdd, BitVec.xor_self] at hk
  exact BitVec.xor_eq_zero_iff.mp (BitVec.zero_xor.symm.trans hk)

end

/-! ## The check bytes are a remainder -/

/-- data(x) * x^c, in ascending degree. -/
def shiftedData (data : List Byte) (c : Nat) : List Byte := zeros c ++ data.reverse

theorem coef_shiftedData (data : List Byte) (c i : Nat) :
    coef (shiftedData data c) i = if i < c then 0 else coef data.reverse (i - c) := by
  rw [shiftedData, coef_append, zeros_length, coef_zeros]

/-- A codeword is the sum of the shifted data and the check bytes. -/
theorem coef_codeword {data chk : List Byte} {c : Nat} (hc : chk.length = c) (i : Nat) :
    coef (data ++ chk).reverse i = coef (shiftedData data c) i ^^^ coef chk.reverse i := by
  rw [List.reverse_append, coef_append, coef_shiftedData, List.length_reverse, hc]
  split
  · exact BitVec.zero_xor.symm
  · rw [coef_of_le (p := chk.reverse) (by rw [List.length_reverse]; omega)]
    exact BitVec.xor_zero.symm

theorem coef_refCheck_reverse (t : Tables) (data : List Byte) {c i : Nat} (hi : i < c) :
    coef (refCheck t data c).reverse i =
      coef (divBy t (pMul t (pNorm data.reverse) (pMono 1 c)) (pNorm (gen t c))).2 i := by
  rw [coef_reverse (by rwa [refCheck_length]), refCheck_length, refCheck, coef_map_range, if_pos (by omega)]
  congr 1
  omega

section
variable {t : Tables} {poly : Nat} (h : t.Powers poly)
include h

/-- Multiplying by x^c moves the coefficients c places up. -/
theorem Tables.Powers.coef_pMul_pMono_one (x : List Byte) {c : Nat} (hc : 1 ≤ c) (k : Nat) :
    coef (pMul t x (pMono 1 c)) k = if k < c then 0 else coef x (k - c) := by
  rw [coef_pMul, convolution_eq_xorSum]
  split
  next hk => exact xorSum_eq_zero fun i _ => by simp [coef_pMono, show k - i ≠ c by omega]
  next hk =>
    rw [xorSum_eq_single (j := k - c) (by omega) fun i hi => by simp [coef_pMono, show k - i ≠ c by omega],
      coef_pMono, if_pos (by omega), h.mul_one]

/-- The check bytes, read in descending order, are the remainder of the shifted data (R172). -/
theorem Tables.Powers.exists_divBy_shiftedData (data : List Byte) {c : Nat} (hc : 1 ≤ c) :
    ∃ q, divBy t (shiftedData data c) (gen t c) = (q, pNorm (refCheck t data c).reverse) := by
  have hng := h.normalized_gen c
  have hdividend (k : Nat) :
      coef (pMul t (pNorm data.reverse) (pMono 1 c)) k = coef (shiftedData data c) k := by
    rw [h.coef_pMul_pMono_one _ hc, coef_pNorm, coef_shiftedData]
  have hlt := h.divBy_remainder_lt (shiftedData data c) (gen_ne_nil t c) hng
  rw [gen_length] at hlt
  refine ⟨(divBy t (shiftedData data c) (gen t c)).1, Prod.ext rfl ?_⟩
  refine (h.divBy_dividing _ _).remainder.eq_of_coef (normalized_pNorm _) fun i => ?_
  rw [coef_pNorm]
  by_cases hi : i < c
  · rw [coef_refCheck_reverse t data hi, hng.pNorm_eq, divBy_congr hdividend]
  · rw [coef_of_le (by omega), coef_of_le (by rw [List.length_reverse, refCheck_length]; omega)]

theorem Tables.Powers.refCheck_dividing (data : List Byte) {c : Nat} (hc : 1 ≤ c) :
    ∃ q, Dividing t (shiftedData data c) (gen t c) (q, pNorm (refCheck t data c).reverse) := by
  obtain ⟨q, hq⟩ := h.exists_divBy_shiftedData data hc
  exact ⟨q, hq ▸ h.divBy_dividing (shiftedData data c) (gen t c)⟩

/-- The c bytes that are a remainder of the shifted data are the check bytes. -/
theorem Dividing.eq_refCheck {data chk q : List Byte} {c : Nat}
    (hqr : Dividing t (shiftedData data c) (gen t c) (q, pNorm chk.reverse)) (hc : 1 ≤ c) (hl : chk.length = c) :
    chk = refCheck t data c := by
  obtain ⟨q', href⟩ := h.refCheck_dividing data hc
  have hshort {x : List Byte} (hx : x.length = c) : (pNorm x.reverse).length < (gen t c).length := by
    have := pNorm_length_le x.reverse
    rw [List.length_reverse] at this
    rw [gen_length]
    omega
  have hr := hqr.remainder_unique h href (gen_ne_nil t c) (h.normalized_gen c) (hshort hl)
    (hshort (refCheck_length t data c))
  refine List.reverse_injective (eq_of_coef (by simp [hl]) fun i => ?_)
  rw [← coef_pNorm, hr, coef_pNorm]

/-! ## What R175 says of the check bytes -/

/-- The codeword is the quotient times the generator: adding the remainder to the dividend clears it. -/
theorem Tables.Powers.codeword_multiple (data : List Byte) {c : Nat} (hc : 1 ≤ c) :
    ∃ q, Dividing t (data ++ refCheck t data c).reverse (gen t c) (q, []) := by
  obtain ⟨q, hdiv⟩ := h.refCheck_dividing data hc
  refine ⟨q, fun k => ?_, hdiv.quotient, by simp [Normalized]⟩
  rw [coef_codeword (refCheck_length t data c), ← hdiv.identity, coef_pNorm, BitVec.xor_assoc, BitVec.xor_self]
  rfl

theorem Tables.Powers.pDiv_gen (x : List Byte) (c : Nat) : pDiv t x (gen t c) = some (divBy t x (gen t c)) := by
  have hng := (h.normalized_gen c).pNorm_eq
  rw [pDiv_of_ne_nil t x (by rw [hng]; exact gen_ne_nil t c), hng]

theorem Tables.Powers.pDiv_codeword (data : List Byte) {c : Nat} (hc : 1 ≤ c) :
    ∃ q, pDiv t (data ++ refCheck t data c).reverse (gen t c) = some (q, []) := by
  obtain ⟨q, hq⟩ := h.codeword_multiple data hc
  have hdl := List.length_pos_iff.mpr (gen_ne_nil t c)
  have hr := hq.remainder_unique h (h.divBy_dividing _ _) (gen_ne_nil t c) (h.normalized_gen c) hdl
    (h.divBy_remainder_lt _ (gen_ne_nil t c) (h.normalized_gen c))
  exact ⟨_, (h.pDiv_gen _ c).trans (congrArg some (Prod.ext rfl hr.symm))⟩

/-- A multiple of the generator has the generator's roots. -/
theorem Tables.Powers.codeword_root (data : List Byte) {c i : Nat} (hi : i < c) :
    evalAt t (data ++ refCheck t data c).reverse (gfExp t (i : Int)) = 0 := by
  obtain ⟨q, hq⟩ := h.codeword_multiple data (Nat.one_le_of_lt hi)
  have hproduct (k : Nat) : coef (data ++ refCheck t data c).reverse k = coef (pMul t q (gen t c)) k := by
    rw [← hq.identity, coef_pMul]
    exact BitVec.xor_zero
  rw [h.evalAt_congr hproduct, h.evalAt_pMul, h.gen_root hi]
  exact gfMul_zero_right t _

theorem Tables.Powers.pDiv_shifted (data : List Byte) {c : Nat} (hc : 1 ≤ c) :
    ∃ q, pDiv t (pMul t data.reverse (pMono 1 c)) (gen t c) = some (q, pNorm (refCheck t data c).reverse) := by
  obtain ⟨q, hq⟩ := h.exists_divBy_shiftedData data hc
  refine ⟨q, (h.pDiv_gen _ c).trans (congrArg some (Eq.trans (divBy_congr fun k => ?_) hq))⟩
  rw [h.coef_pMul_pMono_one _ hc, coef_shiftedData]

/-- Both sides are remainders of the sum of the two dividends. -/
theorem Tables.Powers.refCheck_xor {data data' : List Byte} (hl : data'.length = data.length) {c : Nat} (hc : 1 ≤ c) :
    refCheck t (List.zipWith (· ^^^ ·) data data') c =
      List.zipWith (· ^^^ ·) (refCheck t data c) (refCheck t data' c) := by
  obtain ⟨q, hdiv⟩ := h.refCheck_dividing data hc
  obtain ⟨q', hdiv'⟩ := h.refCheck_dividing data' hc
  have hsum := hdiv.add h hdiv'
  have hchk : pAdd (pNorm (refCheck t data c).reverse) (pNorm (refCheck t data' c).reverse) =
      pNorm (List.zipWith (· ^^^ ·) (refCheck t data c) (refCheck t data' c)).reverse :=
    pAdd_eq_of_coef (normalized_pNorm _) fun i => by
      rw [coef_pNorm, coef_pNorm, coef_pNorm, coef_reverse_zipWith_xor (by simp)]
  have hdata (k : Nat) : coef (pAdd (shiftedData data c) (shiftedData data' c)) k =
      coef (shiftedData (List.zipWith (· ^^^ ·) data data') c) k := by
    simp only [coef_pAdd, coef_shiftedData, coef_reverse_zipWith_xor hl.symm]
    split
    · exact BitVec.xor_zero
    · rfl
  rw [hchk] at hsum
  exact ((hsum.congr hdata).eq_refCheck h hc (by simp)).symm

end

/-- Settles O35: the check bytes are the remainder of the shifted data, and remainders are unique. -/
theorem codewordIsAMultipleOfTheGenerator : Obligations.CodewordIsAMultipleOfTheGenerator := by
  intro s hs hf data c hc
  obtain ⟨poly, h⟩ := hs.powers hf
  exact ⟨refCheck_length _ _ _, h.pDiv_codeword data hc, fun i => h.codeword_root data, h.pDiv_shifted data hc,
    fun data' hl => h.refCheck_xor hl hc⟩

/-! ## RCHK -/

theorem execRchk_too_many {s : State} {c : Half} (hf : s.fvalid = true) (h : s.params.ccap < c.toNat) :
    execRchk c s = .next (s.failed 11) := by
  rw [execRchk, needField_ready _ hf, if_pos h]
  exact raise_eq_failed .capacityExceeded s

theorem execRchk_zero {s : State} {c : Half} (hf : s.fvalid = true) (h : c.toNat ≤ s.params.ccap) (hc : c.toNat = 0) :
    execRchk c s = .next ({ s with cbuf := s.cbuf.clear }.answered 0) := by
  rw [execRchk, needField_ready _ hf, if_neg h.not_gt, if_pos hc, done_eq_answered]

theorem execRchk_writes {s : State} {c : Half} (hf : s.fvalid = true) (h : c.toNat ≤ s.params.ccap)
    (hc : c.toNat ≠ 0) :
    execRchk c s =
      .next ({ s with cbuf := s.cbuf.write (refCheck s.tbl s.dbuf.value c.toNat) }.answered 0) := by
  rw [execRchk, needField_ready _ hf, if_neg h.not_gt, if_neg hc, done_eq_answered]

/-- A buffer written as a whole, in the statements' words. -/
theorem write_eq {b : Buffer} {seq : List Byte} {n : Nat} (h : seq.length = n) :
    b.write seq = { len := n, bytes := seq ++ b.bytes.drop n } := by
  subst h
  rfl

/-- Settles O34, one lemma per test of RCHK. -/
theorem rchkFollowsItsRule : Obligations.RchkFollowsItsRule := by
  intro s c
  refine ⟨encode_toNat _, needField_failed _, execRchk_too_many, execRchk_zero, fun hf h hc => ?_⟩
  rw [← write_eq (refCheck_length _ _ _)]
  exact execRchk_writes hf h hc

end Sys2Proof.Machine
end

section
/-! PROOFS. The encoder computes the reference check bytes (R190, R191, R194): a pass over the scratch adds a multiple
of the generator to it, so that every pass keeps the division identity of the shifted data, with the scratch read in
ascending degree as the remainder. -/
namespace Sys2Proof.Machine

/-! ## The logs of the generator -/

theorem coef_descending (g : List Byte) (c i : Nat) :
    coef (descending g c) i = if i < c + 1 then coef g (c - i) else 0 :=
  coef_map_range _ _ _

/-- The construction succeeds when no coefficient of the generator is zero (R190). -/
theorem encConstruct_of_coef_ne_zero {t : Tables} {c : Nat} (h0 : ∀ k, k ≤ c → coef (gen t c) k ≠ 0) :
    encConstruct t c = some ((descending (gen t c) c).map t.logByte) := by
  refine if_neg ?_
  simpa [descending] using fun j _ => h0 (c - j) (Nat.sub_le c j)

theorem encConstruct_eq_map {t : Tables} {c : Nat} {g : List Byte} (h : encConstruct t c = some g) :
    g = (descending (gen t c) c).map t.logByte := by
  simp only [encConstruct] at h
  split at h
  · cases h
  · exact (Option.some_inj.mp h).symm

theorem encConstruct_ne_zero {t : Tables} {c : Nat} {g : List Byte} (h : encConstruct t c = some g) {b : Byte}
    (hb : b ∈ descending (gen t c) c) : b ≠ 0 := by
  obtain ⟨j, hj, rfl⟩ := List.mem_map.mp hb
  exact (encConstruct_entry h (Nat.le_of_lt_succ (List.mem_range.mp hj))).1

/-! ## A pass over the scratch -/

section
variable {t : Tables} {poly : Nat} (h : t.Powers poly) {c : Nat} {glog : List Byte}
  (hg : encConstruct t c = some glog)
include h hg

/-- The row of a pass: the log of the leading 1 is 0, so the log of v is added to those of the coefficients, which
multiplies them by v. -/
theorem Tables.Powers.encPass_eq {s : List Byte} {i : Nat} (hv : coef s i ≠ 0) :
    encPass t glog s i = xorRow s i ((descending (gen t c) c).map (gfMul t (coef s i))) := by
  obtain rfl := encConstruct_eq_map hg
  have hlead : byteAt ((descending (gen t c) c).map t.logByte) 0 = t.logByte 1 := by
    rw [byteAt, (encConstruct_entry hg (Nat.zero_le c)).2, Nat.sub_zero,
      (gen_top_coefficients h.one_mul h.mul_one c).1, Option.getD_some]
  have hlog : (t.logAt (coef s i) + (255 - (t.logByte 1).toNat)) % 255 = t.logAt (coef s i) := by
    have hone : (t.logByte 1).toNat = 0 := h.log_one
    have hle := (h.exp_log hv).1
    omega
  simp only [encPass, if_neg hv, hlead, hlog, List.map_map]
  exact congrArg _ (List.map_congr_left fun b hb => (gfMul_of_ne_zero hv (encConstruct_ne_zero hg hb)).symm)

/-- A pass adds the multiple of the generator by the byte it reads, zero or not. -/
theorem Tables.Powers.coef_encPass {s : List Byte} {i : Nat} (hfit : i + c < s.length) (k : Nat) :
    coef (encPass t glog s i) k = coef s k ^^^
      (if i ≤ k then gfMul t (coef s i) (coef (descending (gen t c) c) (k - i)) else 0) := by
  by_cases hv : coef s i = 0
  · rw [encPass, if_pos hv, hv]
    simp
  · rw [h.encPass_eq hg hv, coef_xorRow_of_fits (by rw [List.length_map, descending_length]; omega), coef_map_gfMul]

/-- The leading coefficient is 1, so a pass clears the byte it reads. -/
theorem Tables.Powers.coef_encPass_self {s : List Byte} {i : Nat} (hfit : i + c < s.length) :
    coef (encPass t glog s i) i = 0 := by
  rw [h.coef_encPass hg hfit, if_pos (le_refl i), Nat.sub_self, coef_descending, if_pos (Nat.succ_pos c), Nat.sub_zero,
    (gen_top_coefficients h.one_mul h.mul_one c).1, h.mul_one]
  exact BitVec.xor_self

/-- A pass leaves the bytes before the one it reads. -/
theorem Tables.Powers.coef_encPass_of_lt {s : List Byte} {i j : Nat} (hfit : i + c < s.length) (hj : j < i) :
    coef (encPass t glog s i) j = coef s j := by
  rw [h.coef_encPass hg hfit, if_neg hj.not_ge]
  exact BitVec.xor_zero

/-- In ascending degree, pass i on a scratch of m + c bytes adds v * x^(m-1-i) * gen(c), for the byte v it reads. -/
theorem Tables.Powers.coef_encPass_reverse {s : List Byte} {m i : Nat} (hs : s.length = m + c) (hi : i < m) (k : Nat) :
    coef (encPass t glog s i).reverse k =
      coef s.reverse k ^^^ convolution t (pMono (coef s i) (m - 1 - i)) (gen t c) k := by
  have hbeyond {j : Nat} (hj : c < j) : gfMul t (coef s i) (coef (gen t c) j) = 0 := by
    rw [coef_of_le (p := gen t c) (by rwa [gen_length])]
    exact gfMul_zero_right t _
  have hlen := encPass_length t glog s i
  rw [convolution_pMono]
  by_cases hk : k < m + c
  · rw [coef_reverse (by omega), coef_reverse (by omega), hlen, h.coef_encPass hg (by omega), coef_descending]
    congr 1
    by_cases hlow : m - 1 - i ≤ k
    · rw [if_pos hlow]
      split
      · rw [if_pos (by omega), show c - (s.length - 1 - k - i) = k - (m - 1 - i) by omega]
      · exact (hbeyond (by omega)).symm
    · rw [if_neg hlow, if_pos (by omega), if_neg (by omega)]
      exact gfMul_zero_right t _
  · rw [coef_of_le (by rw [List.length_reverse]; omega), coef_of_le (by rw [List.length_reverse]; omega),
      if_pos (by omega), hbeyond (by omega)]
    rfl

end

/-! ## The loop -/

/-- What holds of the scratch s before pass i: the data bytes read so far are cleared, and the scratch is the shifted
data less a multiple of the generator. -/
structure Encoding (t : Tables) (c : Nat) (data : List Byte) (i : Nat) (s : List Byte) : Prop where
  length : s.length = data.length + c
  cleared : ∀ j, j < i → coef s j = 0
  dividing : ∃ q, Dividing t (shiftedData data c) (gen t c) (q, pNorm s.reverse)

theorem Encoding.start (t : Tables) (c : Nat) (data : List Byte) : Encoding t c data 0 (data ++ zeros c) := by
  have hrev : (data ++ zeros c).reverse = shiftedData data c := by simp [shiftedData, zeros]
  exact ⟨by simp, nofun, [], hrev ▸ Dividing.start t _ _⟩

/-- After all passes only the last c bytes are left. -/
theorem Encoding.exists_eq_zeros_append {t : Tables} {c : Nat} {data s : List Byte}
    (he : Encoding t c data data.length s) : ∃ chk, s = zeros data.length ++ chk := by
  have htake : s.take data.length = zeros data.length := by
    refine eq_of_coef (by simp [he.length]) fun j => ?_
    rw [coef_zeros]
    by_cases hj : j < data.length
    · rw [← he.cleared j hj, coef, coef, List.getD_eq_getElem?_getD, List.getElem?_take_of_lt hj,
        List.getD_eq_getElem?_getD]
    · exact coef_of_le (by simp; omega)
  exact ⟨s.drop data.length, by rw [← htake, List.take_append_drop]⟩

theorem coef_reverse_zeros_append (n : Nat) (x : List Byte) (k : Nat) :
    coef (zeros n ++ x).reverse k = coef x.reverse k := by
  have hrev : (zeros n).reverse = zeros n := List.reverse_replicate
  rw [List.reverse_append, hrev, coef_append, coef_zeros]
  split
  · rfl
  · exact (coef_of_le (by omega)).symm

section
variable {t : Tables} {poly : Nat} (h : t.Powers poly) {c : Nat} {glog : List Byte}
  (hg : encConstruct t c = some glog)

include h in
/-- Adding a multiple of the divisor to the remainder adds the factor to the quotient. -/
theorem Dividing.add_multiple {x d q m r r' : List Byte} (hqr : Dividing t x d (q, pNorm r))
    (hr : ∀ k, coef r' k = coef r k ^^^ convolution t m d k) : Dividing t x d (pAdd q m, pNorm r') := by
  refine ⟨fun k => ?_, normalized_pAdd _ _, normalized_pNorm _⟩
  rw [← hqr.identity, h.convolution_pAdd_left, coef_pNorm, coef_pNorm, hr, BitVec.xor_comm (coef r k), BitVec.xor_assoc,
    ← BitVec.xor_assoc (convolution t m d k), BitVec.xor_self, BitVec.zero_xor]

include h hg

theorem Encoding.pass {data s : List Byte} {i : Nat} (hi : i < data.length) (he : Encoding t c data i s) :
    Encoding t c data (i + 1) (encPass t glog s i) := by
  have hfit : i + c < s.length := by rw [he.length]; omega
  obtain ⟨q, hq⟩ := he.dividing
  refine ⟨(encPass_length t glog s i).trans he.length, fun j hj => ?_, _,
    hq.add_multiple h (h.coef_encPass_reverse hg he.length hi)⟩
  rcases Nat.lt_succ_iff_lt_or_eq.mp hj with hlt | rfl
  · rw [h.coef_encPass_of_lt hg hfit hlt, he.cleared j hlt]
  · exact h.coef_encPass_self hg hfit

/-- The final scratch is the data part cleared and the reference check bytes (R193, R194). -/
theorem Tables.Powers.encEncode_eq (data : List Byte) (hc : 1 ≤ c) :
    encEncode t glog c data = zeros data.length ++ refCheck t data c := by
  have he : Encoding t c data data.length (encEncode t glog c data) :=
    forUpto_invariant (Encoding t c data) (.start t c data) fun i s hi he => he.pass h hg hi
  obtain ⟨chk, hs⟩ := he.exists_eq_zeros_append
  obtain ⟨q, hq⟩ := he.dividing
  have hl := he.length
  rw [hs, pNorm_congr (coef_reverse_zeros_append _ chk)] at hq
  rw [hs, List.length_append, zeros_length, Nat.add_left_cancel_iff] at hl
  rw [hs, hq.eq_refCheck h hc hl]

end

end Sys2Proof.Machine
end

section
/-! PROOFS. Encoding a message (R192, R193, R263): the run of DLOAD, ECON and ENC, whose check bytes are those of the
reference. -/
namespace Sys2Proof.Machine

/-! ## ECON and ENC, where they complete -/

/-- ECON has written the encoder context (R192). -/
def State.encoderBuilt (s : State) (c : Nat) (g : List Byte) : State :=
  { s with glog := overwrite s.glog g, checkCount := c, evalid := true }

/-- ENC with a nonzero count has written the scratch, its mark and the check buffer (R193). -/
def State.encoded (s : State) : State :=
  { s with
    scr := overwrite s.scr s.scratchResult
    scrHwm := max s.scrHwm (s.dbuf.value.length + s.checkCount)
    cbuf := s.cbuf.write (s.scratchResult.drop s.dbuf.value.length) }

theorem exec_econ_builds {s : State} {c : Half} {g : List Byte} (hf : s.fvalid = true) (hcap : c.toNat ≤ s.params.ccap)
    (hg : encConstruct s.tbl c.toNat = some g) :
    exec (.econ c) s = .next ((s.encoderBuilt c.toNat g).answered 0) := by
  have hexec : exec (.econ c) s = execEcon c s := rfl
  rw [hexec, execEcon, needField_ready _ hf, if_neg hcap.not_gt, hg]
  exact done_eq_answered _

theorem exec_enc_encodes {s : State} {n : Half} (hf : s.fvalid = true) (he : s.evalid = true)
    (hn : n.toNat = s.checkCount) (hc : s.checkCount ≠ 0) : exec (.enc n) s = .next (s.encoded.answered 0) := by
  have hexec : exec (.enc n) s = execEnc n s := rfl
  rw [hexec, execEnc, needField_ready _ hf, if_neg (by simp [he]), if_neg (not_not.mpr hn), if_neg hc]
  exact done_eq_answered _

/-- With a good encoder the scratch result is the cleared data part and the reference check bytes. -/
theorem State.Inv.scratchResult_eq {s : State} (hs : s.Inv) (he : s.evalid = true) (hc : 1 ≤ s.checkCount) :
    s.scratchResult = zeros s.dbuf.value.length ++ refCheck s.tbl s.dbuf.value s.checkCount := by
  obtain ⟨hf, -, hg⟩ := hs.encoder.1 he
  obtain ⟨poly, h⟩ := hs.powers hf
  exact h.encEncode_eq hg s.dbuf.value hc

/-- ENC leaves the reference check bytes in the check buffer (R194). -/
theorem State.Inv.encoded_cbuf_value {s : State} (hs : s.Inv) (he : s.evalid = true) (hc : 1 ≤ s.checkCount) :
    s.encoded.cbuf.value = refCheck s.tbl s.dbuf.value s.checkCount := by
  rw [State.encoded, write_value, hs.scratchResult_eq he hc, List.drop_left' (zeros_length _)]

/-! ## The run -/

theorem run_dpushes (s : State) (written ds : List Byte) (rest : List Instr) (n : Nat)
    (h : written.length + ds.length ≤ s.params.dcap) :
    Sys2Proof.core.run (ds.length + n) ((s.dataLoaded written).offering (ds.map .dpush ++ rest)) =
      Sys2Proof.core.run n ((s.dataLoaded (written ++ ds)).offering rest) := by
  induction ds generalizing written with
  | nil => simp
  | cons b ds ih =>
    rw [List.length_cons] at h
    have ih := ih (written ++ [b]) (by rw [List.length_append, List.length_singleton]; omega)
    rw [List.append_assoc, List.singleton_append] at ih
    rw [List.length_cons, Nat.add_right_comm]
    exact (run_offering_cons _ rfl (exec_dpush_dataLoaded s written b _ (by omega))).trans ih

/-- A run that begins with DLOAD goes on with the data buffer written. -/
theorem run_dload_append (s : State) (ds : List Byte) (rest : List Instr) (n : Nat) (h : ds.length ≤ s.params.dcap) :
    Sys2Proof.core.run (ds.length + n + 1) (s.offering (dload ds ++ rest)) =
      Sys2Proof.core.run n ((s.dataLoaded ds).offering rest) := by
  have hclr : exec .dclr (s.offering (ds.map .dpush ++ rest)) =
      .next ((s.dataLoaded []).offering (ds.map .dpush ++ rest)) := rfl
  exact (run_offering_cons _ rfl hclr).trans (run_dpushes s [] ds rest n (by simpa using h))

/-- What DLOAD and ECON c have left, for the logs g of the generator. -/
def State.encoderLoaded (s : State) (ds : List Byte) (c : Nat) (g : List Byte) : State :=
  ((s.dataLoaded ds).encoderBuilt c g).answered 0

/-- What DLOAD, ECON c and ENC c have left. -/
def State.messageEncoded (s : State) (ds : List Byte) (c : Nat) (g : List Byte) : State :=
  (s.encoderLoaded ds c g).encoded.answered 0

@[simp] theorem encoderLoaded_dbuf_value (s : State) (ds : List Byte) (c : Nat) (g : List Byte) :
    (s.encoderLoaded ds c g).dbuf.value = ds := write_value s.dbuf ds

@[simp] theorem messageEncoded_dbuf_value (s : State) (ds : List Byte) (c : Nat) (g : List Byte) :
    (s.messageEncoded ds c g).dbuf.value = ds := write_value s.dbuf ds

@[simp] theorem messageEncoded_tbl (s : State) (ds : List Byte) (c : Nat) (g : List Byte) :
    (s.messageEncoded ds c g).tbl = s.tbl := rfl

@[simp] theorem messageEncoded_faults (s : State) (ds : List Byte) (c : Nat) (g : List Byte) :
    (s.messageEncoded ds c g).faults = s.faults := rfl

@[simp] theorem offering_tbl (s : State) (cs : List Instr) : (s.offering cs).tbl = s.tbl := rfl
@[simp] theorem offering_dbuf (s : State) (cs : List Instr) : (s.offering cs).dbuf = s.dbuf := rfl
@[simp] theorem offering_cbuf (s : State) (cs : List Instr) : (s.offering cs).cbuf = s.cbuf := rfl
@[simp] theorem offering_faults (s : State) (cs : List Instr) : (s.offering cs).faults = s.faults := rfl

theorem run_encode {s : State} {ds : List Byte} {c : Half} {g : List Byte} (hf : s.fvalid = true)
    (hd : ds.length ≤ s.params.dcap) (hc : c.toNat ≠ 0) (hcap : c.toNat ≤ s.params.ccap)
    (hg : encConstruct s.tbl c.toNat = some g) :
    Sys2Proof.core.run (ds.length + 3) (s.offering (dload ds ++ [.econ c, .enc c])) =
      .next ((s.messageEncoded ds c.toNat g).offering []) := by
  have hecon : exec (.econ c) ((s.dataLoaded ds).offering [.enc c]) =
      .next ((s.encoderLoaded ds c.toNat g).offering [.enc c]) := exec_econ_builds hf hcap hg
  have henc : exec (.enc c) ((s.encoderLoaded ds c.toNat g).offering []) =
      .next ((s.messageEncoded ds c.toNat g).offering []) := exec_enc_encodes hf rfl rfl hc
  rw [run_dload_append s ds _ 2 hd, run_offering_cons 1 rfl hecon, run_offering_cons 0 rfl henc]
  rfl

/-- The check buffer then holds the reference check bytes of the message. -/
theorem State.Inv.messageEncoded_cbuf_value {s : State} (hs : s.Inv) {ds : List Byte} {c : Nat} {g : List Byte}
    (hf : s.fvalid = true) (hd : ds.length ≤ s.params.dcap) (hc : 1 ≤ c) (hcap : c ≤ s.params.ccap)
    (hg : encConstruct s.tbl c = some g) : (s.messageEncoded ds c g).cbuf.value = refCheck s.tbl ds c := by
  have hdata := hs.dbuf (write_wf (dbuf_wf hs.memory) hd)
  have hloaded : (s.dataLoaded ds).Inv := hdata.of_memory hdata.memory rfl rfl rfl rfl rfl rfl rfl
  have hbuilt : (s.encoderLoaded ds c g).Inv := (hloaded.econ hf hcap hg).emit _
  calc (s.messageEncoded ds c g).cbuf.value
      = refCheck s.tbl (s.encoderLoaded ds c g).dbuf.value c := hbuilt.encoded_cbuf_value rfl hc
    _ = refCheck s.tbl ds c := by rw [encoderLoaded_dbuf_value]

/-- Settles O57: the run leaves the reference check bytes, with which the codeword vanishes at the roots. -/
theorem encodingAMessageGivesACodeword : Obligations.EncodingAMessageGivesACodeword := by
  intro s ds c hs hf hd hc hcap h0
  obtain ⟨poly, h⟩ := hs.powers hf
  obtain ⟨g, hg⟩ : ∃ g, encConstruct s.tbl c.toNat = some g := ⟨_, encConstruct_of_coef_ne_zero h0⟩
  have hchk := hs.messageEncoded_cbuf_value hf hd hc hcap hg
  refine ⟨_, run_encode hf hd (by omega) hcap hg, ?_⟩
  simp only [offering_tbl, offering_dbuf, offering_cbuf, offering_faults, messageEncoded_tbl, messageEncoded_faults,
    messageEncoded_dbuf_value, hchk, refCheck_length, true_and]
  exact fun i => h.codeword_root ds

end Sys2Proof.Machine
end

section
/-! PROOFS. The encoder's commands (R192 to R196), in the statements' words: what each test of ECON and ENC answers, and
what ENC leaves in the scratch and in the check buffer. -/
namespace Sys2Proof.Machine

@[simp] theorem answered_memRead (s : State) (v : Nat) (sp : Space) (a : Nat) :
    (s.answered v).memRead sp a = s.memRead sp a := rfl

@[simp] theorem answered_cbuf (s : State) (v : Nat) : (s.answered v).cbuf = s.cbuf := rfl

theorem State.Inv.fvalid_of_evalid {s : State} (hs : s.Inv) (he : s.evalid = true) : s.fvalid = true := by
  obtain ⟨hf, -, -⟩ := hs.encoder.1 he
  exact hf

/-! ## ECON -/

theorem exec_econ (c : Half) (s : State) : exec (.econ c) s = execEcon c s := rfl

/-- The construction fails at a zero coefficient of the generator (R190). -/
theorem encConstruct_of_coef_eq_zero {t : Tables} {c k : Nat} (hk : k ≤ c) (h0 : coef (gen t c) k = 0) :
    encConstruct t c = none := by
  cases h : encConstruct t c with
  | none => rfl
  | some g =>
    have hne := (encConstruct_entry h (Nat.sub_le c k)).1
    rw [Nat.sub_sub_self hk] at hne
    exact absurd h0 hne

theorem exec_econ_too_many {s : State} {c : Half} (hf : s.fvalid = true) (h : s.params.ccap < c.toNat) :
    exec (.econ c) s = .next (s.failed 11) := by
  rw [exec_econ, execEcon, needField_ready _ hf, if_pos h]
  exact raise_eq_failed .capacityExceeded s

theorem exec_econ_inconsistent {s : State} {c : Half} (hf : s.fvalid = true) (hcap : c.toNat ≤ s.params.ccap)
    (hg : encConstruct s.tbl c.toNat = none) : exec (.econ c) s = .next (s.failed 5) := by
  rw [exec_econ, execEcon, needField_ready _ hf, if_neg hcap.not_gt, hg]
  exact raise_eq_failed .internalConsistency s

/-- The logs of the generator's coefficients, stored over the first c + 1 bytes of GLOG. -/
theorem overwrite_descending_logs (t : Tables) (store : List Byte) (c : Nat) :
    overwrite store ((descending (gen t c) c).map t.logByte) =
      (List.range (c + 1)).map (fun j => t.logByte (coef (gen t c) (c - j))) ++ store.drop (c + 1) := by
  rw [overwrite, List.length_map, descending_length, descending, List.map_map]
  rfl

/-- Settles O36, one lemma per test of ECON. -/
theorem econFollowsItsRule : Obligations.EconFollowsItsRule := by
  intro s c
  refine ⟨encode_toNat _, needField_failed _, exec_econ_too_many, fun hf hcap ⟨k, hk, h0⟩ => ?_,
    fun hf hcap h0 => ?_⟩
  · exact exec_econ_inconsistent hf hcap (encConstruct_of_coef_eq_zero hk h0)
  · rw [← overwrite_descending_logs]
    exact exec_econ_builds hf hcap (encConstruct_of_coef_ne_zero h0)

/-! ## ENC -/

theorem exec_enc (n : Half) (s : State) : exec (.enc n) s = execEnc n s := rfl

theorem exec_enc_no_encoder {s : State} (n : Half) (hf : s.fvalid = true) (he : s.evalid = false) :
    exec (.enc n) s = .next (s.failed 10) := by
  rw [exec_enc, execEnc, needField_ready _ hf, if_pos he]
  exact raise_eq_failed .encoderNotReady s

theorem exec_enc_mismatch {s : State} {n : Half} (hf : s.fvalid = true) (he : s.evalid = true)
    (hn : n.toNat ≠ s.checkCount) : exec (.enc n) s = .next (s.failed 4) := by
  rw [exec_enc, execEnc, needField_ready _ hf, if_neg (by simp [he]), if_pos hn]
  exact raise_eq_failed .mismatchedCheckLength s

theorem exec_enc_zero {s : State} {n : Half} (hf : s.fvalid = true) (he : s.evalid = true)
    (hn : n.toNat = s.checkCount) (hc : s.checkCount = 0) :
    exec (.enc n) s = .next ({ s with cbuf := s.cbuf.clear }.answered 0) := by
  rw [exec_enc, execEnc, needField_ready _ hf, if_neg (by simp [he]), if_neg (not_not.mpr hn), if_pos hc,
    done_eq_answered]

/-- The bytes of the scratch result beyond the data part are the check bytes. -/
theorem scratchResult_drop_length (s : State) : (s.scratchResult.drop s.dbuf.value.length).length = s.checkCount := by
  rw [List.length_drop, scratchResult_length, Nat.add_sub_cancel_left]

@[simp] theorem encoded_cbuf_len (s : State) : s.encoded.cbuf.len = s.checkCount := scratchResult_drop_length s

/-- What ENC has written, with the bytes kept beyond it (R193). -/
theorem encoded_eq {s : State} (hm : Memory.wf s) :
    s.encoded = { s with
      scr := s.scratchResult ++ s.scr.drop (s.dbuf.len + s.checkCount)
      scrHwm := max s.scrHwm (s.dbuf.len + s.checkCount)
      cbuf :=
        { len := s.checkCount
          bytes := s.scratchResult.drop s.dbuf.len ++ s.cbuf.bytes.drop s.checkCount } } := by
  have hlen := value_length_of_wf (dbuf_wf hm)
  rw [State.encoded, write_eq (scratchResult_drop_length s), overwrite, scratchResult_length, hlen]

/-- Settles O37, one lemma per test of ENC. -/
theorem encFollowsItsRule : Obligations.EncFollowsItsRule := by
  intro s n hs
  have hf := hs.fvalid_of_evalid
  refine ⟨encode_toNat _, needField_failed _, exec_enc_no_encoder n, fun he => exec_enc_mismatch (hf he) he,
    fun he => exec_enc_zero (hf he) he, fun he hn hc => ⟨s.scratchResult, rfl, ?_⟩⟩
  rw [← encoded_eq hs.memory]
  exact exec_enc_encodes (hf he) he hn hc

/-! ## The check bytes that ENC and RCHK leave -/

/-- A state t holds the reference check bytes of s for the count c, and c as their number. -/
structure HoldsCheckBytes (s t : State) (c : Nat) : Prop where
  len : t.cbuf.len = c
  value : t.cbuf.value = refCheck s.tbl s.dbuf.value c

/-- For the count 0 there are no check bytes, and clearing the check buffer leaves just that. -/
theorem holdsCheckBytes_clear (s : State) : HoldsCheckBytes s ({ s with cbuf := s.cbuf.clear }.answered 0) 0 :=
  ⟨rfl, clear_value s.cbuf⟩

theorem exec_rchk_holds {s : State} {c : Half} (hf : s.fvalid = true) (hcap : c.toNat ≤ s.params.ccap) :
    ∃ t, exec (.rchk c) s = .next t ∧ HoldsCheckBytes s t c.toNat := by
  by_cases hc : c.toNat = 0
  · exact ⟨_, execRchk_zero hf hcap hc, hc ▸ holdsCheckBytes_clear s⟩
  · exact ⟨_, execRchk_writes hf hcap hc, refCheck_length _ _ _, write_value _ _⟩

/-- ENC leaves the reference check bytes, for every check count (R194). -/
theorem State.Inv.exec_enc_holds {s : State} {n : Half} (hs : s.Inv) (he : s.evalid = true)
    (hn : n.toNat = s.checkCount) : ∃ t, exec (.enc n) s = .next t ∧ HoldsCheckBytes s t s.checkCount := by
  have hf := hs.fvalid_of_evalid he
  by_cases hc : s.checkCount = 0
  · exact ⟨_, exec_enc_zero hf he hn hc, hc ▸ holdsCheckBytes_clear s⟩
  · exact ⟨_, exec_enc_encodes hf he hn hc, encoded_cbuf_len s,
      hs.encoded_cbuf_value he (Nat.one_le_iff_ne_zero.mpr hc)⟩

/-- Settles O39: ENC and RCHK both leave the reference check bytes. -/
theorem encoderEqualsTheReference : Obligations.EncoderEqualsTheReference := by
  intro s c hs he hc
  obtain ⟨hf, hcap, -⟩ := hs.encoder.1 he
  obtain ⟨t, ht, htl, htv⟩ := hs.exec_enc_holds he hc
  obtain ⟨u, hu, hul, huv⟩ := exec_rchk_holds hf (hc.trans_le hcap)
  rw [hc] at hul huv
  exact ⟨t, u, ht, hu, htl.trans hul.symm, htv.trans huv.symm, htl⟩

/-- Settles O40: the reference check bytes are a function of the tables, the data and the count, and in a good state
these fix GLOG as well. -/
theorem encDoesNotLeakStaleBytes : Obligations.EncDoesNotLeakStaleBytes := by
  intro s s' n hs hs' he he' htbl hc _ hdata hn
  obtain ⟨t, ht, htl, htv⟩ := hs.exec_enc_holds he hn
  obtain ⟨t', ht', htl', htv'⟩ := hs'.exec_enc_holds he' (hn.trans hc)
  rw [← hc] at htl' htv'
  rw [← htbl, ← hdata] at htv'
  exact ⟨t, t', ht, ht', htl.trans htl'.symm, htv.trans htv'.symm⟩

/-- Settles O41: with check count 0 both commands clear the check buffer, which writes CLEN and no byte. -/
theorem zeroCheckLengthWritesNoByte : Obligations.ZeroCheckLengthWritesNoByte := by
  intro s _ hf
  have hframe (sp : Space) (a : Nat) :
      ({ s with cbuf := s.cbuf.clear }.answered 0).memRead sp a = s.memRead sp a := memRead_cbuf fun _ => rfl
  exact ⟨fun he hc => ⟨_, exec_enc_zero hf he hc.symm hc, rfl, rfl, rfl, hframe⟩,
    _, execRchk_zero hf (Nat.zero_le _) rfl, rfl, rfl, rfl, hframe⟩

/-! ## The scratch and the check buffer after ENC -/

section
variable (s : State)

theorem encoded_memRead_scr {i : Nat} (hi : i < s.dbuf.value.length + s.checkCount) :
    s.encoded.memRead .scr i = s.scratchResult[i]? :=
  (overwrite_getElem? _ _ _).trans (if_pos (by rwa [scratchResult_length]))

theorem encoded_memRead_cbuf {j : Nat} (hj : j < s.checkCount) :
    s.encoded.memRead .cbuf j = s.scratchResult[s.dbuf.value.length + j]? :=
  (overwrite_getElem? _ _ _).trans <|
    (if_pos (by rwa [scratchResult_drop_length])).trans List.getElem?_drop

theorem encoded_cbuf_value_getElem? (j : Nat) :
    s.encoded.cbuf.value[j]? = s.scratchResult[s.dbuf.value.length + j]? := by
  rw [State.encoded, write_value, List.getElem?_drop]

end

/-- The data part of the scratch result is zero. -/
theorem State.Inv.scratchResult_data {s : State} (hs : s.Inv) (he : s.evalid = true) (hc : 1 ≤ s.checkCount) {i : Nat}
    (hi : i < s.dbuf.value.length) : s.scratchResult[i]? = some 0 := by
  rw [hs.scratchResult_eq he hc, List.getElem?_append_left (by rwa [zeros_length]), zeros,
    List.getElem?_replicate_of_lt hi]

/-- Settles O42: every byte named is a byte of the scratch result, whose data part is cleared. -/
theorem encClearsTheDataPartOfTheScratch : Obligations.EncClearsTheDataPartOfTheScratch := by
  intro s n hs he hn hc
  have hlen := value_length_of_wf (dbuf_wf hs.memory)
  refine ⟨_, exec_enc_encodes (hs.fvalid_of_evalid he) he hn hc, ?_⟩
  simp only [answered_memRead, answered_cbuf, ← hlen, encoded_cbuf_len, and_true]
  refine ⟨fun i hi => ?_, fun j hj => ?_⟩
  · rw [encoded_memRead_scr s (by omega)]
    exact hs.scratchResult_data he (Nat.one_le_iff_ne_zero.mpr hc) hi
  · rw [encoded_memRead_scr s (by omega), encoded_memRead_cbuf s hj, encoded_cbuf_value_getElem?]
    exact ⟨rfl, rfl⟩

end Sys2Proof.Machine
end

section
/-! PROOFS. The commands of the buffers and of the status registers (R210 to R216), in the statements' words: `answered`
and `failed`. -/
namespace Sys2Proof.Machine

/-! ## Values that fit a response -/

/-- A length, count or mark within the capacities fits the 16 bits of a response (R5, R76). -/
theorem respond_valueOfNat {n : Nat} (s : State) (h : n ≤ 65535) :
    respond (valueOfNat n) s = .next (s.answered n) := by
  rw [respond_eq_answered, valueOfNat, BitVec.toNat_ofNat, Nat.mod_eq_of_lt (by omega)]

theorem buffer_len_le {cap : Nat} {b : Buffer} (hb : b.wf cap) : b.len ≤ cap := hb.1.trans hb.2

/-- Every capacity fits 16 bits, the scratch's too, which is the sum of the buffers' (R5). -/
theorem State.Inv.capacities_le {s : State} (hs : s.Inv) :
    s.params.pcap ≤ 65535 ∧ s.params.dcap ≤ 65535 ∧ s.params.ccap ≤ 65535 ∧ s.params.scap ≤ 65535 := by
  obtain ⟨-, hp, hdc, -⟩ := hs.params
  exact ⟨hp, by omega, by omega, hdc⟩

theorem State.Inv.scrHwm_le {s : State} (hs : s.Inv) : s.scrHwm ≤ s.params.scap := by
  obtain ⟨-, -, -, -, -, -, -, hhwm⟩ := hs.memory
  exact hhwm

/-- A check count is at most CCAP, with an encoder (R30) or without one (R32). -/
theorem State.Inv.checkCount_le {s : State} (hs : s.Inv) : s.checkCount ≤ s.params.ccap := by
  obtain ⟨hbuilt, hnone⟩ := hs.encoder
  cases he : s.evalid with
  | true =>
    obtain ⟨-, hle, -⟩ := hbuilt he
    exact hle
  | false =>
    rw [hnone he]
    exact Nat.zero_le _

/-! ## The data buffer is written -/

theorem exec_dclr (s : State) :
    exec .dclr s = .next ({ s with dbuf := { s.dbuf with len := 0 } }.answered 0) := done_eq_answered _

theorem exec_dpush_full {s : State} (b : Byte) (h : s.dbuf.len = s.params.dcap) :
    exec (.dpush b) s = .next (s.failed 11) := by
  calc exec (.dpush b) s = raise .capacityExceeded s := if_pos h
    _ = _ := raise_eq_failed .capacityExceeded s

/-- Appending keeps the bytes beyond the one appended (log 4). -/
theorem push_eq {cap : Nat} {b : Buffer} (hb : b.wf cap) (v : Byte) :
    b.push v = { len := b.len + 1, bytes := b.value ++ [v] ++ b.bytes.drop (b.len + 1) } := by
  refine write_eq ?_
  rw [List.length_append, value_length_of_wf hb, List.length_singleton]

theorem exec_dpush_appends {s : State} (b : Byte) (h : s.dbuf.len < s.params.dcap) :
    exec (.dpush b) s = .next ({ s with dbuf := s.dbuf.push b }.answered 0) := by
  calc exec (.dpush b) s = done { s with dbuf := s.dbuf.push b } := if_neg h.ne
    _ = _ := done_eq_answered _

/-! ## The data buffer and the check buffer are read -/

theorem exec_drdl {s : State} (hs : s.Inv) : exec .drdl s = .next (s.answered s.dbuf.len) := by
  obtain ⟨-, hdcap, -, -⟩ := hs.capacities_le
  exact respond_valueOfNat s ((buffer_len_le (dbuf_wf hs.memory)).trans hdcap)

theorem exec_crdl {s : State} (hs : s.Inv) : exec .crdl s = .next (s.answered s.cbuf.len) := by
  obtain ⟨-, -, hccap, -⟩ := hs.capacities_le
  exact respond_valueOfNat s ((buffer_len_le (cbuf_wf hs.memory)).trans hccap)

/-- What DRD and CRD do with their buffer (R213, R215). -/
def readBuffer (b : Buffer) (i : Half) (s : State) : Result :=
  if i.toNat ≥ b.len then raise .indexOutOfRange s else respond (valueOfByte (byteAt b.bytes i.toNat)) s

theorem exec_drd (i : Half) (s : State) : exec (.drd i) s = readBuffer s.dbuf i s := rfl

theorem exec_crd (i : Half) (s : State) : exec (.crd i) s = readBuffer s.cbuf i s := rfl

theorem readBuffer_beyond {b : Buffer} {i : Half} (s : State) (h : b.len ≤ i.toNat) :
    readBuffer b i s = .next (s.failed 12) := by
  rw [readBuffer, if_pos h]
  exact raise_eq_failed .indexOutOfRange s

theorem readBuffer_answers {cap : Nat} {b : Buffer} {i : Half} {c : Byte} (s : State) (hb : b.wf cap)
    (h : b.value[i.toNat]? = some c) : readBuffer b i s = .next (s.answered c.toNat) := by
  have hi : i.toNat < b.len := by
    rw [← value_length_of_wf hb]
    exact (List.getElem?_eq_some_iff.mp h).1
  have hc : byteAt b.bytes i.toNat = c := Option.some_inj.mp ((byteAt_value hb hi).symm.trans h)
  rw [readBuffer, if_neg hi.not_ge, respond_valueOfByte, hc]

/-- Settles O43, one lemma per test of the six commands. -/
theorem bufferCommandsFollowTheirRules : Obligations.BufferCommandsFollowTheirRules := by
  intro s b i hs
  have hd := dbuf_wf hs.memory
  have hc := cbuf_wf hs.memory
  refine ⟨⟨encode_toNat _, encode_toNat _, encode_toNat _, encode_toNat _, encode_toNat _, encode_toNat _⟩,
    exec_dclr s, exec_dpush_full b, fun h => ?_, exec_drdl hs, readBuffer_beyond s, fun _ => readBuffer_answers s hd,
    exec_crdl hs, readBuffer_beyond s, fun _ => readBuffer_answers s hc⟩
  rw [← push_eq hd]
  exact exec_dpush_appends b h

/-! ## The status registers -/

/-- A status register that exists is answered (R216). -/
theorem exec_srd_of_some {s : State} {n v : Half} (h : s.statusRegister n.toNat = some v) :
    exec (.srd n) s = .next (s.answered v.toNat) := by
  calc exec (.srd n) s = execSrd n s := rfl
    _ = respond v s := by rw [execSrd, h]
    _ = _ := respond_eq_answered v s

/-- A status register that does not exist is an index out of range (R216). -/
theorem exec_srd_of_none {s : State} {n : Half} (h : s.statusRegister n.toNat = none) :
    exec (.srd n) s = .next (s.failed 12) := by
  calc exec (.srd n) s = execSrd n s := rfl
    _ = raise .indexOutOfRange s := by rw [execSrd, h]
    _ = _ := raise_eq_failed .indexOutOfRange s

/-- A status register that holds a length, a count or a capacity answers it. -/
theorem exec_srd_valueOfNat {s : State} {n : Half} {v : Nat} (hv : v ≤ 65535)
    (h : s.statusRegister n.toNat = some (valueOfNat v)) : exec (.srd n) s = .next (s.answered v) := by
  rw [exec_srd_of_some h, ← respond_eq_answered, respond_valueOfNat s hv]

/-- The registers are numbered 0 to 6 (R32). -/
theorem statusRegister_eq_none (s : State) {n : Nat} (h : 6 < n) : s.statusRegister n = none := by
  obtain ⟨k, rfl⟩ := Nat.exists_eq_add_of_le' h
  rfl

/-- STATUS is FVALID in bit 0 and EVALID in bit 1 (R32). -/
theorem status_toNat (s : State) :
    s.status.toNat = (if s.fvalid then 1 else 0) + 2 * (if s.evalid then 1 else 0) := by
  rw [State.status]
  cases s.fvalid <;> cases s.evalid <;> rfl

/-- Settles O44: each register is an entry of `statusRegister`, and every value fits. -/
theorem srdReadsTheStatusRegisters : Obligations.SrdReadsTheStatusRegisters := by
  intro s n hs
  obtain ⟨hpcap, hdcap, hccap, hscap⟩ := hs.capacities_le
  refine ⟨encode_toNat _, ?_, exec_srd_of_some rfl, exec_srd_valueOfNat (hs.checkCount_le.trans hccap) rfl,
    exec_srd_valueOfNat (hs.scrHwm_le.trans hscap) rfl, exec_srd_valueOfNat hpcap rfl, exec_srd_valueOfNat hdcap rfl,
    exec_srd_valueOfNat hccap rfl, fun h => exec_srd_of_none (statusRegister_eq_none s h)⟩
  rw [← status_toNat]
  exact exec_srd_of_some rfl

end Sys2Proof.Machine
end

section
/-! PROOFS. Failures (60_exceptions.md R232 to R234): which codes each command can raise, that the test for the field
comes first, and that a failing step writes FAULTS alone; and the idle step (R243). -/
namespace Sys2Proof.Machine

/-! ## The idle step -/

/-- Settles O9, by the definition of a step. -/
theorem idleUnitKeepsItsState : Obligations.IdleUnitKeepsItsState := by
  intro s hin
  simp only [step, hin]

/-! ## Failing steps -/

theorem Responded.status_fail {s : State} {f : CmdFault} {r : Word} (h : Responded s (s.fail f) r) :
    bits r 31 24 = f.code := by
  rw [responded_fail.mp h, rspWord_status (code_lt f)]

theorem Responded.status_completion {s u : State} {v : Half} {r : Word} (hu : u.rsps = s.rsps)
    (h : Responded s (u.emit (rspWord 0 v)) r) : bits r 31 24 = 0 := by
  have hr : r = rspWord 0 v := by simpa [Responded, hu, eq_comm] using h
  rw [hr, rspWord_status (by omega)]

/-- Settles O16: a step on a command word fails or completes, and a completion answers status 0. -/
theorem failingCommandChangesOnlyFaults : Obligations.FailingCommandChangesOnlyFaults := by
  intro s t w rest r hin hstep hr hk
  obtain ⟨f, h⟩ | ⟨i, u, v, hu, h⟩ := step_command hin
  · obtain rfl : t = { s with inbox := rest }.fail f := Host.Outcome.next.inj (hstep.symm.trans h)
    rw [Responded.status_fail hr, fail_eq_failed]
  · obtain rfl : t = u.emit (rspWord 0 v) := Host.Outcome.next.inj (hstep.symm.trans h)
    exact absurd (Responded.status_completion hu.rsps hr) hk

/-! ## The rows of R232 -/

theorem wellFormed_pdiv {rq rr ra rb : Reg} : WellFormed (.pdiv rq rr ra rb) ↔ rq ≠ rr := by
  simp [WellFormed, wellFormed]

/-- A result of a command in s that raises no code but those of a row of R232. `contains` computes, so that `rfl` finds
a code in the row of a command. -/
def RaisesOnly (codes : List Nat) (s : State) (r : Result) : Prop :=
  (∃ f, codes.contains f.code = true ∧ r = raise f s) ∨ ∃ u v, u.rsps = s.rsps ∧ r = respond v u

section
variable {codes : List Nat} {s : State} {r r' : Result}

theorem RaisesOnly.raise {f : CmdFault} (h : codes.contains f.code = true) : RaisesOnly codes s (raise f s) :=
  .inl ⟨f, h, rfl⟩

theorem RaisesOnly.respond {u : State} {v : Half} (h : u.rsps = s.rsps) : RaisesOnly codes s (respond v u) :=
  .inr ⟨u, v, h, rfl⟩

theorem RaisesOnly.ite {c : Prop} [Decidable c] (h : c → RaisesOnly codes s r) (h' : ¬ c → RaisesOnly codes s r') :
    RaisesOnly codes s (if c then r else r') := by
  split
  · exact h ‹_›
  · exact h' ‹_›

theorem RaisesOnly.needField (h9 : codes.contains 9 = true) (h : RaisesOnly codes s r) :
    RaisesOnly codes s (needField s r) :=
  .ite (fun _ => h) fun _ => .raise h9

/-- A command whose one test is for a code of its row. -/
theorem RaisesOnly.test {c : Prop} [Decidable c] {f : CmdFault} (h : codes.contains f.code = true)
    (hr : RaisesOnly codes s r) : RaisesOnly codes s (if c then Machine.raise f s else r) :=
  .ite (fun _ => .raise h) fun _ => hr

end

theorem execSrd_raisesOnly (n : Half) (s : State) : RaisesOnly [12] s (execSrd n s) := by
  unfold execSrd
  split
  · exact .raise rfl
  · exact .respond rfl

theorem execFinit_raisesOnly (poly : Half) (s : State) : RaisesOnly [1, 2] s (execFinit poly s) :=
  .test rfl <| by
    split
    · exact .raise rfl
    · exact .respond rfl

/-- PDIV with two destinations: the decoder's test, which stands in its meaning too (log 9), does not hold. -/
theorem execPdiv_raisesOnly {rq rr : Reg} (hne : rq ≠ rr) (ra rb : Reg) (s : State) :
    RaisesOnly [3, 9] s (execPdiv rq rr ra rb s) :=
  .ite (fun h => absurd h hne) fun _ => .needField rfl <| by
    split
    · exact .raise rfl
    · exact .respond rfl

theorem execEcon_raisesOnly (c : Half) (s : State) : RaisesOnly [5, 9, 11] s (execEcon c s) :=
  .needField rfl <| .test rfl <| by
    split
    · exact .raise rfl
    · exact .respond rfl

/-- Every command answers status 0 or raises a failure of its row. -/
theorem exec_raisesOnly {i : Instr} (hi : WellFormed i) (s : State) : RaisesOnly (faultCodes i) s (exec i s) := by
  cases i with
  | srd n => exact execSrd_raisesOnly n s
  | finit poly => exact execFinit_raisesOnly poly s
  | fadd | fmul | finv | fexp | flog | pnorm | padd => exact .needField rfl (.respond rfl)
  | pclr | prdl | pmov | dclr | drdl | crdl => exact .respond rfl
  | ppush | prdc | dpush | drd | crd => exact .test rfl (.respond rfl)
  | pmono | pmul | gen => exact .needField rfl (.test rfl (.respond rfl))
  | pdiv rq rr ra rb => exact execPdiv_raisesOnly (wellFormed_pdiv.mp hi) ra rb s
  | rchk => exact .needField rfl (.test rfl (.ite (fun _ => .respond rfl) fun _ => .respond rfl))
  | econ c => exact execEcon_raisesOnly c s
  | enc => exact .needField rfl (.test rfl (.test rfl (.ite (fun _ => .respond rfl) fun _ => .respond rfl)))

/-- Settles O46: the status is the code of the failure raised, or 0. -/
theorem commandsRaiseOnlyTheirOwnFaults : Obligations.CommandsRaiseOnlyTheirOwnFaults := by
  intro s t i r hi h hr
  obtain ⟨f, hf, hraise⟩ | ⟨u, v, hu, hv⟩ := exec_raisesOnly hi s
  · obtain rfl := raise_eq_next.mp (hraise ▸ h)
    rw [Responded.status_fail hr]
    exact .inr (List.contains_iff_mem.mp hf)
  · obtain rfl := respond_eq_next.mp (hv ▸ h)
    exact .inl (Responded.status_completion hu hr)

/-! ## The test for the field -/

/-- The rows with `field-not-ready` are those of the fourteen commands that need the field (R231, R234). -/
theorem fieldNotReady_mem_faultCodes {i : Instr} : 9 ∈ faultCodes i ↔ needsField i = true := by
  cases i <;> simp [faultCodes, needsField]

/-- Nothing but the decoder's test, which PDIV repeats (log 9), comes before the test for the field. -/
theorem exec_field_not_ready {i : Instr} {s : State} (hi : WellFormed i) (hn : needsField i = true)
    (hf : s.fvalid = false) : exec i s = .next (s.failed 9) := by
  cases i with
  | fadd | fmul | finv | fexp | flog | pnorm | padd | pmono | pmul | gen | rchk | econ | enc =>
    exact needField_failed _ hf
  | pdiv rq rr ra rb =>
    exact (if_neg (wellFormed_pdiv.mp hi)).trans (needField_failed _ hf)
  | _ => exact absurd hn Bool.false_ne_true

/-- Settles O45: the other thirteen have no code 9 in their rows of R232. -/
theorem fieldTestComesBeforeTheOthers : Obligations.FieldTestComesBeforeTheOthers := by
  intro s i hi
  refine ⟨exec_field_not_ready hi, fun hn t r h hr h9 => ?_⟩
  have hrow := commandsRaiseOnlyTheirOwnFaults s t i r hi h hr
  rw [h9] at hrow
  obtain h0 | hmem := hrow
  · exact absurd h0 (by decide)
  · rw [fieldNotReady_mem_faultCodes, hn] at hmem
    exact Bool.false_ne_true hmem

end Sys2Proof.Machine
end

section
/-! PROOFS. FAULTS is a record and no input (R235): with another FAULTS every test of a command but SRD 1 comes out the
same and every write is the same. -/
namespace Sys2Proof.Machine

/-- The state with another FAULTS. -/
def State.withFaults (s : State) (g : BitVec 16) : State := { s with faults := g }

@[simp] theorem withFaults_tbl (s : State) (g : BitVec 16) : (s.withFaults g).tbl = s.tbl := rfl
@[simp] theorem withFaults_poly (s : State) (g : BitVec 16) (k : Reg) : (s.withFaults g).poly k = s.poly k := rfl

/-- Results that are next states equal in everything but FAULTS. -/
def SameButFaults (r r' : Result) : Prop :=
  ∃ t u, r = .next t ∧ r' = .next u ∧ t = { u with faults := t.faults }

section
variable {s : State} {g : BitVec 16} {r₁ r₁' r₂ r₂' : Result}

theorem SameButFaults.respond {u : State} (v : Half) :
    SameButFaults (respond v u) (respond v (u.withFaults g)) := ⟨_, _, rfl, rfl, rfl⟩

theorem SameButFaults.raise (f : CmdFault) : SameButFaults (raise f s) (raise f (s.withFaults g)) :=
  ⟨_, _, rfl, rfl, rfl⟩

theorem SameButFaults.ite {c : Prop} [Decidable c] (h₁ : SameButFaults r₁ r₁') (h₂ : SameButFaults r₂ r₂') :
    SameButFaults (if c then r₁ else r₂) (if c then r₁' else r₂') := by
  split
  · exact h₁
  · exact h₂

theorem SameButFaults.needField (h : SameButFaults r₁ r₁') :
    SameButFaults (needField s r₁) (needField (s.withFaults g) r₁') := .ite h (.raise _)

/-- A test that raises a failure, before the rest of a command. -/
theorem SameButFaults.test {c : Prop} [Decidable c] {f : CmdFault} (h : SameButFaults r₁ r₁') :
    SameButFaults (if c then Machine.raise f s else r₁) (if c then Machine.raise f (s.withFaults g) else r₁') :=
  .ite (.raise f) h

end

/-- SR1 is the one status register that holds FAULTS (R32, R216). -/
theorem withFaults_statusRegister (s : State) (g : BitVec 16) {n : Nat} (hn : n ≠ 1) :
    (s.withFaults g).statusRegister n = s.statusRegister n := by
  unfold State.statusRegister
  split
  case h_2 => exact absurd rfl hn
  all_goals rfl

theorem execSrd_sameButFaults {n : Half} (hn : n.toNat ≠ 1) (s : State) (g : BitVec 16) :
    SameButFaults (execSrd n s) (execSrd n (s.withFaults g)) := by
  unfold execSrd
  rw [withFaults_statusRegister s g hn]
  split
  · exact .raise _
  · exact .respond _

theorem execFinit_sameButFaults (poly : Half) (s : State) (g : BitVec 16) :
    SameButFaults (execFinit poly s) (execFinit poly (s.withFaults g)) :=
  .test <| by
    split
    · exact .raise _
    · exact .respond _

theorem execPdiv_sameButFaults (rq rr ra rb : Reg) (s : State) (g : BitVec 16) :
    SameButFaults (execPdiv rq rr ra rb s) (execPdiv rq rr ra rb (s.withFaults g)) :=
  .test <| .needField <| by
    simp only [withFaults_tbl, withFaults_poly]
    split
    · exact .raise _
    · exact .respond _

theorem execEcon_sameButFaults (c : Half) (s : State) (g : BitVec 16) :
    SameButFaults (execEcon c s) (execEcon c (s.withFaults g)) :=
  .needField <| .test <| by
    rw [withFaults_tbl]
    split
    · exact .raise _
    · exact .respond _

/-- A command but SRD 1 goes the same way with another FAULTS. -/
theorem exec_sameButFaults {i : Instr} (hi : i ≠ .srd 1) (s : State) (g : BitVec 16) :
    SameButFaults (exec i s) (exec i (s.withFaults g)) := by
  cases i with
  | srd n =>
    have hn : n.toNat ≠ 1 := fun h => hi (congrArg Instr.srd (BitVec.eq_of_toNat_eq h))
    exact execSrd_sameButFaults hn s g
  | finit poly => exact execFinit_sameButFaults poly s g
  | fadd | fmul | finv | fexp | flog | pnorm | padd => exact .needField (.respond _)
  | pclr | prdl | pmov | dclr | drdl | crdl => exact .respond _
  | ppush | prdc | dpush | drd | crd => exact .test (.respond _)
  | pmono | pmul | gen => exact .needField (.test (.respond _))
  | pdiv rq rr ra rb => exact execPdiv_sameButFaults rq rr ra rb s g
  | rchk => exact .needField (.test (.ite (.respond _) (.respond _)))
  | econ c => exact execEcon_sameButFaults c s g
  | enc => exact .needField (.test (.test (.ite (.respond _) (.respond _))))

/-- Settles O51: every result is a next state, and both differ in FAULTS alone. -/
theorem behaviourDoesNotDependOnFaults : Obligations.BehaviourDoesNotDependOnFaults := by
  intro s t i g hi h
  obtain ⟨t', u, ht, hu, htu⟩ := exec_sameButFaults hi s g
  obtain rfl : t' = t := Host.Outcome.next.inj (ht.symm.trans h)
  exact ⟨u, hu, htu⟩

end Sys2Proof.Machine
end

section
/-! PROOFS. Reset (R260): the step that takes `rst` leaves the state elements as they are after power-on (R36), in the
same unit and with the host's channels kept. -/
namespace Sys2Proof.Machine

/-- The step that takes `rst` resets the state, in every state and whatever the host offers next. -/
theorem step_rst {s : State} {rest : List HostEvent} (hin : s.inbox = .rst :: rest) :
    step s = .next { s with inbox := rest }.hostReset := by
  simp only [step, hin]

/-- Settles O10: the state elements are those of the reset state, whose values O11 gives, and `hostReset` keeps the
capacities (R35) and the two channels. -/
theorem rstPutsEveryElementAtItsResetValue : Obligations.RstPutsEveryElementAtItsResetValue := by
  intro s rest hin
  obtain ⟨hfvalid, hp, hdbuf, hcbuf, hevalid, hcount, hmark, hfaults⟩ := resetLeavesTheValuesOfTheTable
  exact ⟨_, step_rst hin, hfvalid, hevalid, hcount, fun k => (hp k).1, hdbuf, hcbuf, hmark, hfaults,
    hostReset_params _, hostReset_inbox _, hostReset_rsps _⟩

end Sys2Proof.Machine
end
